-- ==== Sys2Proof/Word.lean ====
section
/-! DEFINITION. The word types of the block: bytes, 16- and 32-bit words, the 13-bit PID, and byte strings of a
fixed length (spec/00_scope.md R8). -/

namespace Sys2Proof

/-- A byte: 8 bits, bit 0 the least significant (R8). -/
abbrev Byte := BitVec 8

/-- A 16-bit word: a link word of the PID entry (R15), `ERRFLAGS` (R25), an operand field of a request. -/
abbrev Word16 := BitVec 16

/-- A 32-bit word: the CRC register and the CRC table's entries (R98), the TS header word (R62). -/
abbrev Word32 := BitVec 32

/-- A 13-bit packet identifier, `0 .. 0x1FFF` (R9, R11). -/
abbrev Pid := BitVec 13

/-- A byte string of exactly `n` bytes. -/
abbrev Bytes (n : Nat) := { l : List Byte // l.length = n }

/-- A TS packet: "exactly 188 bytes" (R44, R61). -/
abbrev Packet := Bytes 188

/-- The 184 bytes of a TS packet after its 4-byte header (R61): adaptation field and payload. -/
abbrev PacketBody := Bytes 184

end Sys2Proof
end

