-- ==== Sys2Proof/Config.lean ====
section
/-! DEFINITION. What the spec leaves to an implementation (spec/00_scope.md R7): the OPEN parameters as opaque
constants without a body, so that a claim holds for every value they may have, and the one decided parameter.
Log entries 11 and 12. -/

namespace Sys2Proof.Config

/-- `HUF_RESYNC_POINT` has two values (R7, R120; decision D27). -/
inductive ResyncPoint where
  /-- `LAST_OK_UNIT_START`: the first bit of the most recent unit that was decoded. -/
  | lastOkUnitStart
  /-- `FAILED_UNIT_START`: the first bit of the unit that failed. -/
  | failedUnitStart
deriving DecidableEq, Repr

/-- The parameters of the Huffman unit (R7), as one argument of its algorithms. -/
structure HufParams where
  /-- `HUF_NODE_CAP`: nodes of the trie store. -/
  nodeCap : Nat
  /-- `HUF_SYM_MAX`: bytes of a symbol. -/
  symMax : Nat
  /-- `HUF_CODE_MAX`: bits of a code. -/
  codeMax : Nat
  /-- `HUF_IN_MAX`: bytes of an input of `HUF.DEC`. -/
  inMax : Nat
  /-- `HUF_TEXT_CAP`: bytes of decoded text. -/
  textCap : Nat
  /-- `HUF_UNKNOWN_TOKEN`: the placeholder for a code that is not in the dictionary. -/
  token : List Byte
  /-- `HUF_RESYNC_POINT`: where the error trace starts. -/
  resync : ResyncPoint
deriving DecidableEq, Repr

/-- `HUF_NODE_CAP - 1`; OPEN, so `HUF_NODE_CAP` is any number that is at least 1 (D24). -/
opaque hufNodeCapPred : Nat

/-- `HUF_SYM_MAX - 1`; OPEN, so `HUF_SYM_MAX` is any number that is at least 1 (D22). -/
opaque hufSymMaxPred : Nat

/-- `HUF_CODE_MAX - 1`; OPEN, so `HUF_CODE_MAX` is any number that is at least 1 (D22). -/
opaque hufCodeMaxPred : Nat

/-- `HUF_IN_MAX`; OPEN, at least 0 (D28). -/
opaque hufInMax : Nat

/-- First byte of `HUF_UNKNOWN_TOKEN`; OPEN (D26). -/
opaque hufTokenHead : Byte

/-- The other bytes of `HUF_UNKNOWN_TOKEN`, which is any non-empty byte string; OPEN (D26). -/
opaque hufTokenTail : List Byte

/-- How far `HUF_TEXT_CAP` exceeds the length of the token; OPEN (D28). -/
opaque hufTextCapExtra : Nat

/-- `EPG_CRC_ENFORCE`; OPEN, a Boolean (D18, 90_conflicts.md C4). -/
opaque epgCrcEnforce : Bool

/-- `HUF_UNKNOWN_TOKEN`: "a non-empty byte string" (R7). -/
def hufToken : List Byte := hufTokenHead :: hufTokenTail

/-- The Huffman unit's parameters as this block has them, within the constraints of R7; the rewind point is the
decided one (D27). -/
def huf : HufParams where
  nodeCap := hufNodeCapPred + 1
  symMax := hufSymMaxPred + 1
  codeMax := hufCodeMaxPred + 1
  inMax := hufInMax
  textCap := hufToken.length + hufTextCapExtra
  token := hufToken
  resync := .lastOkUnitStart

end Sys2Proof.Config
end

