-- ==== Sys2Proof/Syntax.lean ====
section
/-! DEFINITION. The instructions of the block: one constructor for every row of spec/opcode_table.json, and the
request that carries an instruction to the block (spec/30_encoding.md R60, R70, R77; log entries 1, 3 and 5). -/

namespace Sys2Proof

/-- The values of `PIDTAB[p].type`, in the order of their codes 0 to 12 (R14). -/
inductive PidType where
  | none | pat | pmt | caEcm | caEmm | nit | audioMpeg | audioAc3 | videoMpeg2 | videoH264 | privSect | privPes
  | unknown
deriving DecidableEq, Repr

/-- The fields of the TS header that no dispatch row fixes (R62): everything but `sync_byte` and `PID`. -/
structure TsFlags where
  /-- `transport_error_indicator`, bit 23 of the header word. -/
  tei : Bool
  /-- `payload_unit_start_indicator`, bit 22. -/
  pusi : Bool
  /-- `transport_priority`, bit 21; "extracted and never used" (R63). -/
  tp : Bool
  /-- `scrambling_control`, bits 7:6. -/
  sc : BitVec 2
  /-- `adaptation_field_control`, bits 5:4. -/
  afc : BitVec 2
  /-- `continuity_counter`, bits 3:0. -/
  cc : BitVec 4
deriving DecidableEq, Repr

/-- One constructor per row of spec/opcode_table.json. The first twelve are the operation codes of R77; an operand
is held as wide as the request carries it, so that an operand out of its range can be refused as R207 says. The
last ten are the dispatch rows of R70: the `TS.FEED` of a packet whose header word the row matches, with the
header bits the row leaves free and the rest of the packet as operands. -/
inductive Instr where
  /-- `RESET` (R205). -/
  | reset
  /-- `STAT.GET` (R204). -/
  | statGet
  /-- `PID.SETTYPE pid, type` (R201). -/
  | pidSetType (pid : Word16) (ty : Byte)
  /-- `PID.GET pid` (R203). -/
  | pidGet (pid : Word16)
  /-- `PID.SETLINK pid, program_count, pid_for_ecm` (R202). -/
  | pidSetLink (pid programCount pidForEcm : Word16)
  /-- `TS.FEED pkt` (R140). -/
  | tsFeed (pkt : Packet)
  /-- `SEC.TAKE pid` (R177). -/
  | secTake (pid : Word16)
  /-- `CRC.CALC seed, data` (R94). -/
  | crcCalc (seed : Word32) (data : List Byte)
  /-- `CRC.CHK data` (R96). -/
  | crcChk (data : List Byte)
  /-- `HUF.INS symbol, code`; the code as its string of characters (R75, R113). -/
  | hufIns (symbol code : List Byte)
  /-- `HUF.VFY symbol, code`; the code as its string of characters (R75, R115). -/
  | hufVfy (symbol code : List Byte)
  /-- `HUF.DEC data` (R117). -/
  | hufDec (data : List Byte)
  /-- Row `TS.PAT`: `pid = 0x0000` (R70). -/
  | tsPat (flags : TsFlags) (body : PacketBody)
  /-- Row `TS.CAT`: `pid = 0x0001` (R70). -/
  | tsCat (flags : TsFlags) (body : PacketBody)
  /-- Row `TS.SDT.11`: `pid = 0x0011` (R70). -/
  | tsSdt11 (flags : TsFlags) (body : PacketBody)
  /-- Row `TS.SDT.12`: `pid = 0x0012` (R70). -/
  | tsSdt12 (flags : TsFlags) (body : PacketBody)
  /-- Row `TS.EPG.30`: `0x0030 <= pid <= 0x003F`; `low` is `pid[3:0]` (R70). -/
  | tsEpg30 (low : BitVec 4) (flags : TsFlags) (body : PacketBody)
  /-- Row `TS.EPG.40`: `0x0040 <= pid <= 0x005F`; `low` is `pid[4:0]` (R70). -/
  | tsEpg40 (low : BitVec 5) (flags : TsFlags) (body : PacketBody)
  /-- Row `TS.EPG.60`: `0x0060 <= pid <= 0x0061`; `low` is `pid[0]` (R70). -/
  | tsEpg60 (low : BitVec 1) (flags : TsFlags) (body : PacketBody)
  /-- Row `TS.PMT`: no earlier row matches and the PID's registered type is `PMT` (R70). -/
  | tsPmt (pid : Pid) (flags : TsFlags) (body : PacketBody)
  /-- Row `TS.ECM`: no earlier row matches and the PID's registered type is `CA_ECM` (R70). -/
  | tsEcm (pid : Pid) (flags : TsFlags) (body : PacketBody)
  /-- Row `TS.NONE`: no earlier row matches (R70). -/
  | tsNone (pid : Pid) (flags : TsFlags) (body : PacketBody)
deriving DecidableEq, Repr

/-- The two formats of spec/opcode_table.json: an operation code with its operands (`OP8`), and a TS packet that
stands alone, which is the operand of a `TS.FEED` (`TSHDR`). Log entry 5. -/
inductive Port where
  | command | packet
deriving DecidableEq, Repr

/-- One host request as the block receives it (R41, R48): the port it arrives at, and its bytes with their number.
Log entries 1 and 3. -/
structure Request where
  port : Port
  bytes : List Byte
deriving DecidableEq, Repr

end Sys2Proof
end

