-- ==== Sys2Proof/Machine/State.lean ====
section
/-! DEFINITION. The state of the block as plain data (spec/10_state.md R10 to R30), its status codes and result
records (spec/30_encoding.md R77, R78, R79), and the ways a step can end. -/

namespace Sys2Proof.Machine

/-! ### The PID table (R11 to R21) -/

/-- The Section Accumulator `ACC[p]` (R18, R19). By R52 `buffer` is kept as the list of exactly `buffer_progress`
bytes and `whole_section` as the list of exactly `size` bytes (log entry 6). -/
structure Acc where
  /-- `buffer[0 .. buffer_progress)`. -/
  buffer : List Byte
  /-- `buffer_target`: expected total length, 0 while unknown. -/
  bufferTarget : Nat
  /-- `whole_section[0 .. size)`: the completed section that waits for `SEC.TAKE`. -/
  wholeSection : List Byte
deriving DecidableEq, Repr

/-- One entry of the PID table (R11). -/
structure PidEntry where
  /-- "seen at all" (R13). -/
  present : Bool
  /-- The registered type (R14). -/
  ty : PidType
  /-- Host-owned word (R15). -/
  programCount : Word16
  /-- Host-owned word (R15). -/
  pidForEcm : Word16
  /-- Whether `lastCc` holds a counter (R16). -/
  ccValid : Bool
  /-- The last continuity counter (R16). -/
  lastCc : BitVec 4
  /-- The scrambling latch (R17). -/
  scramblingControl : BitVec 2
  /-- The Section Accumulator (R18, R19). -/
  acc : Acc
deriving DecidableEq, Repr

/-- The link words' `INVALID` (R15). -/
def invalidLink : Word16 := 0xFFFF

/-- An accumulator after reset: state `IDLE`, nothing pending (R30). -/
def Acc.reset : Acc where
  buffer := []
  bufferTarget := 0
  wholeSection := []

/-- An entry after reset (R30). -/
def PidEntry.reset : PidEntry where
  present := false
  ty := .none
  programCount := invalidLink
  pidForEcm := invalidLink
  ccValid := false
  lastCc := 0
  scramblingControl := 0
  acc := Acc.reset

/-- The PID table, sparse: the entries that differ from their reset value, with their PIDs, which rise strictly. A PID
that is not listed has the reset entry (log entry 7). -/
abbrev PidTab := List (Nat × PidEntry)

/-! ### The trie (R23) -/

/-- A node: `has_value` and `value` together, `child[0]`, `child[1]`; `none` stands for `NIL`. -/
structure TrieNode where
  value : Option (List Byte)
  zeroChild : Option Nat
  oneChild : Option Nat
deriving DecidableEq, Repr

/-- A node without value and without children. -/
def TrieNode.empty : TrieNode where
  value := none
  zeroChild := none
  oneChild := none

/-- The node store; node `n` is element `n`, `TRIE.count` is the length. -/
abbrev Trie := List TrieNode

/-- The empty dictionary: the root alone (R23, R30). -/
def Trie.emptyDictionary : Trie := [TrieNode.empty]

/-! ### Classes (R70, R79) -/

/-- The classes that are reassembled (R151). -/
inductive SecClass where
  | pat | cat | sdt | epg | pmt
deriving DecidableEq, Repr

/-- The result of the PID dispatch (R149). -/
inductive PidClass where
  | none
  | sec (c : SecClass)
  | ecm
deriving DecidableEq, Repr

/-! ### Replies -/

/-- The status codes of R78. -/
inductive Status where
  | ok | refusedFatal | refusedPending | eOperand | fed | fedComplete | ignoredWaiting | abortedDiscontinuity
  | noPayload | droppedScrambled | unrouted | ecmPassthrough | errSync | errTei | errBounds | errOverflow | notReady
  | hufCorrupt | hufOverflow | eSealed | eFormat | eCapacity | vfyMatch | vfyMismatch | vfyMissing
deriving DecidableEq, Repr

/-- The result record of `PID.GET` (R203). -/
structure PidReport where
  present : Bool
  ty : PidType
  programCount : Word16
  pidForEcm : Word16
  ccValid : Bool
  lastCc : BitVec 4
  scramblingControl : BitVec 2
  bufferProgress : Nat
  bufferTarget : Nat
  size : Nat
  cls : PidClass
deriving DecidableEq, Repr

/-- The result record of `STAT.GET` (R204). -/
structure StatReport where
  errflags : Word16
  fatal : Bool
  sealBit : Bool
  count : Nat
  pending : Bool
  pendingPid : Pid
deriving DecidableEq, Repr

/-- The result record of a `TS.FEED` that got as far as step 3 (R140); `payloadStart` is present when step 5 was
passed. -/
structure FeedReport where
  pid : Pid
  cls : PidClass
  discontinuity : Bool
  payloadStart : Option Nat
  sectionReady : Bool
deriving DecidableEq, Repr

/-- The result record of a `SEC.TAKE` that hands a section over (R177). -/
structure SectionReport where
  cls : PidClass
  size : Nat
  bytes : List Byte
  crcOk : Bool
  deliver : Bool
deriving DecidableEq, Repr

/-- The result record of a `HUF.DEC` that ran (R117). -/
structure TextReport where
  text : List Byte
  textLen : Nat
  trace : List Byte
  traceLen : Nat
deriving DecidableEq, Repr

/-- The result fields beside the status (R77); `noFields` where the operation reports its status alone. -/
inductive Result where
  | noFields
  | stat (r : StatReport)
  | entry (r : PidReport)
  | feed (r : FeedReport)
  | sectionBytes (r : SectionReport)
  | crcValue (crc : Word32)
  | crcCheck (ok : Bool)
  | decoded (r : TextReport)
deriving DecidableEq, Repr

/-- A reply: "each returning one status code" and a result record (R77, R78). -/
structure Reply where
  status : Status
  result : Result
deriving DecidableEq, Repr

/-! ### The state -/

/-- The state of the block (R10) and the two ends of its operation interface (R48). -/
structure State where
  /-- The PID table with its accumulators (R11, R18, R19). -/
  pidtab : PidTab
  /-- The trie store (R23). -/
  trie : Trie
  /-- `HUF_SEALED` (R24). -/
  hufSealed : Bool
  /-- `ERRFLAGS` (R25). -/
  errflags : Word16
  /-- `FATAL` (R26). -/
  fatal : Bool
  /-- The model's own: the requests issued and not yet answered, oldest first (log entry 1). -/
  requests : List Request
  /-- The model's own: the replies given, newest first (log entry 2). -/
  replies : List Reply
deriving DecidableEq, Repr

/-- The block right after reset (R30, R270): no PID seen, the empty dictionary, nothing sealed, flagged or fatal; no
request issued, no reply given (log entries 1 and 2). -/
def State.reset : State where
  pidtab := []
  trie := Trie.emptyDictionary
  hufSealed := false
  errflags := 0
  fatal := false
  requests := []
  replies := []

/-! ### How a step ends -/

/-- The faults of the block: there are none, "The block has no traps" (R240); every abnormal condition is a next state
with a status. Nothing raises a fault, which is safe: a claim that a step answers a next state is a claim about what
the spec says happens. -/
inductive Fault where
deriving DecidableEq, Repr

/-- The refusals of the model. -/
inductive Refusal where
  /-- Raised by `exec` for an instruction that has no meaning in the model; no arm raises it any more. Safe: nothing can
  be proved of a state after it. -/
  | notModelled (mnemonic : String)
deriving DecidableEq, Repr

end Sys2Proof.Machine
end

