-- ==== Sys2Proof/Machine/Flags.lean ====
section
/-! DEFINITION. The sticky error flags (spec/10_state.md R25): their bits, their masks, and setting them. The block has
no other flags and no condition codes (R28). -/

namespace Sys2Proof.Machine

/-- The defined bits of `ERRFLAGS` (R25). -/
inductive ErrFlag where
  | sync | tei | bounds | disc | overflow | crc | hufCorrupt | hufDict | capacity | hufOverflow
deriving DecidableEq, Repr

/-- The bit number of a flag (R25). -/
def ErrFlag.bit : ErrFlag → Nat
  | .sync => 0
  | .tei => 1
  | .bounds => 2
  | .disc => 3
  | .overflow => 4
  | .crc => 5
  | .hufCorrupt => 6
  | .hufDict => 7
  | .capacity => 8
  | .hufOverflow => 9

/-- The mask of a flag. -/
def ErrFlag.mask (f : ErrFlag) : Word16 := 1#16 <<< f.bit

/-- The mask of a flag when a condition holds, else no bit. -/
def ErrFlag.maskIf (f : ErrFlag) (c : Bool) : Word16 := if c then f.mask else 0

/-- Whether a flag of `ERRFLAGS` is set. -/
def State.flag (s : State) (f : ErrFlag) : Bool := s.errflags.getLsbD f.bit

/-- Setting the flags of a mask; sticky, since no operation but `RESET` clears one (R25). -/
def State.raise (s : State) (mask : Word16) : State := { s with errflags := s.errflags ||| mask }

end Sys2Proof.Machine
end

