-- ==== Sys2Proof/Machine/Ops.lean ====
section
/-! DEFINITION. The named operations over the block's stores and its interface: reading and writing the PID table
(spec/10_state.md R11), replying (spec/30_encoding.md R77), the refusal of `FATAL` (spec/60_exceptions.md R254), and the
one way an error is taken (R252). There is no return from an error to model: "There is no return operation" (R253). -/

namespace Sys2Proof.Machine

/-! ### The PID table -/

/-- The canonical form of the table: PIDs rise strictly, are 13-bit values, and no listed entry equals what an unlisted
PID reads as (log entry 7). -/
abbrev PidTab.wf (t : PidTab) : Prop :=
  (t.map Prod.fst).Pairwise (· < ·) ∧ ∀ c ∈ t, c.1 < 8192 ∧ c.2 ≠ PidEntry.reset

/-- Reading entry `p`: the listed entry, or the reset entry of a PID that is not listed. -/
def PidTab.get (t : PidTab) (p : Pid) : PidEntry :=
  match t.find? fun c => c.1 == p.toNat with
  | some c => c.2
  | none => PidEntry.reset

/-- The table without entry `k`. -/
def PidTab.erase (t : PidTab) (k : Nat) : PidTab := t.filter fun c => c.1 != k

/-- The table with `(k, e)` put before the first greater PID. -/
def PidTab.insert (k : Nat) (e : PidEntry) : PidTab → PidTab
  | [] => [(k, e)]
  | c :: t => if k < c.1 then (k, e) :: c :: t else c :: PidTab.insert k e t

/-- Writing entry `p`; writing the reset entry takes it off the list, so the form stays canonical. -/
def PidTab.set (t : PidTab) (p : Pid) (e : PidEntry) : PidTab :=
  if e = PidEntry.reset then t.erase p.toNat else PidTab.insert p.toNat e (t.erase p.toNat)

/-- `PIDTAB[p]`. -/
def State.entry (s : State) (p : Pid) : PidEntry := s.pidtab.get p

/-- `PIDTAB[p] <- e`. -/
def State.setEntry (s : State) (p : Pid) (e : PidEntry) : State := { s with pidtab := s.pidtab.set p e }

/-- `ACC[p].buffer_progress` (R18). -/
def Acc.bufferProgress (a : Acc) : Nat := a.buffer.length

/-- `ACC[p].size` (R19). -/
def Acc.size (a : Acc) : Nat := a.wholeSection.length

/-- The states a PID's accumulator is in (R21). -/
inductive AccState where
  | idle | accumulating | complete
deriving DecidableEq, Repr

/-- `acc_state(p)`, a function of the accumulator (R21). -/
def Acc.state (a : Acc) : AccState :=
  if a.size ≠ 0 then .complete else if a.bufferProgress = 0 then .idle else .accumulating

/-- The PID whose completed section waits to be taken, if there is one (R141, R204); unique in every reachable state by
R20 (a), the first listed one otherwise (log entry 8). -/
def State.pendingPid? (s : State) : Option Pid :=
  (s.pidtab.find? fun c => c.2.acc.size != 0).map fun c => BitVec.ofNat 13 c.1

/-! ### Replies -/

/-- Ending an operation with a status and a result record. -/
def State.reply (s : State) (st : Status) (r : Result) : State := { s with replies := ⟨st, r⟩ :: s.replies }

/-- Ending an operation with its status alone. -/
def State.answer (s : State) (st : Status) : State := s.reply st .noFields

/-- Taking an error: "(a) The status result. (b) At most one `ERRFLAGS` bit per condition, set to 1" (R252); what a rule
clears beside that is the rule's own. -/
def State.error (s : State) (f : ErrFlag) (st : Status) : State := (s.raise f.mask).answer st

/-- "While `FATAL = 1` ... every other operation returns `REFUSED_FATAL` and changes nothing" (R254): the operation `k`
of a block that is not in the `FATAL` state. -/
def State.unlessFatal (s : State) (k : State → State) : Host.Outcome State Fault Refusal :=
  if s.fatal then .next (s.answer .refusedFatal) else .next (k s)

end Sys2Proof.Machine
end

