-- ==== Sys2Proof/WellFormed.lean ====
section
/-! DEFINITION. The static checks on an instruction: the ranges the spec gives its operands (spec/30_encoding.md
R70, R74, R77; spec/44_host_ops.md R207). Limits that are OPEN parameters (R7) are not static and are tested by the
meanings. An instruction that fails a check can still be requested; its meaning refuses it. -/

namespace Sys2Proof

/-- A PID operand is in range when it is at most 0x1FFF (R207). -/
def pidInRange (pid : Word16) : Bool := decide (pid.toNat < 8192)

/-- A `type` operand is in range when it is a code of R14, 0 to 12 (R201). -/
def typeInRange (ty : Byte) : Bool := decide (ty.toNat ≤ 12)

/-- A character of a code: `0` (0x30) or `1` (0x31) (R75). -/
def isBitChar (c : Byte) : Bool := c == 0x30 || c == 0x31

/-- The operands of `HUF.INS` and `HUF.VFY`: a non-empty symbol and a non-empty string of bit characters (R74). -/
def entryWellFormed (symbol code : List Byte) : Bool :=
  !symbol.isEmpty && !code.isEmpty && code.all isBitChar

/-- The PIDs with a fixed role, rows 1 to 4 of R70. -/
def hasFixedRole (pid : Pid) : Bool :=
  pid == 0x0000 || pid == 0x0001 || pid == 0x0011 || pid == 0x0012
    || (decide (0x0030 ≤ pid.toNat) && decide (pid.toNat < 0x0062))

/-- Every operand of the instruction is in the range the spec gives it. -/
def Instr.wellFormed : Instr → Bool
  | .reset => true
  | .statGet => true
  | .pidSetType pid ty => pidInRange pid && typeInRange ty
  | .pidGet pid => pidInRange pid
  | .pidSetLink pid _ _ => pidInRange pid
  | .tsFeed _ => true
  | .secTake pid => pidInRange pid
  | .crcCalc _ _ => true
  | .crcChk _ => true
  | .hufIns symbol code => entryWellFormed symbol code
  | .hufVfy symbol code => entryWellFormed symbol code
  | .hufDec _ => true
  | .tsPat _ _ => true
  | .tsCat _ _ => true
  | .tsSdt11 _ _ => true
  | .tsSdt12 _ _ => true
  | .tsEpg30 _ _ _ => true
  | .tsEpg40 _ _ _ => true
  | .tsEpg60 _ _ _ => true
  | .tsPmt pid _ _ => !hasFixedRole pid
  | .tsEcm pid _ _ => !hasFixedRole pid
  | .tsNone pid _ _ => !hasFixedRole pid

end Sys2Proof
end

