-- ==== Sys2Proof/Machine/Operands.lean ====
section
/-! DEFINITION. The operand forms of the operations and the codes of their results: PIDs and type codes offered on a
wider interface (spec/44_host_ops.md R207), codes as character strings (spec/30_encoding.md R72, R74, R75), the PID
dispatch (R70, R149), the status and class numbers (R78, R79). -/

namespace Sys2Proof.Machine

/-! ### Operands -/

/-- A PID operand; "a `pid` above 0x1FFF" is out of range (R207). -/
def pidOperand (pid : Word16) : Option Pid := if pid.toNat < 8192 then some (pid.setWidth 13) else none

/-- The 4-bit code of a type (R14). -/
def typeCode : PidType → BitVec 4
  | .none => 0
  | .pat => 1
  | .pmt => 2
  | .caEcm => 3
  | .caEmm => 4
  | .nit => 5
  | .audioMpeg => 6
  | .audioAc3 => 7
  | .videoMpeg2 => 8
  | .videoH264 => 9
  | .privSect => 10
  | .privPes => 11
  | .unknown => 12

/-- A type operand, by its code; 13 and above are "not a legal value" (R14, R201). -/
def typeOperand (ty : Byte) : Option PidType :=
  [PidType.none, .pat, .pmt, .caEcm, .caEmm, .nit, .audioMpeg, .audioAc3, .videoMpeg2, .videoH264, .privSect, .privPes,
    .unknown].find? fun t => (typeCode t).setWidth 8 == ty

/-- The bits of a code, first character first (R75); used on strings of bit characters only. -/
def codeBits (code : List Byte) : List Bool := code.map fun c => c == 0x31

/-- Whether symbol and code are an entry that `HUF.INS` and `HUF.VFY` accept: lengths in `1 .. HUF_SYM_MAX` and
`1 .. HUF_CODE_MAX` (R113, R115), and no "character other than `0`, `1` in the bit string" (R72; log entry 10). -/
def entryAccepted (P : Config.HufParams) (symbol code : List Byte) : Bool :=
  !symbol.isEmpty && !code.isEmpty && code.all isBitChar
    && decide (symbol.length ≤ P.symMax) && decide (code.length ≤ P.codeMax)

/-! ### The dispatch (R70, R149) -/

/-- `class(pid)`, with `ty` the type registered for the PID (R149). -/
def classOf (pid : Pid) (ty : PidType) : PidClass :=
  if pid = 0x0000 then .sec .pat
  else if pid = 0x0001 then .sec .cat
  else if pid = 0x0011 ∨ pid = 0x0012 then .sec .sdt
  else if 0x0030 ≤ pid.toNat ∧ pid.toNat < 0x0062 then .sec .epg
  else if ty = .pmt then .sec .pmt
  else if ty = .caEcm then .ecm
  else .none

/-- `class(pid)` on the present state (R149, R177, R203). -/
def State.classOf (s : State) (p : Pid) : PidClass := Sys2Proof.Machine.classOf p (s.entry p).ty

/-- `LEN_MASK[class]` (R68). -/
def lenMask : SecClass → BitVec 12
  | .pat => 0x3FF
  | .cat => 0x3FF
  | .pmt => 0x3FF
  | .sdt => 0xFFF
  | .epg => 0xFFF

/-- The single-shot classes: `PAT`, `CAT`, `PMT` (R9, R178). -/
def PidClass.singleShot : PidClass → Bool
  | .sec .pat => true
  | .sec .cat => true
  | .sec .pmt => true
  | .sec .sdt => false
  | .sec .epg => false
  | .ecm => false
  | .none => false

/-- Whether the CRC verdict decides `deliver` for a class, `enf` of R177 (R179). -/
def PidClass.crcEnforced (epgEnforce : Bool) (c : PidClass) : Bool := c != .sec .epg || epgEnforce

/-! ### Codes of results -/

/-- The 8-bit status code (R78). -/
def Status.code : Status → Byte
  | .ok => 0x00
  | .refusedFatal => 0x01
  | .refusedPending => 0x02
  | .eOperand => 0x04
  | .fed => 0x10
  | .fedComplete => 0x11
  | .ignoredWaiting => 0x12
  | .abortedDiscontinuity => 0x13
  | .noPayload => 0x14
  | .droppedScrambled => 0x15
  | .unrouted => 0x16
  | .ecmPassthrough => 0x17
  | .errSync => 0x18
  | .errTei => 0x19
  | .errBounds => 0x1A
  | .errOverflow => 0x1B
  | .notReady => 0x21
  | .hufCorrupt => 0x31
  | .hufOverflow => 0x32
  | .eSealed => 0x33
  | .eFormat => 0x34
  | .eCapacity => 0x35
  | .vfyMatch => 0x36
  | .vfyMismatch => 0x37
  | .vfyMissing => 0x38

/-- The 3-bit class code (R79). -/
def PidClass.code : PidClass → BitVec 3
  | .none => 0
  | .sec .pat => 1
  | .sec .cat => 2
  | .sec .sdt => 3
  | .sec .epg => 4
  | .sec .pmt => 5
  | .ecm => 6

end Sys2Proof.Machine
end

