-- ==== Sys2Proof/Machine/HostOps.lean ====
section
/-! DEFINITION. The host and table operations (spec/44_host_ops.md): `RESET`, `STAT.GET`, `PID.SETTYPE`, `PID.GET`,
`PID.SETLINK`. -/

namespace Sys2Proof.Machine

/-- `RESET` (R205): the whole state of the block takes its reset values (R30), in the `FATAL` state too. The requests and
replies are the host's side of the interface and stay (log entries 1 and 2). -/
def execReset (s : State) : Host.Outcome State Fault Refusal :=
  .next ({ State.reset with requests := s.requests, replies := s.replies }.answer .ok)

/-- `STAT.GET` (R204); works with `FATAL = 1` too (R254). -/
def execStatGet (s : State) : Host.Outcome State Fault Refusal :=
  .next (s.reply .ok (.stat
    { errflags := s.errflags
      fatal := s.fatal
      sealBit := s.hufSealed
      count := s.trie.length
      pending := s.pendingPid?.isSome
      pendingPid := s.pendingPid?.getD 0 }))

/-- `PID.SETTYPE pid, type` (R201); the order of the refusals is R251's. -/
def execPidSetType (pid : Word16) (ty : Byte) (s : State) : Host.Outcome State Fault Refusal :=
  s.unlessFatal fun s =>
    match pidOperand pid, typeOperand ty with
    | some p, some t =>
      if (s.entry p).acc.size ≠ 0 then s.answer .refusedPending
      else (s.setEntry p { s.entry p with ty := t }).answer .ok
    | _, _ => s.answer .eOperand

/-- The result record of `PID.GET` for one PID (R203). -/
def State.pidReport (s : State) (p : Pid) : PidReport :=
  let e := s.entry p
  { present := e.present
    ty := e.ty
    programCount := e.programCount
    pidForEcm := e.pidForEcm
    ccValid := e.ccValid
    lastCc := e.lastCc
    scramblingControl := e.scramblingControl
    bufferProgress := e.acc.bufferProgress
    bufferTarget := e.acc.bufferTarget
    size := e.acc.size
    cls := s.classOf p }

/-- `PID.GET pid` (R203); "works with `FATAL = 1`". -/
def execPidGet (pid : Word16) (s : State) : Host.Outcome State Fault Refusal :=
  match pidOperand pid with
  | some p => .next (s.reply .ok (.entry (s.pidReport p)))
  | none => .next (s.answer .eOperand)

/-- `PID.SETLINK pid, program_count, pid_for_ecm` (R202). -/
def execPidSetLink (pid programCount pidForEcm : Word16) (s : State) : Host.Outcome State Fault Refusal :=
  s.unlessFatal fun s =>
    match pidOperand pid with
    | some p =>
      (s.setEntry p { s.entry p with programCount := programCount, pidForEcm := pidForEcm }).answer .ok
    | none => s.answer .eOperand

end Sys2Proof.Machine
end

