-- ==== Sys2Proof/Machine/Huffman.lean ====
section
/-! DEFINITION. The Huffman bit-stream decoder (spec/41_huffman.md): the trie's operations, the algorithms with the
unit's parameters as an argument, and the meanings of `HUF.INS`, `HUF.VFY`, `HUF.DEC`. -/

namespace Sys2Proof.Machine

/-! ### The trie (R23, R111) -/

/-- The child of a node for a bit: `child[0]` or `child[1]`. -/
def TrieNode.child (n : TrieNode) (b : Bool) : Option Nat := if b then n.oneChild else n.zeroChild

/-- The node with its child for a bit set to `m`. -/
def TrieNode.withChild (n : TrieNode) (b : Bool) (m : Nat) : TrieNode :=
  if b then { n with oneChild := some m } else { n with zeroChild := some m }

/-- `TRIE.node[n].child[b]`; `none` is `NIL`. A node that the store does not hold has no children (log entry 9). -/
def childOf (t : Trie) (n : Nat) (b : Bool) : Option Nat := t[n]?.bind fun nd => nd.child b

/-- `TRIE.node[n].value`, if the node bears one. -/
def valueOf (t : Trie) (n : Nat) : Option (List Byte) := t[n]?.bind fun nd => nd.value

/-- The node a bit string leads to from node `n`, if the path exists (R115). -/
def walkFrom (t : Trie) : Nat → List Bool → Option Nat
  | n, [] => some n
  | n, b :: bits =>
    match childOf t n b with
    | some m => walkFrom t m bits
    | none => none

/-- The number of nodes the path of a bit string lacks from node `n`: `need` of R113. -/
def missingNodes (t : Trie) : Nat → List Bool → Nat
  | _, [] => 0
  | n, b :: bits =>
    match childOf t n b with
    | some m => missingNodes t m bits
    | none => bits.length + 1

/-- The store with a new empty node as the child of node `n` for bit `b` (R113). -/
def addChild (t : Trie) (n : Nat) (b : Bool) : Trie :=
  t.modify n (fun nd => nd.withChild b t.length) ++ [TrieNode.empty]

/-- The insertion loop of R113 from node `n`: missing nodes are created, the end node takes the symbol. -/
def insertFrom (symbol : List Byte) : Trie → Nat → List Bool → Trie
  | t, n, [] => t.modify n fun nd => { nd with value := some symbol }
  | t, n, b :: bits =>
    match childOf t n b with
    | some m => insertFrom symbol t m bits
    | none => insertFrom symbol (addChild t n b) t.length bits

/-! ### Insertion (R113) -/

/-- `HUF.INS` on a block that is not in the `FATAL` state; the order of the tests is R251's. -/
def hufInsert (P : Config.HufParams) (symbol code : List Byte) (s : State) : State :=
  if s.hufSealed then s.answer .eSealed
  else if entryAccepted P symbol code = false then s.error .hufDict .eFormat
  else if P.nodeCap < s.trie.length + missingNodes s.trie 0 (codeBits code) then
    { s with fatal := true }.error .capacity .eCapacity
  else { s with trie := insertFrom symbol s.trie 0 (codeBits code) }.answer .ok

/-- `HUF.INS symbol, code` (R113). -/
def execHufIns (symbol code : List Byte) (s : State) : Host.Outcome State Fault Refusal :=
  s.unlessFatal fun s => hufInsert Config.huf symbol code s

/-! ### Verification (R115) -/

/-- `HUF.VFY` on a block that is not in the `FATAL` state. -/
def hufVerify (P : Config.HufParams) (symbol code : List Byte) (s : State) : State :=
  if entryAccepted P symbol code = false then s.error .hufDict .eFormat
  else
    match walkFrom s.trie 0 (codeBits code) with
    | none => s.error .hufDict .vfyMissing
    | some n =>
      if valueOf s.trie n = some symbol then s.answer .vfyMatch else s.error .hufDict .vfyMismatch

/-- `HUF.VFY symbol, code` (R115). -/
def execHufVfy (symbol code : List Byte) (s : State) : Host.Outcome State Fault Refusal :=
  s.unlessFatal fun s => hufVerify Config.huf symbol code s

/-! ### Decoding (R117 to R126) -/

/-- The variables of one `HUF.DEC` (R27, R123); `overflow` stands for the jump to `overflow`. -/
structure HufRun where
  pos : Nat
  unitStart : Nat
  lastOkStart : Nat
  node : Nat
  text : List Byte
  trace : List Byte
  corrupt : Bool
  overflow : Bool
deriving DecidableEq, Repr

/-- The variables at entry: the first bit tested is bit 2, mask 0x20 of byte 0 (R76, R118). -/
def hufStart : HufRun where
  pos := 2
  unitStart := 2
  lastOkStart := 2
  node := 0
  text := []
  trace := []
  corrupt := false
  overflow := false

/-- Bit `k` of the stream: mask `0x80 >> (k mod 8)` of byte `k div 8` (R76). -/
def streamBit (data : List Byte) (k : Nat) : Bool := (data.getD (k / 8) 0).getLsbD (7 - k % 8)

/-- The trace's byte for a bit: 0x30 or 0x31 (R121). -/
def traceDigit (b : Bool) : Byte := if b then 0x31 else 0x30

/-- The rewind point (R120). -/
def rewindPoint (P : Config.HufParams) (d : HufRun) : Nat :=
  match P.resync with
  | .lastOkUnitStart => d.lastOkStart
  | .failedUnitStart => d.unitStart

/-- The corrupt state's turn: the bit goes to the trace (R121). -/
def traceTurn (data : List Byte) (d : HufRun) : HufRun :=
  { d with trace := d.trace ++ [traceDigit (streamBit data d.pos)], pos := d.pos + 1 }

/-- The turn at a missing child: the token and the rewind, or the overflow (R120, R125). -/
def missTurn (P : Config.HufParams) (d : HufRun) : HufRun :=
  if P.textCap < d.text.length + P.token.length then { d with overflow := true }
  else { d with text := d.text ++ P.token, corrupt := true, pos := rewindPoint P d }

/-- The turn to child `m`: the bit is consumed; a valued node emits its text and ends the unit, or overflows
(R119, R125). -/
def stepTurn (P : Config.HufParams) (t : Trie) (m : Nat) (d : HufRun) : HufRun :=
  let moved := { d with node := m, pos := d.pos + 1 }
  match valueOf t m with
  | none => moved
  | some v =>
    if P.textCap < d.text.length + v.length then { moved with overflow := true }
    else
      { moved with text := d.text ++ v, lastOkStart := d.unitStart, unitStart := d.pos + 1, node := 0 }

/-- One turn of the loop of R123. -/
def hufTurn (P : Config.HufParams) (t : Trie) (data : List Byte) (d : HufRun) : HufRun :=
  if d.corrupt then traceTurn data d
  else
    match childOf t d.node (streamBit data d.pos) with
    | none => missTurn P d
    | some m => stepTurn P t m d

/-- Whether the loop goes on: `pos < 8*n` and no jump to `overflow` (R123). -/
def hufRunning (data : List Byte) (d : HufRun) : Bool := !d.overflow && decide (d.pos < 8 * data.length)

/-- The loop of R123, for at most the given number of turns. -/
def hufLoop (P : Config.HufParams) (t : Trie) (data : List Byte) : Nat → HufRun → HufRun
  | 0, d => d
  | turns + 1, d => if hufRunning data d then hufLoop P t data turns (hufTurn P t data d) else d

/-- The whole decode: "the total number of turns is below `16n`" (R123). -/
def hufDecode (P : Config.HufParams) (t : Trie) (data : List Byte) : HufRun :=
  hufLoop P t data (16 * data.length) hufStart

/-- The status of a decode (R123). -/
def hufStatus (d : HufRun) : Status :=
  if d.overflow then .hufOverflow else if d.corrupt then .hufCorrupt else .ok

/-- The flags a decode raises (R120, R125). -/
def hufFlags (d : HufRun) : Word16 := ErrFlag.hufCorrupt.maskIf d.corrupt ||| ErrFlag.hufOverflow.maskIf d.overflow

/-- The result record of a decode (R117). -/
def hufReport (d : HufRun) : TextReport where
  text := d.text
  textLen := d.text.length
  trace := d.trace
  traceLen := d.trace.length

/-- `HUF.DEC` on a block that is not in the `FATAL` state (R117, R123). -/
def hufRunDecode (P : Config.HufParams) (data : List Byte) (s : State) : State :=
  if P.inMax < data.length then s.answer .eOperand
  else
    let d := hufDecode P s.trie data
    ({ s with hufSealed := true }.raise (hufFlags d)).reply (hufStatus d) (.decoded (hufReport d))

/-- `HUF.DEC data` (R117). -/
def execHufDec (data : List Byte) (s : State) : Host.Outcome State Fault Refusal :=
  s.unlessFatal fun s => hufRunDecode Config.huf data s

end Sys2Proof.Machine
end

