-- ==== Sys2Proof/Decode.lean ====
section
/-! DEFINITION. The decoder, total on any request and rejecting by name, and the encoder after it
(spec/30_encoding.md R60 to R66, R70, R75, R77). The layout of the operands behind an operation code is the model's
(log entry 3); the codes, the TS header and the dispatch rows are the spec's. -/

namespace Sys2Proof

/-! ### Operation codes (R77) -/

/-- The twelve operations of R77. -/
inductive OpCode where
  | reset | statGet | pidSetType | pidGet | pidSetLink | tsFeed | secTake | crcCalc | crcChk | hufIns | hufVfy
  | hufDec
deriving DecidableEq, Repr

/-- The 8-bit operation code (R77). -/
def OpCode.toByte : OpCode → Byte
  | .reset => 0x01
  | .statGet => 0x02
  | .pidSetType => 0x10
  | .pidGet => 0x11
  | .pidSetLink => 0x12
  | .tsFeed => 0x20
  | .secTake => 0x21
  | .crcCalc => 0x30
  | .crcChk => 0x31
  | .hufIns => 0x40
  | .hufVfy => 0x41
  | .hufDec => 0x42

/-- The operation an 8-bit code stands for, if it is one of the twelve (R77, R207). -/
def OpCode.ofByte? (c : Byte) : Option OpCode :=
  [OpCode.reset, .statGet, .pidSetType, .pidGet, .pidSetLink, .tsFeed, .secTake, .crcCalc, .crcChk, .hufIns,
    .hufVfy, .hufDec].find? fun op => op.toByte == c

/-! ### The TS header (R61 to R64) -/

/-- Byte `i` of a packet. -/
def Packet.byte (p : Packet) (i : Nat) : Byte := p.val.getD i 0

/-- The header as the 32-bit big-endian word `H` of R62. -/
def Packet.header (p : Packet) : Word32 := p.byte 0 ++ p.byte 1 ++ p.byte 2 ++ p.byte 3

/-- `sync_byte`, `pkt[0]` (R63). -/
def Packet.sync (p : Packet) : Byte := p.byte 0

/-- `PID`, `(pkt[1][4:0] << 8) | pkt[2]` (R63). -/
def Packet.pid (p : Packet) : Pid := (p.byte 1).extractLsb' 0 5 ++ p.byte 2

/-- The other header fields (R63). -/
def Packet.flags (p : Packet) : TsFlags where
  tei := (p.byte 1).getLsbD 7
  pusi := (p.byte 1).getLsbD 6
  tp := (p.byte 1).getLsbD 5
  sc := (p.byte 3).extractLsb' 6 2
  afc := (p.byte 3).extractLsb' 4 2
  cc := (p.byte 3).extractLsb' 0 4

/-- The bytes after the header (R61). -/
def Packet.body (p : Packet) : PacketBody := ⟨p.val.drop 4, by simp [p.property]⟩

/-- Byte 1 of the header: TEI, PUSI, priority, the upper five bits of the PID (R62). -/
def headerByte1 (pid : Pid) (f : TsFlags) : Byte :=
  BitVec.ofBool f.tei ++ BitVec.ofBool f.pusi ++ BitVec.ofBool f.tp ++ pid.extractLsb' 8 5

/-- Byte 2 of the header: the lower eight bits of the PID (R62). -/
def headerByte2 (pid : Pid) : Byte := pid.extractLsb' 0 8

/-- Byte 3 of the header: scrambling control, adaptation-field control, continuity counter (R62). -/
def headerByte3 (f : TsFlags) : Byte := f.sc ++ f.afc ++ f.cc

/-- The packet with sync byte 0x47, the given header fields and body (R61, R62). -/
def mkPacket (pid : Pid) (f : TsFlags) (body : PacketBody) : Packet :=
  ⟨0x47 :: headerByte1 pid f :: headerByte2 pid :: headerByte3 f :: body.val, by simp [body.property]⟩

/-! ### The dispatch rows (R70)

The PID of a row, as far as the row fixes it. -/

/-- PIDs 0x0030 to 0x003F. -/
def epg30Pid (low : BitVec 4) : Pid := (0x003 : BitVec 9) ++ low

/-- PIDs 0x0040 to 0x005F. -/
def epg40Pid (low : BitVec 5) : Pid := (0x02 : BitVec 8) ++ low

/-- PIDs 0x0060 and 0x0061. -/
def epg60Pid (low : BitVec 1) : Pid := (0x030 : BitVec 12) ++ low

/-- The row that handles a packet, `ty` being the type registered for its PID: "The tests are made in that order and
the first that holds wins" (R70). -/
def rowOf (ty : PidType) (p : Packet) : Instr :=
  if p.pid = 0x0000 then .tsPat p.flags p.body
  else if p.pid = 0x0001 then .tsCat p.flags p.body
  else if p.pid = 0x0011 then .tsSdt11 p.flags p.body
  else if p.pid = 0x0012 then .tsSdt12 p.flags p.body
  else if p.pid.extractLsb' 4 9 = 0x003 then .tsEpg30 (p.pid.extractLsb' 0 4) p.flags p.body
  else if p.pid.extractLsb' 5 8 = 0x02 then .tsEpg40 (p.pid.extractLsb' 0 5) p.flags p.body
  else if p.pid.extractLsb' 1 12 = 0x030 then .tsEpg60 (p.pid.extractLsb' 0 1) p.flags p.body
  else if ty = .pmt then .tsPmt p.pid p.flags p.body
  else if ty = .caEcm then .tsEcm p.pid p.flags p.body
  else .tsNone p.pid p.flags p.body

/-- The packet a dispatch row's instruction stands for; `none` for the twelve operations. -/
def Instr.rowPacket? : Instr → Option Packet
  | .tsPat f body => some (mkPacket 0x0000 f body)
  | .tsCat f body => some (mkPacket 0x0001 f body)
  | .tsSdt11 f body => some (mkPacket 0x0011 f body)
  | .tsSdt12 f body => some (mkPacket 0x0012 f body)
  | .tsEpg30 low f body => some (mkPacket (epg30Pid low) f body)
  | .tsEpg40 low f body => some (mkPacket (epg40Pid low) f body)
  | .tsEpg60 low f body => some (mkPacket (epg60Pid low) f body)
  | .tsPmt pid f body => some (mkPacket pid f body)
  | .tsEcm pid f body => some (mkPacket pid f body)
  | .tsNone pid f body => some (mkPacket pid f body)
  | .reset => none
  | .statGet => none
  | .pidSetType _ _ => none
  | .pidGet _ => none
  | .pidSetLink _ _ _ => none
  | .tsFeed _ => none
  | .secTake _ => none
  | .crcCalc _ _ => none
  | .crcChk _ => none
  | .hufIns _ _ => none
  | .hufVfy _ _ => none
  | .hufDec _ => none

/-! ### The dictionary entry (R75)

`HUF.INS` and `HUF.VFY` carry their operands as one dictionary entry, `symbol=code`, split at its last `=`
(R75, D21; log entry 3). -/

/-- The separator of a dictionary entry. -/
def equalsChar : Byte := 0x3D

/-- The entry split at its last `=`, if it holds one. -/
def splitAtLast : List Byte → Option (List Byte × List Byte)
  | [] => none
  | b :: rest =>
    match splitAtLast rest with
    | some (symbol, code) => some (b :: symbol, code)
    | none => if b = equalsChar then some ([], rest) else none

/-- Symbol and code of an entry; an entry without `=` has an empty code, which the meaning refuses. -/
def splitEntry (entry : List Byte) : List Byte × List Byte := (splitAtLast entry).getD (entry, [])

/-! ### The decoder -/

/-- Why a request is no instruction; the step answers it as R207 says (log entry 4). -/
inductive DecodeError where
  /-- A request without an operation code. -/
  | noCode
  /-- "operation code is not one of the twelve" (R207). -/
  | unknownCode (code : Byte)
  /-- The operand bytes of a known operation do not have the length its operands take. -/
  | badOperands (op : OpCode)
deriving DecidableEq, Repr

/-- What the decoder answers. -/
inductive Decoded where
  | instr (i : Instr)
  | rejected (e : DecodeError)
deriving DecidableEq, Repr

/-- A 16-bit operand, most significant byte first (as R42 has every field of the stream). -/
def be16 (hi lo : Byte) : Word16 := hi ++ lo

/-- A 32-bit operand, most significant byte first. -/
def be32 (b3 b2 b1 b0 : Byte) : Word32 := b3 ++ b2 ++ b1 ++ b0

/-- A packet operand: exactly 188 bytes (R44). -/
def packet? (bytes : List Byte) : Option Packet := if h : bytes.length = 188 then some ⟨bytes, h⟩ else none

/-- The operands of an operation, from the bytes behind its code; `none` when their number does not fit. -/
def operands? : OpCode → List Byte → Option Instr
  | .reset, [] => some .reset
  | .statGet, [] => some .statGet
  | .pidSetType, [p1, p0, ty] => some (.pidSetType (be16 p1 p0) ty)
  | .pidGet, [p1, p0] => some (.pidGet (be16 p1 p0))
  | .pidSetLink, [p1, p0, c1, c0, e1, e0] => some (.pidSetLink (be16 p1 p0) (be16 c1 c0) (be16 e1 e0))
  | .tsFeed, bytes => (packet? bytes).map .tsFeed
  | .secTake, [p1, p0] => some (.secTake (be16 p1 p0))
  | .crcCalc, s3 :: s2 :: s1 :: s0 :: data => some (.crcCalc (be32 s3 s2 s1 s0) data)
  | .crcChk, data => some (.crcChk data)
  | .hufIns, entry => some (.hufIns (splitEntry entry).1 (splitEntry entry).2)
  | .hufVfy, entry => some (.hufVfy (splitEntry entry).1 (splitEntry entry).2)
  | .hufDec, data => some (.hufDec data)
  | _, _ => none

/-- The instruction of a request at the command port: an operation code, then its operands (R77). -/
def decodeCommand : List Byte → Decoded
  | [] => .rejected .noCode
  | code :: bytes =>
    match OpCode.ofByte? code with
    | none => .rejected (.unknownCode code)
    | some op =>
      match operands? op bytes with
      | some i => .instr i
      | none => .rejected (.badOperands op)

/-- The instruction of a request at the packet port: the row of R70 that handles the packet, with `types` the types
the PID table holds. A packet whose first byte is not 0x47 matches no row and goes to `TS.FEED`, whose step 1 rejects
it (R142). -/
def decodePacket (types : Pid → PidType) (bytes : List Byte) : Decoded :=
  match packet? bytes with
  | none => .rejected (.badOperands .tsFeed)
  | some p => if p.sync = 0x47 then .instr (rowOf (types p.pid) p) else .instr (.tsFeed p)

/-- The decoder. It reads the PID table's types, since R70 decides rows 5 to 7 from them. -/
def decode (types : Pid → PidType) (r : Request) : Decoded :=
  match r.port with
  | .command => decodeCommand r.bytes
  | .packet => decodePacket types r.bytes

/-! ### The encoder -/

/-- The two bytes of a 16-bit operand, most significant first. -/
def bytes16 (v : Word16) : List Byte := [v.extractLsb' 8 8, v.extractLsb' 0 8]

/-- The four bytes of a 32-bit operand, most significant first. -/
def bytes32 (v : Word32) : List Byte :=
  [v.extractLsb' 24 8, v.extractLsb' 16 8, v.extractLsb' 8 8, v.extractLsb' 0 8]

/-- A dictionary entry as R75 writes it: `symbol=code`. -/
def joinEntry (symbol code : List Byte) : List Byte := symbol ++ equalsChar :: code

/-- A request at the command port. -/
def command (op : OpCode) (operands : List Byte) : Request := ⟨.command, op.toByte :: operands⟩

/-- A request at the packet port. -/
def packetRequest (p : Packet) : Request := ⟨.packet, p.val⟩

/-- The encoder: the request that carries an instruction. -/
def encode : Instr → Request
  | .reset => command .reset []
  | .statGet => command .statGet []
  | .pidSetType pid ty => command .pidSetType (bytes16 pid ++ [ty])
  | .pidGet pid => command .pidGet (bytes16 pid)
  | .pidSetLink pid count ecm => command .pidSetLink (bytes16 pid ++ bytes16 count ++ bytes16 ecm)
  | .tsFeed pkt => command .tsFeed pkt.val
  | .secTake pid => command .secTake (bytes16 pid)
  | .crcCalc seed data => command .crcCalc (bytes32 seed ++ data)
  | .crcChk data => command .crcChk data
  | .hufIns symbol code => command .hufIns (joinEntry symbol code)
  | .hufVfy symbol code => command .hufVfy (joinEntry symbol code)
  | .hufDec data => command .hufDec data
  | .tsPat f body => packetRequest (mkPacket 0x0000 f body)
  | .tsCat f body => packetRequest (mkPacket 0x0001 f body)
  | .tsSdt11 f body => packetRequest (mkPacket 0x0011 f body)
  | .tsSdt12 f body => packetRequest (mkPacket 0x0012 f body)
  | .tsEpg30 low f body => packetRequest (mkPacket (epg30Pid low) f body)
  | .tsEpg40 low f body => packetRequest (mkPacket (epg40Pid low) f body)
  | .tsEpg60 low f body => packetRequest (mkPacket (epg60Pid low) f body)
  | .tsPmt pid f body => packetRequest (mkPacket pid f body)
  | .tsEcm pid f body => packetRequest (mkPacket pid f body)
  | .tsNone pid f body => packetRequest (mkPacket pid f body)

/-- The condition a row puts on the PID table beside the header bits (R70, rows 5 to 7); every other instruction puts
none. -/
def Instr.tableCondition (types : Pid → PidType) : Instr → Bool
  | .tsPmt pid _ _ => types pid == .pmt
  | .tsEcm pid _ _ => types pid == .caEcm
  | .tsNone pid _ _ => types pid != .pmt && types pid != .caEcm
  | .reset => true
  | .statGet => true
  | .pidSetType _ _ => true
  | .pidGet _ => true
  | .pidSetLink _ _ _ => true
  | .tsFeed _ => true
  | .secTake _ => true
  | .crcCalc _ _ => true
  | .crcChk _ => true
  | .hufIns _ _ => true
  | .hufVfy _ _ => true
  | .hufDec _ => true
  | .tsPat _ _ => true
  | .tsCat _ _ => true
  | .tsSdt11 _ _ => true
  | .tsSdt12 _ _ => true
  | .tsEpg30 _ _ _ => true
  | .tsEpg40 _ _ _ => true
  | .tsEpg60 _ _ _ => true

/-! ### Words of spec/opcode_table.json -/

/-- How many operand bytes the shortest request of an operation has. -/
def OpCode.operandBytes : OpCode → Nat
  | .reset => 0
  | .statGet => 0
  | .pidSetType => 3
  | .pidGet => 2
  | .pidSetLink => 6
  | .tsFeed => 188
  | .secTake => 2
  | .crcCalc => 4
  | .crcChk => 0
  | .hufIns => 0
  | .hufVfy => 0
  | .hufDec => 0

/-- The request whose bits are `w` as the table numbers them: an 8-bit operation code with operands of zeros, or a
32-bit header word (its most significant byte is the packet's first, R62) with a body of zeros. -/
def tableRequest (nbits w : Nat) : Request :=
  if nbits ≤ 8 then
    let code := BitVec.ofNat 8 w
    ⟨.command, code :: List.replicate (((OpCode.ofByte? code).map OpCode.operandBytes).getD 0) 0⟩
  else ⟨.packet, bytes32 (BitVec.ofNat 32 w) ++ List.replicate 184 0⟩

/-- The instruction the decoder reads from a word of the table, with the PID table as reset leaves it (every type
`NONE`, R30). -/
def decodeTableWord (nbits w : Nat) : Option Instr :=
  match decode (fun _ => .none) (tableRequest nbits w) with
  | .instr i => some i
  | .rejected _ => none

end Sys2Proof
end

