-- ==== Sys2Proof/Machine/Reassembler.lean ====
section
/-! DEFINITION. The per-PID section reassembler (spec/43_section_reassembler.md): the internal stages of `TS.FEED` on one
accumulator (`SEC.START`, `SEC.CONT`, `SEC.ABORT`, `SEC.EVAL`), and the meaning of `SEC.TAKE`. -/

namespace Sys2Proof.Machine

/-- `BUF_CAP` (R7, D3). -/
def bufCap : Nat := 0x1100

/-- `LEN_THRESHOLD` (R6). -/
def lenThreshold : Nat := 12

/-- What a stage does to the accumulator of the packet's PID: its new value, the flags it raises, its status. -/
structure SecEffect where
  acc : Acc
  flags : Word16
  status : Status
deriving DecidableEq, Repr

/-- `SEC.ABORT` (R173): drops the buffered bytes, forgets the target, `size <- 0`. -/
def secAbort : Acc where
  buffer := []
  bufferTarget := 0
  wholeSection := []

/-- The total length of the section that starts at `buffer[0]`, from its length field under the class's mask (R68). -/
def sectionTotal (c : SecClass) (buffer : List Byte) : Nat :=
  let hi : BitVec 12 := (buffer.getD 1 0 &&& 0x0F).setWidth 12
  let lo : BitVec 12 := (buffer.getD 2 0).setWidth 12
  (((hi <<< 8) ||| lo) &&& lenMask c).toNat + 3

/-- The target as `SEC.EVAL` finds it: the known one, or the one read once 12 bytes are buffered, or still 0 (R174). -/
def evalTarget (c : SecClass) (a : Acc) : Nat :=
  if a.bufferTarget = 0 ∧ lenThreshold ≤ a.bufferProgress then sectionTotal c a.buffer else a.bufferTarget

/-- `SEC.EVAL` (R174, R175): completion snapshots the section and moves the tail to offset 0 with its target unknown;
one completion at most (R176). -/
def secEval (c : SecClass) (a : Acc) : Acc × Status :=
  let t := evalTarget c a
  if t ≠ 0 ∧ t ≤ a.bufferProgress then
    ({ buffer := a.buffer.drop t, bufferTarget := 0, wholeSection := a.buffer.take t }, .fedComplete)
  else ({ a with bufferTarget := t }, .fed)

/-- The effect of an accepted payload: `SEC.EVAL`, no flag. -/
def secAccept (c : SecClass) (a : Acc) : SecEffect where
  acc := (secEval c a).1
  flags := 0
  status := (secEval c a).2

/-- The fail-closed effect: `SEC.ABORT`, one flag, its status (R171, R172, R252). -/
def secFail (f : ErrFlag) (st : Status) : SecEffect where
  acc := secAbort
  flags := f.mask
  status := st

/-- `SEC.START`: a packet with PUSI = 1 (R171). `pkt` is the packet's bytes. -/
def secStart (c : SecClass) (pkt : List Byte) (payloadStart : Nat) (a : Acc) : SecEffect :=
  if 188 ≤ payloadStart then secFail .bounds .errBounds
  else
    let secStart := payloadStart + 1 + (pkt.getD payloadStart 0).toNat
    if 188 < secStart then secFail .bounds .errBounds
    else secAccept c { a with buffer := pkt.drop secStart, bufferTarget := 0 }

/-- `SEC.CONT`: a packet with PUSI = 0 (R172). -/
def secCont (c : SecClass) (pkt : List Byte) (payloadStart : Nat) (discontinuity : Bool) (a : Acc) : SecEffect :=
  if discontinuity then { acc := secAbort, flags := 0, status := .abortedDiscontinuity }
  else if a.bufferProgress = 0 then { acc := a, flags := 0, status := .ignoredWaiting }
  else
    let payload := pkt.drop payloadStart
    if bufCap < a.bufferProgress + payload.length then secFail .overflow .errOverflow
    else secAccept c { a with buffer := a.buffer ++ payload }

/-- The accumulator after its section was taken: `size <- 0`, and for a single-shot class the tail is dropped
(R177, R178). -/
def accTaken (singleShot : Bool) (a : Acc) : Acc :=
  if singleShot then { buffer := [], bufferTarget := 0, wholeSection := [] } else { a with wholeSection := [] }

/-- `SEC.TAKE pid` (R177, R178, R179). -/
def execSecTake (pid : Word16) (s : State) : Host.Outcome State Fault Refusal :=
  s.unlessFatal fun s =>
    match pidOperand pid with
    | none => s.answer .eOperand
    | some p =>
      let e := s.entry p
      if e.acc.size = 0 then s.answer .notReady
      else
        let c := s.classOf p
        let bytes := e.acc.wholeSection
        let ok := crcValid bytes
        ((s.setEntry p { e with acc := accTaken c.singleShot e.acc }).raise (ErrFlag.crc.maskIf (!ok))).reply .ok
          (.sectionBytes
            { cls := c
              size := bytes.length
              bytes := bytes
              crcOk := ok
              deliver := ok || !c.crcEnforced Config.epgCrcEnforce })

end Sys2Proof.Machine
end

