-- ==== Sys2Proof/Machine/TsParser.lean ====
section
/-! DEFINITION. The TS packet header parser (spec/42_ts_parser.md): the steps of `TS.FEED` (R141 to R152) and its
meaning. -/

namespace Sys2Proof.Machine

/-- What an accepted packet does (steps 3 to 7): the new entry of its PID, the flags it raises, the status, and the
result fields. By R49 (a) it does nothing else. -/
structure FeedEffect where
  entry : PidEntry
  flags : Word16
  status : Status
  discontinuity : Bool
  payloadStart : Option Nat
deriving DecidableEq, Repr

/-- `discontinuity` of a packet with counter `cc` (R145). -/
def discontinuityOf (e : PidEntry) (cc : BitVec 4) : Bool := e.ccValid && (cc + 15 != e.lastCc)

/-- The entry after step 3: `present` set, the counter stored (R144, R145). -/
def entrySeen (e : PidEntry) (cc : BitVec 4) : PidEntry :=
  { e with present := true, ccValid := true, lastCc := cc }

/-- `payload_start` (R147): 4, or behind the adaptation field when `afc[1] = 1`; up to 260 before the bounds test. -/
def payloadStartOf (p : Packet) : Nat := if p.flags.afc.getLsbD 1 then 5 + (p.byte 4).toNat else 4

/-- Step 7 for the classes that are reassembled: `SEC.START` or `SEC.CONT` (R151). -/
def secFeed (c : SecClass) (p : Packet) (payloadStart : Nat) (disc : Bool) (a : Acc) : SecEffect :=
  if p.flags.pusi then secStart c p.val payloadStart a else secCont c p.val payloadStart disc a

/-- Steps 3 to 7 on the entry of the packet's PID, the packet being of class `cls` (R144 to R151). -/
def feedEntry (cls : PidClass) (p : Packet) (e : PidEntry) : FeedEffect :=
  let disc := discontinuityOf e p.flags.cc
  let seen := entrySeen e p.flags.cc
  let discMask := ErrFlag.disc.maskIf disc
  let start := payloadStartOf p
  if p.flags.sc ≠ 0 then
    ⟨{ seen with scramblingControl := p.flags.sc }, discMask, .droppedScrambled, disc, none⟩
  else if 188 < start then
    ⟨{ seen with acc := secAbort }, discMask ||| ErrFlag.bounds.mask, .errBounds, disc, none⟩
  else if p.flags.afc.getLsbD 0 = false then ⟨seen, discMask, .noPayload, disc, some start⟩
  else
    match cls with
    | .none => ⟨seen, discMask, .unrouted, disc, some start⟩
    | .ecm => ⟨seen, discMask, .ecmPassthrough, disc, some start⟩
    | .sec c =>
      let r := secFeed c p start disc seen.acc
      ⟨{ seen with acc := r.acc }, discMask ||| r.flags, r.status, disc, some start⟩

/-- The state after steps 3 to 7, with the result record of R140. -/
def feedAccepted (cls : PidClass) (p : Packet) (s : State) : State :=
  let r := feedEntry cls p (s.entry p.pid)
  ((s.setEntry p.pid r.entry).raise r.flags).reply r.status
    (.feed
      { pid := p.pid
        cls := cls
        discontinuity := r.discontinuity
        payloadStart := r.payloadStart
        sectionReady := r.entry.acc.size != 0 })

/-- `TS.FEED` of a packet of class `cls`: step 0, the refusals (R141); step 1, the sync byte (R142); step 2, the
transport error (R143); then steps 3 to 7. -/
def feedAs (cls : PidClass) (p : Packet) (s : State) : Host.Outcome State Fault Refusal :=
  s.unlessFatal fun s =>
    if s.pendingPid?.isSome then s.answer .refusedPending
    else if p.sync ≠ 0x47 then s.error .sync .errSync
    else if p.flags.tei then s.error .tei .errTei
    else feedAccepted cls p s

/-- `TS.FEED pkt` (R140, R152): the class is the dispatch's "evaluated on the state as it is during this operation"
(R149). -/
def execTsFeed (pkt : Packet) (s : State) : Host.Outcome State Fault Refusal := feedAs (s.classOf pkt.pid) pkt s

end Sys2Proof.Machine
end

