-- ==== Sys2Proof/Machine/Rows.lean ====
section
/-! DEFINITION. The dispatch rows of spec/opcode_table.json (spec/30_encoding.md R70): each is the `TS.FEED` of a packet
whose header the row matches, "applies after steps 1 to 6 (R142 to R148); class semantics in R150 and R151". Rows 1 to 4
fix the class by their header bits; rows 5 to 7 are decided by the PID table, and where the table does not meet a row's
condition the row that it meets handles the packet (R70: "the first that holds wins"; log entry 5). -/

namespace Sys2Proof.Machine

/-- Row `TS.PAT`. -/
def execTsPat (flags : TsFlags) (body : PacketBody) (s : State) : Host.Outcome State Fault Refusal :=
  feedAs (.sec .pat) (mkPacket 0x0000 flags body) s

/-- Row `TS.CAT`. -/
def execTsCat (flags : TsFlags) (body : PacketBody) (s : State) : Host.Outcome State Fault Refusal :=
  feedAs (.sec .cat) (mkPacket 0x0001 flags body) s

/-- Row `TS.SDT.11`. -/
def execTsSdt11 (flags : TsFlags) (body : PacketBody) (s : State) : Host.Outcome State Fault Refusal :=
  feedAs (.sec .sdt) (mkPacket 0x0011 flags body) s

/-- Row `TS.SDT.12`. -/
def execTsSdt12 (flags : TsFlags) (body : PacketBody) (s : State) : Host.Outcome State Fault Refusal :=
  feedAs (.sec .sdt) (mkPacket 0x0012 flags body) s

/-- Row `TS.EPG.30`. -/
def execTsEpg30 (low : BitVec 4) (flags : TsFlags) (body : PacketBody) (s : State) :
    Host.Outcome State Fault Refusal :=
  feedAs (.sec .epg) (mkPacket (epg30Pid low) flags body) s

/-- Row `TS.EPG.40`. -/
def execTsEpg40 (low : BitVec 5) (flags : TsFlags) (body : PacketBody) (s : State) :
    Host.Outcome State Fault Refusal :=
  feedAs (.sec .epg) (mkPacket (epg40Pid low) flags body) s

/-- Row `TS.EPG.60`. -/
def execTsEpg60 (low : BitVec 1) (flags : TsFlags) (body : PacketBody) (s : State) :
    Host.Outcome State Fault Refusal :=
  feedAs (.sec .epg) (mkPacket (epg60Pid low) flags body) s

/-- The class a table-driven row works under: its own where the row's condition holds, else that of the row that
applies (R70). -/
def rowClass (own : PidClass) (condition : Bool) (pid : Pid) (s : State) : PidClass :=
  if condition && !hasFixedRole pid then own else s.classOf pid

/-- Row `TS.PMT`: class `PMT` where the PID's type is `PMT` and no earlier row matches. -/
def execTsPmt (pid : Pid) (flags : TsFlags) (body : PacketBody) (s : State) : Host.Outcome State Fault Refusal :=
  feedAs (rowClass (.sec .pmt) ((s.entry pid).ty == .pmt) pid s) (mkPacket pid flags body) s

/-- Row `TS.ECM`: class `ECM` where the PID's type is `CA_ECM` and no earlier row matches. -/
def execTsEcm (pid : Pid) (flags : TsFlags) (body : PacketBody) (s : State) : Host.Outcome State Fault Refusal :=
  feedAs (rowClass .ecm ((s.entry pid).ty == .caEcm) pid s) (mkPacket pid flags body) s

/-- Row `TS.NONE`: class `NONE` where no earlier row matches. -/
def execTsNone (pid : Pid) (flags : TsFlags) (body : PacketBody) (s : State) : Host.Outcome State Fault Refusal :=
  feedAs (rowClass .none ((s.entry pid).ty != .pmt && (s.entry pid).ty != .caEcm) pid s) (mkPacket pid flags body) s

end Sys2Proof.Machine
end

