-- ==== Sys2Proof/Machine/Dispatch.lean ====
section
/-! DEFINITION. The dispatch: one arm per constructor of `Instr`, each one call of the instruction's meaning. -/

namespace Sys2Proof.Machine

/-- The meaning of every instruction (spec/30_encoding.md R70, R77). -/
def exec (i : Instr) (s : State) : Host.Outcome State Fault Refusal :=
  match i with
  -- the operations of R77
  | .reset => Sys2Proof.Machine.execReset s
  | .statGet => Sys2Proof.Machine.execStatGet s
  | .pidSetType pid ty => Sys2Proof.Machine.execPidSetType pid ty s
  | .pidGet pid => Sys2Proof.Machine.execPidGet pid s
  | .pidSetLink pid programCount pidForEcm => Sys2Proof.Machine.execPidSetLink pid programCount pidForEcm s
  | .tsFeed pkt => Sys2Proof.Machine.execTsFeed pkt s
  | .secTake pid => Sys2Proof.Machine.execSecTake pid s
  | .crcCalc seed data => Sys2Proof.Machine.execCrcCalc seed data s
  | .crcChk data => Sys2Proof.Machine.execCrcChk data s
  | .hufIns symbol code => Sys2Proof.Machine.execHufIns symbol code s
  | .hufVfy symbol code => Sys2Proof.Machine.execHufVfy symbol code s
  | .hufDec data => Sys2Proof.Machine.execHufDec data s
  -- the dispatch rows of R70
  | .tsPat flags body => Sys2Proof.Machine.execTsPat flags body s
  | .tsCat flags body => Sys2Proof.Machine.execTsCat flags body s
  | .tsSdt11 flags body => Sys2Proof.Machine.execTsSdt11 flags body s
  | .tsSdt12 flags body => Sys2Proof.Machine.execTsSdt12 flags body s
  | .tsEpg30 low flags body => Sys2Proof.Machine.execTsEpg30 low flags body s
  | .tsEpg40 low flags body => Sys2Proof.Machine.execTsEpg40 low flags body s
  | .tsEpg60 low flags body => Sys2Proof.Machine.execTsEpg60 low flags body s
  | .tsPmt pid flags body => Sys2Proof.Machine.execTsPmt pid flags body s
  | .tsEcm pid flags body => Sys2Proof.Machine.execTsEcm pid flags body s
  | .tsNone pid flags body => Sys2Proof.Machine.execTsNone pid flags body s

end Sys2Proof.Machine
end

