-- ==== Sys2Proof/Machine/Requests.lean ====
section
/-! DEFINITION. Taking a request from the host's queue and answering a request that is no instruction
(spec/44_host_ops.md R207; log entries 1, 3 and 4). -/

namespace Sys2Proof.Machine

/-- The registered types as the dispatch reads them (R51 (a), R70). -/
def State.types (s : State) (p : Pid) : PidType := (s.entry p).ty

/-- The state with the oldest request taken off the queue. -/
def State.take (s : State) : State := { s with requests := s.requests.tail }

/-- The operations that work in the `FATAL` state (R254). -/
def worksWhenFatal : OpCode → Bool
  | .reset => true
  | .statGet => true
  | .pidGet => true
  | .pidSetType => false
  | .pidSetLink => false
  | .tsFeed => false
  | .secTake => false
  | .crcCalc => false
  | .crcChk => false
  | .hufIns => false
  | .hufVfy => false
  | .hufDec => false

/-- The status of a request that is no instruction: "For an unknown code the refusal takes precedence over
`REFUSED_FATAL`; for a known code `REFUSED_FATAL` is tested first" (R207). -/
def rejectStatus (e : DecodeError) (fatal : Bool) : Status :=
  match e with
  | .noCode => .eOperand
  | .unknownCode _ => .eOperand
  | .badOperands op => if fatal && !worksWhenFatal op then .refusedFatal else .eOperand

/-- Answering such a request: it "changes no state, not even a flag" (R207). -/
def State.reject (s : State) (e : DecodeError) : State := s.answer (rejectStatus e s.fatal)

end Sys2Proof.Machine
end

