-- ==== Sys2Proof/Machine/Step.lean ====
section
/-! DEFINITION. One step of the block: it takes the oldest request and answers it (spec/20_memory.md R48); with no
request it waits and its state does not change (R47, spec/70_reset_and_hazards.md R271; log entry 1). -/

namespace Sys2Proof.Machine

/-- One step. -/
def step (s : State) : Host.Outcome State Fault Refusal :=
  match s.requests with
  | [] => .next s
  | r :: _ =>
    match decode s.types r with
    | .instr i => exec i s.take
    | .rejected e => .next (s.take.reject e)

/-- The state with one request put in front of the queue: the request whose bits are a word of spec/opcode_table.json,
every bit above `nbits` zero (log entries 1 and 3). -/
def State.withFetchWord (s : State) (nbits w : Nat) : State := { s with requests := tableRequest nbits w :: s.requests }

end Sys2Proof.Machine
end

