-- ==== Sys2Proof/Safety.lean ====
section
/-! DEFINITION. What the claims speak of: the invariants of the block (spec/10_state.md R20, R23, R25), what an
operation leaves alone, what a `TS.FEED` reports, a run of packets, and the Huffman decode said without a loop
(spec/41_huffman.md R118 to R122). -/

namespace Sys2Proof.Machine

/-! ### Invariants -/

/-- R20 (b), (c), (d) and the ranges of R18 and R19 for one accumulator; a completed section leaves the target
unknown (R174). -/
structure Acc.InRange (a : Acc) : Prop where
  progress : a.bufferProgress ≤ bufCap
  target : a.bufferTarget ≠ 0 → 3 ≤ a.bufferTarget ∧ a.bufferTarget ≤ 0x1002 ∧ a.bufferProgress < a.bufferTarget
  size : a.size ≠ 0 → 3 ≤ a.size ∧ a.size ≤ 0x1002 ∧ a.bufferTarget = 0

/-- One PID's entry: its accumulator is in range; a PID that was never seen is as reset left it but for what the host
wrote (R13, R16, R17, R20 (e)); a pending section's class is one that is reassembled (R177). -/
structure PidEntry.Sound (p : Pid) (e : PidEntry) : Prop where
  acc : e.acc.InRange
  seen : e.present = e.ccValid
  counter : e.ccValid = false → e.lastCc = 0
  unseen : e.present = false → e.acc = Acc.reset ∧ e.scramblingControl = 0
  pendingClass : e.acc.size ≠ 0 → ∃ c, classOf p e.ty = .sec c

/-- R20 over the whole table: every entry is sound, and "at most one PID has `size != 0`". -/
structure State.TableSound (s : State) : Prop where
  canonical : s.pidtab.wf
  entries : ∀ p, (s.entry p).Sound p
  onePending : ∀ p q, (s.entry p).acc.size ≠ 0 → (s.entry q).acc.size ≠ 0 → p = q

/-- R23: the root bears no value; child indices are in use and never name the root; every node but the root is the
child of exactly one node, which was made before it; values have lengths in `1 .. HUF_SYM_MAX`; the store is within its
capacity. -/
structure Trie.Sound (P : Config.HufParams) (t : Trie) : Prop where
  rootExists : 1 ≤ t.length
  capacity : t.length ≤ P.nodeCap
  rootValue : valueOf t 0 = none
  children : ∀ n b m, childOf t n b = some m → n < m ∧ m < t.length
  oneParent : ∀ n b n' b' m, childOf t n b = some m → childOf t n' b' = some m → n = n' ∧ b = b'
  parents : ∀ m, 1 ≤ m → m < t.length → ∃ n b, childOf t n b = some m
  values : ∀ n v, valueOf t n = some v → 1 ≤ v.length ∧ v.length ≤ P.symMax

/-- R25: bits 10 to 15 read as 0; R254: `FATAL` and `CAPACITY` are set together; R247: a decode's flags come with
`HUF_SEALED`. -/
structure State.FlagsSound (s : State) : Prop where
  reserved : ∀ k, 10 ≤ k → s.errflags.getLsbD k = false
  fatal : s.fatal = s.flag .capacity
  decoded : s.flag .hufCorrupt = true ∨ s.flag .hufOverflow = true → s.hufSealed = true

/-- The invariant of the block's reachable states. -/
structure State.Sound (s : State) : Prop where
  table : s.TableSound
  trie : s.trie.Sound Config.huf
  flags : s.FlagsSound

/-! ### What an operation leaves alone -/

/-- Nothing but entry `p` of the PID table, the flags and the replies differ. -/
structure State.SameButEntry (s t : State) (p : Pid) : Prop where
  others : ∀ q, q ≠ p → t.entry q = s.entry q
  trie : t.trie = s.trie
  hufSealed : t.hufSealed = s.hufSealed
  fatal : t.fatal = s.fatal
  requests : t.requests = s.requests

/-! ### Requests -/

/-- Whether `n` operand bytes are a number that the operation does not take, in the model's layout of a request (log
entry 3). -/
def WrongLength (n : Nat) : OpCode → Prop
  | .reset => n ≠ 0
  | .statGet => n ≠ 0
  | .pidSetType => n ≠ 3
  | .pidGet => n ≠ 2
  | .pidSetLink => n ≠ 6
  | .tsFeed => n ≠ 188
  | .secTake => n ≠ 2
  | .crcCalc => n < 4
  | .crcChk => False
  | .hufIns => False
  | .hufVfy => False
  | .hufDec => False

/-! ### Packets -/

/-- A `TS.FEED` is not refused at step 0 (R141). -/
def State.Accepting (s : State) : Prop := s.fatal = false ∧ s.pendingPid? = none

/-- What an accepted packet leaves: the entry of its PID, the flags, one reply with the fields of R140, and nothing
else (R49 (a), R152). -/
structure FedTo (s : State) (p : Packet) (cls : PidClass) (e : PidEntry) (flags : Word16) (st : Status)
    (start : Option Nat) (t : State) : Prop where
  entry : t.entry p.pid = e
  rest : s.SameButEntry t p.pid
  flags : t.errflags = s.errflags ||| flags
  reply : t.replies = ⟨st, .feed
      { pid := p.pid
        cls := cls
        discontinuity := discontinuityOf (s.entry p.pid) p.flags.cc
        payloadStart := start
        sectionReady := e.acc.size != 0 }⟩ :: s.replies

/-- `TS.FEED` of one packet after another. -/
def feedAll : List Packet → State → Host.Outcome State Fault Refusal
  | [], s => .next s
  | p :: rest, s =>
    match exec (.tsFeed p) s with
    | .next t => feedAll rest t
    | .fault r => .fault r
    | .refused r => .refused r

/-- A packet that reaches the reassembler: sync byte, no transport error, clear, with a payload inside the packet
(R142 to R148). -/
structure CarriesPayload (p : Packet) : Prop where
  sync : p.sync = 0x47
  tei : p.flags.tei = false
  clear : p.flags.sc = 0
  hasPayload : p.flags.afc.getLsbD 0 = true
  inside : payloadStartOf p ≤ 188

/-- The payload bytes of a packet (R65). -/
def payloadOf (p : Packet) : List Byte := p.val.drop (payloadStartOf p)

/-! ### The Huffman decode without a loop -/

/-- The code bits of an input: all but the first two (R76). -/
def codeStream (data : List Byte) : List Bool :=
  (data.flatMap fun b => [7, 6, 5, 4, 3, 2, 1, 0].map fun i => b.getLsbD i).drop 2

/-- What a decode produces. -/
structure DecodeResult where
  text : List Byte
  trace : List Byte
  corrupt : Bool
  overflow : Bool
deriving DecidableEq, Repr

/-- The result of the loop of R123. -/
def HufRun.result (d : HufRun) : DecodeResult := ⟨d.text, d.trace, d.corrupt, d.overflow⟩

/-- The decode by recursion on the bits not yet read: `unit` is the stream from the start of the unit being read,
`lastOk` from the start of the last unit decoded (R118 to R122, R125). -/
def decodeBits (P : Config.HufParams) (t : Trie) :
    List Bool → Nat → List Bool → List Bool → List Byte → DecodeResult
  | [], _, _, _, text => ⟨text, [], false, false⟩
  | b :: rest, node, unit, lastOk, text =>
    match childOf t node b with
    | none =>
      if P.textCap < text.length + P.token.length then ⟨text, [], false, true⟩
      else
        let from_ := match P.resync with
          | .lastOkUnitStart => lastOk
          | .failedUnitStart => unit
        ⟨text ++ P.token, from_.map traceDigit, true, false⟩
    | some m =>
      match valueOf t m with
      | none => decodeBits P t rest m unit lastOk text
      | some v =>
        if P.textCap < text.length + v.length then ⟨text, [], false, true⟩
        else decodeBits P t rest 0 rest unit (text ++ v)

end Sys2Proof.Machine
end

