-- ==== Sys2Proof/Certificates/Slice0/Obligations.lean ====
section
/-! DEFINITION. The statements for the provers, in the order of OBLIGATIONS.json. Each docstring names the rules of
spec/ that the statement formalises, and says where a clause is the model's own choice. -/

open Sys2Proof Sys2Proof.Machine

/-! ### Encodings -/

/-- Sample words of spec/30_encoding.md R77 and of the header table of spec/95_test_vectors.md section 4, as decoded. The
operand bytes behind the codes are the model's layout (log entry 3). -/
def Obligations.SampleWordsDecode : Prop :=
  decodeTableWord 8 0x01 = some .reset
    ∧ decodeTableWord 8 0x21 = some (.secTake 0)
    ∧ decodeTableWord 8 0x42 = some (.hufDec [])
    ∧ decode (fun _ => .none) ⟨.command, [0x10, 0x01, 0x00, 0x02]⟩ = .instr (.pidSetType 0x0100 0x02)
    ∧ decode (fun _ => .none) ⟨.command, [0x40, 0x41, 0x3D, 0x30, 0x31, 0x30]⟩
        = .instr (.hufIns [0x41] [0x30, 0x31, 0x30])
    ∧ decodeTableWord 32 0x47603037
        = some (.tsEpg30 0 ⟨false, true, true, 0, 3, 7⟩ ⟨List.replicate 184 0, List.length_replicate⟩)
    ∧ decodeTableWord 32 0x475FFEFF
        = some (.tsNone 0x1FFE ⟨false, true, false, 3, 3, 15⟩ ⟨List.replicate 184 0, List.length_replicate⟩)
    ∧ decode (fun _ => .none) ⟨.command, [0x7F]⟩ = .rejected (.unknownCode 0x7F)

/-- R62 and R63: every header field is the slice of the big-endian header word that the table of R62 gives it, the PID is
`(pkt[1][4:0] << 8) | pkt[2]`, and `transport_priority` is never used. -/
def Obligations.HeaderFieldsAreSlices : Prop :=
  (∀ p : Packet,
    p.sync = p.header.extractLsb' 24 8
      ∧ p.flags.tei = p.header.getLsbD 23
      ∧ p.flags.pusi = p.header.getLsbD 22
      ∧ p.flags.tp = p.header.getLsbD 21
      ∧ p.pid = p.header.extractLsb' 8 13
      ∧ p.flags.sc = p.header.extractLsb' 6 2
      ∧ p.flags.afc = p.header.extractLsb' 4 2
      ∧ p.flags.cc = p.header.extractLsb' 0 4
      ∧ p.header.toNat
          = (p.byte 0).toNat * 2 ^ 24 + (p.byte 1).toNat * 2 ^ 16 + (p.byte 2).toNat * 2 ^ 8 + (p.byte 3).toNat
      ∧ p.pid.toNat = (p.byte 1).toNat % 32 * 256 + (p.byte 2).toNat)
  ∧ ∀ (pid : Pid) (f : TsFlags) (tp : Bool) (body : PacketBody) (s : State),
      exec (.tsFeed (mkPacket pid { f with tp := tp } body)) s = exec (.tsFeed (mkPacket pid f body)) s

/-- R70: the dispatch, row by row, in the match and mask columns of its table: the first row that holds gives the
class. -/
def Obligations.DispatchFollowsMatchAndMask : Prop :=
  ∀ (p : Packet) (ty : PidType), p.sync = 0x47 →
    classOf p.pid ty =
      if p.header &&& 0xFF1FFF00 = 0x47000000 then .sec .pat
      else if p.header &&& 0xFF1FFF00 = 0x47000100 then .sec .cat
      else if p.header &&& 0xFF1FFF00 = 0x47001100 then .sec .sdt
      else if p.header &&& 0xFF1FFF00 = 0x47001200 then .sec .sdt
      else if p.header &&& 0xFF1FF000 = 0x47003000 then .sec .epg
      else if p.header &&& 0xFF1FE000 = 0x47004000 then .sec .epg
      else if p.header &&& 0xFF1FFE00 = 0x47006000 then .sec .epg
      else if ty = .pmt then .sec .pmt
      else if ty = .caEcm then .ecm
      else .none

/-- Decoding what the encoder writes gives the instruction back, for every well-formed instruction and every PID table
that meets the instruction's row condition (R70 rows 5 to 7). -/
def Obligations.DecodeOfEncode : Prop :=
  ∀ (types : Pid → PidType) (i : Instr), i.wellFormed = true → i.tableCondition types = true →
    decode types (encode i) = .instr i

/-- The other direction: a well-formed instruction has one request at each port. A packet at the packet port whose sync
byte is wrong decodes to `TS.FEED`, whose own request is at the command port, so it is left out. -/
def Obligations.EncodeOfDecode : Prop :=
  ∀ (types : Pid → PidType) (r : Request) (i : Instr), decode types r = .instr i → i.wellFormed = true →
    (r.port = .packet → r.bytes.head? = some 0x47) → encode i = r

/-- R78, R79 and R14: the codes of the statuses, of the classes and of the types, each in the order of its table; no two
names share a code, and no type has a code above 12. -/
def Obligations.ResultCodes : Prop :=
  [Status.ok, .refusedFatal, .refusedPending, .eOperand].map Status.code = [0x00, 0x01, 0x02, 0x04]
    ∧ [Status.fed, .fedComplete, .ignoredWaiting, .abortedDiscontinuity, .noPayload, .droppedScrambled, .unrouted,
        .ecmPassthrough, .errSync, .errTei, .errBounds, .errOverflow].map Status.code
        = [0x10, 0x11, 0x12, 0x13, 0x14, 0x15, 0x16, 0x17, 0x18, 0x19, 0x1A, 0x1B]
    ∧ [Status.notReady, .hufCorrupt, .hufOverflow, .eSealed, .eFormat, .eCapacity, .vfyMatch, .vfyMismatch,
        .vfyMissing].map Status.code = [0x21, 0x31, 0x32, 0x33, 0x34, 0x35, 0x36, 0x37, 0x38]
    ∧ [PidClass.none, .sec .pat, .sec .cat, .sec .sdt, .sec .epg, .sec .pmt, .ecm].map PidClass.code
        = [0, 1, 2, 3, 4, 5, 6]
    ∧ (∀ a b : Status, a.code = b.code → a = b) ∧ (∀ a b : PidClass, a.code = b.code → a = b)
    ∧ (List.range 13).map (fun k => typeOperand (BitVec.ofNat 8 k))
        = [some .none, some .pat, some .pmt, some .caEcm, some .caEmm, some .nit, some .audioMpeg, some .audioAc3,
          some .videoMpeg2, some .videoH264, some .privSect, some .privPes, some .unknown]
    ∧ ∀ b : Byte, 12 < b.toNat → typeOperand b = none

/-! ### Steps -/

/-- A step runs the instruction that the oldest request decodes to, on the state with that request taken off. -/
def Obligations.StepRunsDecodedInstruction : Prop :=
  ∀ (s : State) (r : Request) (rest : List Request) (i : Instr), s.requests = r :: rest → decode s.types r = .instr i →
    step s = exec i { s with requests := rest }

/-- R47 and R271 as the model reads them (log entry 1): with no request a step changes nothing. -/
def Obligations.StepWithoutRequestWaits : Prop := ∀ s : State, s.requests = [] → step s = .next s

/-- R251 "One operation reports one status": every instruction, in every state, gives a next state with exactly one more
reply and the same queue; and a step always gives a next state (R240: no traps). That the replies form a list which
grows on top of the earlier ones, and that the queue is a list which stays, are the model's choices, for `RESET` too
(log entries 1 and 2). -/
def Obligations.EveryOperationRepliesOnce : Prop :=
  (∀ (i : Instr) (s : State), ∃ t r, exec i s = .next t ∧ t.replies = r :: s.replies ∧ t.requests = s.requests)
  ∧ ∀ s : State, ∃ t, step s = .next t

/-- R207: an unknown code, a PID above 0x1FFF, a type above 12 and an over-long `HUF.DEC` input are refused with
`E_OPERAND`, with no change but the reply; the unknown code before `REFUSED_FATAL`, the others after it (`PID.GET` works
in the `FATAL` state, R203). That R207 covers the requests whose bytes are no operation with its operands is the model's
reading (log entry 4, on the layout and the ports of log entries 3 and 5): a request without a byte as one with an
unknown code, and a request of a wrong length as one with an operand out of range, after `REFUSED_FATAL` where the
operation is refused in the `FATAL` state. -/
def Obligations.IllegalRequestsAreRefused : Prop :=
  (∀ (s : State) (code : Byte) (bytes : List Byte) (rest : List Request),
      (∀ op : OpCode, op.toByte ≠ code) → s.requests = ⟨.command, code :: bytes⟩ :: rest →
      step s = .next ({ s with requests := rest }.answer .eOperand))
  ∧ (∀ (s : State) (rest : List Request), s.requests = ⟨.command, []⟩ :: rest →
      step s = .next ({ s with requests := rest }.answer .eOperand))
  ∧ (∀ (s : State) (op : OpCode) (bytes : List Byte) (rest : List Request),
      WrongLength bytes.length op → s.requests = ⟨.command, op.toByte :: bytes⟩ :: rest →
      step s = .next ({ s with requests := rest }.answer
        (if s.fatal ∧ op ≠ OpCode.reset ∧ op ≠ OpCode.statGet ∧ op ≠ OpCode.pidGet then .refusedFatal else .eOperand)))
  ∧ (∀ (s : State) (bytes : List Byte) (rest : List Request),
      bytes.length ≠ 188 → s.requests = ⟨.packet, bytes⟩ :: rest →
      step s = .next ({ s with requests := rest }.answer (if s.fatal then .refusedFatal else .eOperand)))
  ∧ (∀ (s : State) (pid a b : Word16) (ty : Byte), 0x1FFF < pid.toNat →
      exec (.pidGet pid) s = .next (s.answer .eOperand)
      ∧ exec (.pidSetType pid ty) s = .next (s.answer (if s.fatal then .refusedFatal else .eOperand))
      ∧ exec (.pidSetLink pid a b) s = .next (s.answer (if s.fatal then .refusedFatal else .eOperand))
      ∧ exec (.secTake pid) s = .next (s.answer (if s.fatal then .refusedFatal else .eOperand)))
  ∧ (∀ (s : State) (pid : Word16) (ty : Byte), 12 < ty.toNat →
      exec (.pidSetType pid ty) s = .next (s.answer (if s.fatal then .refusedFatal else .eOperand)))
  ∧ ∀ (s : State) (data : List Byte), Config.huf.inMax < data.length →
      exec (.hufDec data) s = .next (s.answer (if s.fatal then .refusedFatal else .eOperand))

/-! ### Reset, status, the PID table -/

/-- R30: the reset state, value by value; the CRC table is the constant of R90. The clause that the table's list is in
canonical form is the model's, not R30's (log entry 7). -/
def Obligations.ResetStateValues : Prop :=
  (∀ p : Pid,
    let e := State.reset.entry p
    e.present = false ∧ e.ty = .none ∧ e.programCount = 0xFFFF ∧ e.pidForEcm = 0xFFFF ∧ e.ccValid = false
      ∧ e.lastCc = 0 ∧ e.scramblingControl = 0 ∧ e.acc.bufferProgress = 0 ∧ e.acc.bufferTarget = 0 ∧ e.acc.size = 0)
  ∧ State.reset.trie.length = 1 ∧ valueOf State.reset.trie 0 = none
  ∧ (∀ b, childOf State.reset.trie 0 b = none)
  ∧ State.reset.hufSealed = false ∧ State.reset.errflags = 0 ∧ State.reset.fatal = false
  ∧ State.reset.pidtab.wf
  ∧ ∀ i : Byte, crcTable[i.toNat]? = some (crcTableEntry i)

/-- R205: `RESET` completes in every state, the `FATAL` one included, leaves the whole reset state and answers `OK`; and
it "is the only operation that clears `FATAL`, `HUF_SEALED`, a sticky flag, `present`, `cc_valid` or the scrambling
latch". That the queue and the earlier replies stay is the model's choice (log entries 1 and 2). -/
def Obligations.ResetAloneClears : Prop :=
  (∀ s : State, exec .reset s
    = .next { State.reset with requests := s.requests, replies := ⟨.ok, .noFields⟩ :: s.replies })
  ∧ ∀ (i : Instr) (s t : State), i ≠ .reset → exec i s = .next t →
      (s.fatal = true → t.fatal = true)
      ∧ (s.hufSealed = true → t.hufSealed = true)
      ∧ (∀ k, s.errflags.getLsbD k = true → t.errflags.getLsbD k = true)
      ∧ ∀ p, ((s.entry p).present = true → (t.entry p).present = true)
          ∧ ((s.entry p).ccValid = true → (t.entry p).ccValid = true)
          ∧ ((s.entry p).scramblingControl ≠ 0 → (t.entry p).scramblingControl ≠ 0)

/-- R204: `STAT.GET` completes in every state with a canonical table, reports the global state, changes nothing;
`pending` is whether some PID holds a completed section and `pending_pid` is such a PID, 0 when there is none. -/
def Obligations.StatGetReports : Prop :=
  ∀ s : State, s.pidtab.wf →
    ∃ r : StatReport, exec .statGet s = .next { s with replies := ⟨.ok, .stat r⟩ :: s.replies }
      ∧ r.errflags = s.errflags ∧ r.fatal = s.fatal ∧ r.sealBit = s.hufSealed ∧ r.count = s.trie.length
      ∧ (r.pending = true ↔ ∃ q, (s.entry q).acc.size ≠ 0)
      ∧ (r.pending = true → (s.entry r.pendingPid).acc.size ≠ 0)
      ∧ (r.pending = false → r.pendingPid = 0)

/-- R201: `PID.SETTYPE` writes the `type` of one entry, to the type with the given code, and nothing else; it is refused
in the `FATAL` state, for codes above 12, and for a PID with a pending section, in this order. -/
def Obligations.PidSetTypeWritesType : Prop :=
  ∀ (s : State) (p : Pid) (ty : Byte),
    (s.fatal = true → exec (.pidSetType (p.setWidth 16) ty) s = .next (s.answer .refusedFatal))
    ∧ (s.fatal = false → 12 < ty.toNat → exec (.pidSetType (p.setWidth 16) ty) s = .next (s.answer .eOperand))
    ∧ (s.fatal = false → ty.toNat ≤ 12 → (s.entry p).acc.size ≠ 0 →
        exec (.pidSetType (p.setWidth 16) ty) s = .next (s.answer .refusedPending))
    ∧ (s.fatal = false → ty.toNat ≤ 12 → (s.entry p).acc.size = 0 →
        ∃ t, exec (.pidSetType (p.setWidth 16) ty) s = .next t
          ∧ (typeCode (t.entry p).ty).toNat = ty.toNat
          ∧ t.entry p = { s.entry p with ty := (t.entry p).ty }
          ∧ s.SameButEntry t p ∧ t.errflags = s.errflags
          ∧ t.replies = ⟨.ok, .noFields⟩ :: s.replies)

/-- R202: `PID.SETLINK` writes the two link words of one entry, whatever they are, and nothing else; only the `FATAL`
state refuses it. -/
def Obligations.PidSetLinkWritesLinks : Prop :=
  ∀ (s : State) (p : Pid) (count ecm : Word16),
    (s.fatal = true → exec (.pidSetLink (p.setWidth 16) count ecm) s = .next (s.answer .refusedFatal))
    ∧ (s.fatal = false →
        ∃ t, exec (.pidSetLink (p.setWidth 16) count ecm) s = .next t
          ∧ t.entry p = { s.entry p with programCount := count, pidForEcm := ecm }
          ∧ s.SameButEntry t p ∧ t.errflags = s.errflags
          ∧ t.replies = ⟨.ok, .noFields⟩ :: s.replies)

/-- R203: `PID.GET` completes in every state, the `FATAL` one included, reports every scalar field of the entry and the
class, and changes nothing. -/
def Obligations.PidGetReports : Prop :=
  ∀ (s : State) (p : Pid),
    ∃ r : PidReport, exec (.pidGet (p.setWidth 16)) s = .next { s with replies := ⟨.ok, .entry r⟩ :: s.replies }
      ∧ r.present = (s.entry p).present ∧ r.ty = (s.entry p).ty
      ∧ r.programCount = (s.entry p).programCount ∧ r.pidForEcm = (s.entry p).pidForEcm
      ∧ r.ccValid = (s.entry p).ccValid ∧ r.lastCc = (s.entry p).lastCc
      ∧ r.scramblingControl = (s.entry p).scramblingControl
      ∧ r.bufferProgress = (s.entry p).acc.buffer.length ∧ r.bufferTarget = (s.entry p).acc.bufferTarget
      ∧ r.size = (s.entry p).acc.wholeSection.length ∧ r.cls = classOf p (s.entry p).ty

/-- R26: `FATAL` is 0 after reset, is set by a `HUF.INS` that finds the trie store exhausted and by nothing else, stays
set until reset, and while it is set every operation but `RESET`, `STAT.GET` and `PID.GET` is refused and changes
nothing. -/
def Obligations.FatalStateRefuses : Prop :=
  State.reset.fatal = false
  ∧ (∀ (i : Instr) (s t : State), exec i s = .next t → s.fatal = false → t.fatal = true →
    ∃ symbol code, i = .hufIns symbol code
      ∧ Config.huf.nodeCap < s.trie.length + missingNodes s.trie 0 (codeBits code))
  ∧ (∀ (i : Instr) (s t : State), exec i s = .next t → s.fatal = true → i ≠ .reset → t.fatal = true)
  ∧ ∀ (i : Instr) (s : State), s.fatal = true → i ≠ .reset → i ≠ .statGet → (∀ pid, i ≠ .pidGet pid) →
      exec i s = .next (s.answer .refusedFatal)

/-! ### The CRC unit -/

/-- R90: the ROM holds, at every index, what the recurrence of R90 computes, and has 256 entries. -/
def Obligations.CrcTableIsRecurrence : Prop :=
  crcTable.length = 256 ∧ ∀ i : Byte, crcTable[i.toNat]? = some (crcTableEntry i)

/-- R92: the update indexes the table by the register's top byte and the data byte, and equals "eight steps of the
bit-serial form", for every register value and byte. -/
def Obligations.CrcStepIsBitSerial : Prop :=
  ∀ (crc : Word32) (b : Byte),
    crcStep crc b = (crc <<< 8) ^^^ crcTable.getD ((crc >>> 24).toNat ^^^ b.toNat) 0
    ∧ crcStep crc b = crcStepSerial crc b

/-- R94 with R93: `CRC.CALC` returns the register after one update per byte, first byte first, starting from the seed; it
writes no state and no flag. -/
def Obligations.CrcCalcReturnsCrc : Prop :=
  (∀ (s : State) (seed : Word32) (data : List Byte),
    (s.fatal = true → exec (.crcCalc seed data) s = .next (s.answer .refusedFatal))
    ∧ (s.fatal = false → exec (.crcCalc seed data) s
        = .next { s with replies := ⟨.ok, .crcValue (crc32 data seed)⟩ :: s.replies }))
  ∧ (∀ seed, crc32 [] seed = seed)
  ∧ ∀ seed b data, crc32 (b :: data) seed
      = crc32 data ((seed <<< 8) ^^^ crcTable.getD ((seed >>> 24).toNat ^^^ b.toNat) 0)

/-- R96 with R95: `CRC.CHK` answers 1 exactly when the data is a body followed by the four bytes of the body's CRC, most
significant first; below 4 bytes it answers 0; it writes no state and no flag. -/
def Obligations.CrcChkChecksTrailer : Prop :=
  ∀ (s : State) (data : List Byte),
    (s.fatal = true → exec (.crcChk data) s = .next (s.answer .refusedFatal))
    ∧ (s.fatal = false → ∃ ok : Bool, exec (.crcChk data) s
        = .next { s with replies := ⟨.ok, .crcCheck ok⟩ :: s.replies }
      ∧ (ok = true ↔ ∃ (body : List Byte) (b3 b2 b1 b0 : Byte), data = body ++ [b3, b2, b1, b0]
          ∧ crc32 body 0xFFFFFFFF = b3 ++ b2 ++ b1 ++ b0))

/-- R95: "For `L >= 4`, `crc_valid(s)` holds exactly when `crc32(s, 0xFFFFFFFF) = 0`". -/
def Obligations.CrcValidIffResidueZero : Prop :=
  ∀ data : List Byte, 4 ≤ data.length → (crcValid data = true ↔ crc32 data 0xFFFFFFFF = 0)

/-- R97 (b), (c), (d), (f): empty string, chaining, linearity over GF(2), and the table as one-byte CRCs. -/
def Obligations.CrcIsLinear : Prop :=
  (∀ seed, crc32 [] seed = seed)
  ∧ (∀ a b seed, crc32 (a ++ b) seed = crc32 b (crc32 a seed))
  ∧ (∀ (a b : List Byte) (x y : Word32), a.length = b.length →
      crc32 (List.zipWith (· ^^^ ·) a b) (x ^^^ y) = crc32 a x ^^^ crc32 b y)
  ∧ (∀ n, crc32 (List.replicate n 0) 0 = 0)
  ∧ ∀ i : Byte, crcTable[i.toNat]? = some (crc32 [i] 0)

/-- R97 (e): a single-bit change in a valid section makes `crc_valid` false. -/
def Obligations.SingleBitFlipIsDetected : Prop :=
  ∀ (data : List Byte) (k : Nat) (bit : Fin 8), k < data.length → crcValid data = true →
    crcValid (data.set k (data.getD k 0 ^^^ (1#8 <<< bit.val))) = false

/-! ### The Huffman unit -/

/-- R113: the tests of `HUF.INS` in their order, and what each leaves: a refusal or format error keeps the trie; exhaustion
keeps it too and sets `FATAL` and `CAPACITY`; otherwise the nodes the path lacked are created and the status is `OK`.
What the new trie holds is the subject of the next two statements. -/
def Obligations.HufInsOutcome : Prop :=
  ∀ (s : State) (symbol code : List Byte),
    let lacking := missingNodes s.trie 0 (codeBits code)
    ∃ t, exec (.hufIns symbol code) s = .next t
      ∧ if s.fatal = true then t = s.answer .refusedFatal
        else if s.hufSealed = true then t = s.answer .eSealed
        else if symbol.length = 0 ∨ Config.huf.symMax < symbol.length ∨ code.length = 0
            ∨ Config.huf.codeMax < code.length ∨ (∃ c ∈ code, c ≠ 0x30 ∧ c ≠ 0x31) then
          t = { s with errflags := s.errflags ||| 0x0080, replies := ⟨.eFormat, .noFields⟩ :: s.replies }
        else if Config.huf.nodeCap < s.trie.length + lacking then
          t = { s with errflags := s.errflags ||| 0x0100, fatal := true,
                       replies := ⟨.eCapacity, .noFields⟩ :: s.replies }
        else
          t.trie.length = s.trie.length + lacking
          ∧ t = { s with trie := t.trie, replies := ⟨.ok, .noFields⟩ :: s.replies }

/-- R113, the insertion, for every choice of the unit's parameters: after a `HUF.INS` that answered `OK`, the code's bits
lead from the root to a node that bears the symbol, and `HUF.VFY` of the same entry answers `VFY_MATCH` (R114 (a): also
when the code bore another symbol). The two operations are `hufInsert` and `hufVerify` under the block's own parameters,
outside the `FATAL` state. -/
def Obligations.HufInsThenVfyMatches : Prop :=
  (∀ (P : Config.HufParams) (s t : State) (symbol code : List Byte), s.trie.Sound P →
    hufInsert P symbol code s = t → t.replies.head? = some ⟨.ok, .noFields⟩ →
    (∃ n, walkFrom t.trie 0 (codeBits code) = some n ∧ valueOf t.trie n = some symbol)
    ∧ hufVerify P symbol code t = t.answer .vfyMatch)
  ∧ ∀ (s : State) (symbol code : List Byte), s.fatal = false →
    exec (.hufIns symbol code) s = .next (hufInsert Config.huf symbol code s)
    ∧ exec (.hufVfy symbol code) s = .next (hufVerify Config.huf symbol code s)

/-- R113, R114, for every choice of the unit's parameters: an insertion changes the value of no other path, and every path
that existed still leads to the same node. -/
def Obligations.HufInsKeepsOtherPaths : Prop :=
  ∀ (P : Config.HufParams) (s t : State) (symbol code : List Byte), s.trie.Sound P →
    hufInsert P symbol code s = t → ∀ bits : List Bool,
      (bits ≠ codeBits code →
        (walkFrom t.trie 0 bits).bind (valueOf t.trie) = (walkFrom s.trie 0 bits).bind (valueOf s.trie))
      ∧ ((walkFrom s.trie 0 bits).isSome = true → walkFrom t.trie 0 bits = walkFrom s.trie 0 bits)

/-- R115: `HUF.VFY` by cases: `FATAL`, format, missing path, the stored value equal, anything else; it writes only
`ERRFLAGS.HUF_DICT`, on every result but `VFY_MATCH`. -/
def Obligations.HufVfyComparesEntry : Prop :=
  ∀ (s : State) (symbol code : List Byte),
    let dictError (st : Status) : State :=
      { s with errflags := s.errflags ||| 0x0080, replies := ⟨st, .noFields⟩ :: s.replies }
    exec (.hufVfy symbol code) s = .next
      (if s.fatal = true then s.answer .refusedFatal
      else if symbol.length = 0 ∨ Config.huf.symMax < symbol.length ∨ code.length = 0
          ∨ Config.huf.codeMax < code.length ∨ (code.any fun c => c != 0x30 && c != 0x31) = true then
        dictError .eFormat
      else match walkFrom s.trie 0 (codeBits code) with
        | none => dictError .vfyMissing
        | some n => if valueOf s.trie n = some symbol then s.answer .vfyMatch else dictError .vfyMismatch)

/-- R117, R123 around the loop: `HUF.DEC` of an input within `HUF_IN_MAX` seals the trie, raises `HUF_CORRUPT` and
`HUF_OVERFLOW` as its run ended, returns text and trace with their lengths, and changes nothing else. -/
def Obligations.HufDecOutcome : Prop :=
  ∀ (s : State) (data : List Byte),
    (s.fatal = true → exec (.hufDec data) s = .next (s.answer .refusedFatal))
    ∧ (s.fatal = false → data.length ≤ Config.huf.inMax →
        let d := hufDecode Config.huf s.trie data
        exec (.hufDec data) s = .next
          { s with
            hufSealed := true
            errflags := s.errflags ||| (if d.corrupt then 0x0040 else 0) ||| (if d.overflow then 0x0200 else 0)
            replies := ⟨if d.overflow then .hufOverflow else if d.corrupt then .hufCorrupt else .ok,
              .decoded ⟨d.text, d.text.length, d.trace, d.trace.length⟩⟩ :: s.replies })

/-- R118 to R122: the loop of R123 decodes as the rules say part by part: the stream starts at mask 0x20 of byte 0, bits
are taken most significant first, a valued node emits its text and ends the unit, a missing child emits the token and
turns the rest of the stream from the rewind point into the trace, bits left over at the end give nothing. For every
choice of the unit's parameters. -/
def Obligations.HufLoopDecodesBitStream : Prop :=
  ∀ (P : Config.HufParams) (t : Trie) (data : List Byte),
    (hufDecode P t data).result = decodeBits P t (codeStream data) 0 (codeStream data) (codeStream data) []

/-- R123: the loop ends; within `16n` turns `pos` has reached `8n` or the text has overflowed, so further turns change
nothing. -/
def Obligations.HufLoopEnds : Prop :=
  ∀ (P : Config.HufParams) (t : Trie) (data : List Byte),
    hufRunning data (hufDecode P t data) = false
    ∧ ∀ k, hufLoop P t data (16 * data.length + k) hufStart = hufDecode P t data

/-- R126 (a): the result does not depend on bits 7 and 6 of the first byte. -/
def Obligations.HufDecIgnoresTopBits : Prop :=
  ∀ (s : State) (b c : Byte) (rest : List Byte), b &&& 0x3F = c &&& 0x3F →
    exec (.hufDec (b :: rest)) s = exec (.hufDec (c :: rest)) s

/-- R126 (b), (c): the text is a concatenation of dictionary symbols followed by at most one token; without a corrupt
code the trace is empty; with one the text ends with the token and the trace is not empty. -/
def Obligations.HufTextAndTraceShape : Prop :=
  ∀ (P : Config.HufParams) (t : Trie) (data : List Byte),
    let d := hufDecode P t data
    (∃ symbols : List (List Byte), (∀ v ∈ symbols, ∃ n, valueOf t n = some v)
      ∧ d.text = symbols.flatten ++ (if d.corrupt then P.token else []))
    ∧ (d.corrupt = false → d.trace = [])
    ∧ (d.corrupt = true → d.trace ≠ [])

/-- R125: text never passes `HUF_TEXT_CAP` and trace never passes 8 bytes per input byte. -/
def Obligations.HufOutputWithinCapacity : Prop :=
  ∀ (P : Config.HufParams) (t : Trie) (data : List Byte),
    (hufDecode P t data).text.length ≤ P.textCap ∧ (hufDecode P t data).trace.length ≤ 8 * data.length

/-- R124: decoding the same input twice gives the same reply, and the second decode changes nothing but the replies. -/
def Obligations.HufDecIsIdempotent : Prop :=
  ∀ (s t u : State) (data : List Byte), exec (.hufDec data) s = .next t → exec (.hufDec data) t = .next u →
    u.replies.head? = t.replies.head? ∧ u = { t with replies := u.replies }

/-- R126 (d): with the empty trie every non-empty input gives the token alone and all its bits from the third on. -/
def Obligations.HufDecOnEmptyTrie : Prop :=
  ∀ (data : List Byte), data ≠ [] →
    (hufDecode Config.huf Trie.emptyDictionary data).result
      = ⟨Config.hufToken, (codeStream data).map traceDigit, true, false⟩
    ∧ (codeStream data).length = 8 * data.length - 2

/-! ### The TS parser -/

/-- R141: `TS.FEED` is refused in the `FATAL` state, and while any PID holds a completed section; neither changes any
state. -/
def Obligations.TsFeedRefusals : Prop :=
  ∀ (s : State) (p : Packet),
    (s.fatal = true → exec (.tsFeed p) s = .next (s.answer .refusedFatal))
    ∧ (s.fatal = false → (∃ q, (s.entry q).acc.size ≠ 0) → exec (.tsFeed p) s = .next (s.answer .refusedPending))

/-- R142, R143: a bad sync byte, else a set transport-error bit, ends the operation with its flag and its status and no
other change. -/
def Obligations.TsFeedFramingErrors : Prop :=
  ∀ (s : State) (p : Packet), s.Accepting →
    (p.byte 0 ≠ 0x47 → exec (.tsFeed p) s = .next
      { s with errflags := s.errflags ||| 0x0001, replies := ⟨.errSync, .noFields⟩ :: s.replies })
    ∧ (p.byte 0 = 0x47 → (p.byte 1).getLsbD 7 = true → exec (.tsFeed p) s = .next
      { s with errflags := s.errflags ||| 0x0002, replies := ⟨.errTei, .noFields⟩ :: s.replies })

/-- R144, R145: every packet past steps 1 and 2 sets `present`, stores its counter, reports and flags a discontinuity
exactly when a stored counter is not its own minus one modulo 16, and leaves `type` and the link words alone. -/
def Obligations.TsFeedContinuity : Prop :=
  ∀ (s : State) (p : Packet), s.Accepting → p.sync = 0x47 → p.flags.tei = false →
    ∃ t r st, exec (.tsFeed p) s = .next t
      ∧ (t.entry p.pid).present = true ∧ (t.entry p.pid).ccValid = true ∧ (t.entry p.pid).lastCc = p.flags.cc
      ∧ (t.entry p.pid).ty = (s.entry p.pid).ty
      ∧ (t.entry p.pid).programCount = (s.entry p.pid).programCount
      ∧ (t.entry p.pid).pidForEcm = (s.entry p.pid).pidForEcm
      ∧ t.replies = ⟨st, .feed r⟩ :: s.replies
      ∧ (r.discontinuity = true ↔
          (s.entry p.pid).ccValid = true ∧ (p.flags.cc.toNat + 15) % 16 ≠ (s.entry p.pid).lastCc.toNat)
      ∧ t.flag .disc = (s.flag .disc || r.discontinuity)

/-- R146, R147, R148, R150: the paths on which no payload reaches the reassembler, in their order: scrambled (the latch
takes `sc`), adaptation field past the packet (the accumulator is aborted), no payload, class `NONE`, class `ECM`. Each
with everything it changes. -/
def Obligations.TsFeedPathsWithoutPayload : Prop :=
  ∀ (s : State) (p : Packet), s.Accepting → p.sync = 0x47 → p.flags.tei = false →
    let e := s.entry p.pid
    let seen := { e with present := true, ccValid := true, lastCc := p.flags.cc }
    let disc : Word16 := if discontinuityOf e p.flags.cc then 0x0008 else 0
    let start := if p.flags.afc.getLsbD 1 then 5 + (p.byte 4).toNat else 4
    ∃ t, exec (.tsFeed p) s = .next t
      ∧ (p.flags.sc ≠ 0 →
          FedTo s p (s.classOf p.pid) { seen with scramblingControl := p.flags.sc } disc .droppedScrambled none t)
      ∧ (p.flags.sc = 0 → 188 < start →
          FedTo s p (s.classOf p.pid) { seen with acc := ⟨[], 0, []⟩ } (disc ||| 0x0004) .errBounds none t)
      ∧ (p.flags.sc = 0 → start ≤ 188 → p.flags.afc.getLsbD 0 = false →
          FedTo s p (s.classOf p.pid) seen disc .noPayload (some start) t)
      ∧ (p.flags.sc = 0 → start ≤ 188 → p.flags.afc.getLsbD 0 = true → s.classOf p.pid = .none →
          FedTo s p .none seen disc .unrouted (some start) t)
      ∧ (p.flags.sc = 0 → start ≤ 188 → p.flags.afc.getLsbD 0 = true → s.classOf p.pid = .ecm →
          FedTo s p .ecm seen disc .ecmPassthrough (some start) t)

/-- R49 (a) and R152: a `TS.FEED` changes no other PID's entry, not the trie, `HUF_SEALED` or `FATAL`, and of its own
entry not `type`, `program_count` or `pid_for_ecm`. -/
def Obligations.TsFeedTouchesOnlyItsPid : Prop :=
  ∀ (s t : State) (p : Packet), exec (.tsFeed p) s = .next t →
    s.SameButEntry t p.pid
    ∧ (t.entry p.pid).ty = (s.entry p.pid).ty
    ∧ (t.entry p.pid).programCount = (s.entry p.pid).programCount
    ∧ (t.entry p.pid).pidForEcm = (s.entry p.pid).pidForEcm

/-- R51 (a): a `PID.SETTYPE` that answered `OK` is seen by the next `TS.FEED`: on a PID without a fixed role the type
`PMT` makes the class `PMT`, `CA_ECM` makes it `ECM`, and any other makes it `NONE`; a PID with a fixed role keeps its
class whatever is written. A packet of the PID that is fed next is handled under that class, in every state, and where
it is accepted and passes steps 1 and 2 it completes and reports that class. -/
def Obligations.SetTypeSteersNextFeed : Prop :=
  ∀ (s t : State) (p : Pid) (ty : Byte), exec (.pidSetType (p.setWidth 16) ty) s = .next t →
    t.replies.head? = some ⟨.ok, .noFields⟩ →
    let c : PidClass :=
      if hasFixedRole p then s.classOf p else if ty = 2 then .sec .pmt else if ty = 3 then .ecm else .none
    t.classOf p = c
    ∧ ∀ q : Packet, q.pid = p →
        exec (.tsFeed q) t = feedAs c q t
        ∧ (t.Accepting → q.sync = 0x47 → q.flags.tei = false →
            ∃ u st r, exec (.tsFeed q) t = .next u ∧ u.replies = ⟨st, .feed r⟩ :: t.replies
              ∧ r.pid = p ∧ r.cls = c)

/-! ### The dispatch rows -/

/-- R70: a row's instruction is the `TS.FEED` of its packet, in every state. -/
def Obligations.RowIsFeedOfItsPacket : Prop :=
  ∀ (i : Instr) (p : Packet) (s : State), i.rowPacket? = some p → exec i s = exec (.tsFeed p) s

/-- R151 with R171: the eight rows of reassembled classes complete as `SEC.START` says: a clear packet with PUSI = 1,
payload at byte 4 and a `pointer_field` within the packet replaces the accumulator by the bytes behind the pointer and
evaluates them under the row's class. `TS.PMT` needs its table condition. -/
def Obligations.ReassembledRowsStartSection : Prop :=
  ∀ (s : State) (f : TsFlags) (body : PacketBody), s.Accepting →
    f.tei = false → f.pusi = true → f.sc = 0 → f.afc = 1 → (body.val.getD 0 0).toNat ≤ 183 →
    let starts (i : Instr) (c : SecClass) (pid : Pid) : Prop :=
      let e := s.entry pid
      let r := secEval c ⟨body.val.drop (1 + (body.val.getD 0 0).toNat), 0, e.acc.wholeSection⟩
      ∃ t, exec i s = .next t
        ∧ FedTo s (mkPacket pid f body) (.sec c)
            { e with present := true, ccValid := true, lastCc := f.cc, acc := r.1 }
            (if discontinuityOf e f.cc then 0x0008 else 0) r.2 (some 4) t
    starts (.tsPat f body) .pat 0x0000
    ∧ starts (.tsCat f body) .cat 0x0001
    ∧ starts (.tsSdt11 f body) .sdt 0x0011
    ∧ starts (.tsSdt12 f body) .sdt 0x0012
    ∧ (∀ low : BitVec 4, starts (.tsEpg30 low f body) .epg (0x0030 + low.setWidth 13))
    ∧ (∀ low : BitVec 5, starts (.tsEpg40 low f body) .epg (0x0040 + low.setWidth 13))
    ∧ (∀ low : BitVec 1, starts (.tsEpg60 low f body) .epg (0x0060 + low.setWidth 13))
    ∧ ∀ pid : Pid, hasFixedRole pid = false → (s.entry pid).ty = .pmt → starts (.tsPmt pid f body) .pmt pid

/-- R150: the rows `TS.ECM` and `TS.NONE` complete without touching the accumulator, on a clear packet with a payload at
byte 4, where the PID table meets their condition. -/
def Obligations.UnreassembledRowsPassThrough : Prop :=
  ∀ (s : State) (pid : Pid) (f : TsFlags) (body : PacketBody), s.Accepting →
    f.tei = false → f.sc = 0 → f.afc = 1 → hasFixedRole pid = false →
    let e := s.entry pid
    let seen := { e with present := true, ccValid := true, lastCc := f.cc }
    let disc : Word16 := if discontinuityOf e f.cc then 0x0008 else 0
    (e.ty = .caEcm → ∃ t, exec (.tsEcm pid f body) s = .next t
      ∧ FedTo s (mkPacket pid f body) .ecm seen disc .ecmPassthrough (some 4) t)
    ∧ (e.ty ≠ .caEcm → e.ty ≠ .pmt → ∃ t, exec (.tsNone pid f body) s = .next t
      ∧ FedTo s (mkPacket pid f body) .none seen disc .unrouted (some 4) t)

/-! ### The section reassembler -/

/-- R171: `SEC.START`, from a packet with PUSI = 1 of a reassembled class: no byte left for the `pointer_field`, or a
pointer past the packet, aborts the accumulator with `ERR_BOUNDS`; else the bytes behind the pointer replace the buffer and
are evaluated, whether or not the counter was continuous. -/
def Obligations.TsFeedStartsSection : Prop :=
  ∀ (s : State) (p : Packet) (c : SecClass), s.Accepting → CarriesPayload p → p.flags.pusi = true →
    s.classOf p.pid = .sec c →
    let e := s.entry p.pid
    let seen := { e with present := true, ccValid := true, lastCc := p.flags.cc }
    let disc : Word16 := if discontinuityOf e p.flags.cc then 0x0008 else 0
    let start := payloadStartOf p
    let secStart := start + 1 + (p.byte start).toNat
    ∃ t, exec (.tsFeed p) s = .next t
      ∧ if start = 188 ∨ 188 < secStart then
          FedTo s p (.sec c) { seen with acc := ⟨[], 0, []⟩ } (disc ||| 0x0004) .errBounds (some start) t
        else
          let r := secEval c ⟨p.val.drop secStart, 0, e.acc.wholeSection⟩
          FedTo s p (.sec c) { seen with acc := r.1 } disc r.2 (some start) t

/-- R172, R173: `SEC.CONT`, from a packet with PUSI = 0 of a reassembled class: a discontinuity aborts the accumulator,
else an empty one ignores the packet, else an append past 0x1100 bytes aborts it with `ERR_OVERFLOW`, else the payload is
appended and evaluated. -/
def Obligations.TsFeedContinuesSection : Prop :=
  ∀ (s : State) (p : Packet) (c : SecClass), s.Accepting → CarriesPayload p → p.flags.pusi = false →
    s.classOf p.pid = .sec c →
    let e := s.entry p.pid
    let seen := { e with present := true, ccValid := true, lastCc := p.flags.cc }
    let start := payloadStartOf p
    ∃ t, exec (.tsFeed p) s = .next t
      ∧ if discontinuityOf e p.flags.cc = true then
          FedTo s p (.sec c) { seen with acc := ⟨[], 0, []⟩ } 0x0008 .abortedDiscontinuity (some start) t
        else if e.acc.buffer = [] then FedTo s p (.sec c) seen 0 .ignoredWaiting (some start) t
        else if 0x1100 < e.acc.buffer.length + (188 - start) then
          FedTo s p (.sec c) { seen with acc := ⟨[], 0, []⟩ } 0x0010 .errOverflow (some start) t
        else
          let r := secEval c ⟨e.acc.buffer ++ payloadOf p, e.acc.bufferTarget, e.acc.wholeSection⟩
          FedTo s p (.sec c) { seen with acc := r.1 } 0 r.2 (some start) t

/-- R174, R175, R176: `SEC.EVAL` on any accumulator. The target is read once 12 bytes are buffered, from bytes 1 and 2
under the class's mask, plus 3; when it is known and reached, exactly that many bytes become the completed section and the
rest stays with an unknown target; otherwise only the target may have become known. -/
def Obligations.SectionEvaluation : Prop :=
  ∀ (c : SecClass) (a : Acc),
    let mask := match c with
      | .pat => 0x3FF
      | .cat => 0x3FF
      | .pmt => 0x3FF
      | .sdt => 0xFFF
      | .epg => 0xFFF
    let field := ((a.buffer.getD 1 0).toNat % 16 * 256 + (a.buffer.getD 2 0).toNat) % (mask + 1)
    let target := if a.bufferTarget = 0 ∧ 12 ≤ a.buffer.length then field + 3 else a.bufferTarget
    if target ≠ 0 ∧ target ≤ a.buffer.length then
      (secEval c a).2 = .fedComplete
      ∧ (secEval c a).1.wholeSection ++ (secEval c a).1.buffer = a.buffer
      ∧ (secEval c a).1.wholeSection.length = target
      ∧ (secEval c a).1.bufferTarget = 0
    else secEval c a = ({ a with bufferTarget := target }, .fed)

/-- R177, R178, R179: `SEC.TAKE` of a PID in range: refused in the `FATAL` state, `NOT_READY` without a section; else it
returns the section with its class, its CRC verdict and `deliver`, sets the CRC flag on a mismatch, clears `size`, drops
the tail of a single-shot class and keeps the others', and changes nothing else. -/
def Obligations.SecTakeHandsOver : Prop :=
  ∀ (s : State) (p : Pid),
    let e := s.entry p
    let c := classOf p e.ty
    let bytes := e.acc.wholeSection
    let ok := crcValid bytes
    (s.fatal = true → exec (.secTake (p.setWidth 16)) s = .next (s.answer .refusedFatal))
    ∧ (s.fatal = false → bytes = [] → exec (.secTake (p.setWidth 16)) s = .next (s.answer .notReady))
    ∧ (s.fatal = false → bytes ≠ [] →
        ∃ t, exec (.secTake (p.setWidth 16)) s = .next t
          ∧ (t.entry p).acc = (if c = .sec .pat ∨ c = .sec .cat ∨ c = .sec .pmt then ⟨[], 0, []⟩
              else ⟨e.acc.buffer, e.acc.bufferTarget, []⟩)
          ∧ t.entry p = { e with acc := (t.entry p).acc }
          ∧ s.SameButEntry t p
          ∧ t.errflags = (if ok then s.errflags else s.errflags ||| 0x0020)
          ∧ t.replies = ⟨.ok, .sectionBytes ⟨c, bytes.length, bytes, ok,
              ok || (decide (c = .sec .epg) && !Config.epgCrcEnforce)⟩⟩ :: s.replies)

/-- R46: taking is destructive: a second `SEC.TAKE` of the same PID answers `NOT_READY` and changes nothing. -/
def Obligations.SecTakeTwiceNotReady : Prop :=
  ∀ (s t : State) (p : Pid), s.fatal = false → exec (.secTake (p.setWidth 16)) s = .next t →
    exec (.secTake (p.setWidth 16)) t = .next (t.answer .notReady)

/-- R170 with R21: the state of a PID's accumulator, event by event. A `TS.FEED` leaves every other PID's state and every
`COMPLETE` one; a packet dropped at steps 1 to 6 leaves its own PID's state but for the bounds error, which gives `IDLE`;
`SEC.START` and `SEC.CONT` go where the table of R170 says; `SEC.TAKE` goes from `COMPLETE` to `IDLE`, or to
`ACCUMULATING` where a tail is kept; no other operation but `RESET` changes an accumulator. -/
def Obligations.AccumulatorTransitions : Prop :=
  (∀ (s t : State) (p : Packet), exec (.tsFeed p) s = .next t →
    let before := (s.entry p.pid).acc.state
    let after := (t.entry p.pid).acc.state
    (∀ q, q ≠ p.pid → (t.entry q).acc = (s.entry q).acc)
    ∧ (∀ q, (s.entry q).acc.state = .complete → (t.entry q).acc = (s.entry q).acc)
    ∧ (p.sync ≠ 0x47 ∨ p.flags.tei = true ∨ p.flags.sc ≠ 0
        ∨ payloadStartOf p ≤ 188 ∧ p.flags.afc.getLsbD 0 = false → after = before)
    ∧ (s.Accepting → p.sync = 0x47 → p.flags.tei = false → p.flags.sc = 0 → 188 < payloadStartOf p → after = .idle)
    ∧ (s.Accepting → CarriesPayload p → (∃ c, s.classOf p.pid = .sec c) →
        (p.flags.pusi = true →
          let start := payloadStartOf p + 1 + (p.byte (payloadStartOf p)).toNat
          if 188 ≤ start then after = .idle else after = .accumulating ∨ after = .complete)
        ∧ (p.flags.pusi = false →
          if discontinuityOf (s.entry p.pid) p.flags.cc = true ∨ before = .idle
              ∨ 0x1100 < (s.entry p.pid).acc.bufferProgress + (payloadOf p).length then after = .idle
          else after = .accumulating ∨ after = .complete)))
  ∧ (∀ (s t : State) (p : Pid), s.fatal = false → (s.entry p).acc.state = .complete →
      exec (.secTake (p.setWidth 16)) s = .next t →
      (t.entry p).acc.state
        = if (s.classOf p).singleShot = true ∨ (s.entry p).acc.buffer = [] then .idle else .accumulating)
  ∧ ∀ (i : Instr) (s t : State) (q : Pid), exec i s = .next t → i ≠ .reset → (∀ p, i ≠ .tsFeed p) →
      (∀ pid, i ≠ .secTake pid) → i.rowPacket? = none → (t.entry q).acc = (s.entry q).acc

/-- R180 (a): while the target is known, an append never overflows the buffer, however long the declared length. -/
def Obligations.KnownTargetNeverOverflows : Prop :=
  ∀ (c : SecClass) (a : Acc) (p : Packet) (disc : Bool), a.InRange → a.bufferTarget ≠ 0 → 4 ≤ payloadStartOf p →
    a.bufferProgress + (payloadOf p).length ≤ 0x10B9
    ∧ (secCont c p.val (payloadStartOf p) disc a).status ≠ .errOverflow

/-- R183, split invariance: a section of at least 12 bytes whose length field fits, carried by a PUSI = 1 packet with
`pointer_field` 0 and at least one section byte and then by PUSI = 0 packets of the same PID with consecutive counters, all
clear and with payload, is delivered whole by the packet that brings its last byte, however it was split. -/
def Obligations.SplitSectionReassembles : Prop :=
  ∀ (s : State) (c : SecClass) (pid : Pid) (first : Packet) (rest : List Packet) (sect tail : List Byte),
    s.Accepting → s.classOf pid = .sec c →
    (∀ p ∈ first :: rest, p.pid = pid ∧ CarriesPayload p) →
    first.flags.pusi = true → (∀ p ∈ rest, p.flags.pusi = false) →
    (first :: rest).IsChain (fun p q => q.flags.cc = p.flags.cc + 1) →
    12 ≤ sect.length → sectionTotal c sect = sect.length →
    (payloadOf first).head? = some 0 → 2 ≤ (payloadOf first).length →
    (payloadOf first).tail ++ (rest.map payloadOf).flatten = sect ++ tail →
    (rest ≠ [] → ((payloadOf first).tail ++ (rest.dropLast.map payloadOf).flatten).length < sect.length) →
    ∃ t r, feedAll (first :: rest) s = .next t
      ∧ (t.entry pid).acc = ⟨tail, 0, sect⟩
      ∧ t.replies.head? = some ⟨.fedComplete, .feed r⟩ ∧ r.sectionReady = true

/-- R49 (b): two `TS.FEED` operations on different PIDs, neither of which completes a section or is refused, can be
swapped: the final state is the same but for the order of the two replies. -/
def Obligations.FeedsOfDifferentPidsCommute : Prop :=
  ∀ (s a b a' b' : State) (p q : Packet), s.pidtab.wf → s.Accepting → p.pid ≠ q.pid →
    exec (.tsFeed p) s = .next a → exec (.tsFeed q) a = .next b →
    exec (.tsFeed q) s = .next a' → exec (.tsFeed p) a' = .next b' →
    a.pendingPid? = none → a'.pendingPid? = none →
    b' = { b with replies := b'.replies }
    ∧ ∃ x y, b.replies = y :: x :: s.replies ∧ b'.replies = x :: y :: s.replies

/-! ### Invariants -/

/-- The reset state meets every invariant. -/
def Obligations.ResetMeetsInvariants : Prop := State.reset.Sound

/-- R20 (log entry 7 for the canonical form): every step keeps the PID table sound: canonical form, ranges of every
accumulator, at most one pending section, entries of unseen PIDs, a reassembled class behind every pending section. -/
def Obligations.StepKeepsTableSound : Prop :=
  ∀ s t : State, s.TableSound → step s = .next t → t.TableSound

/-- R23: every step keeps the trie sound: a tree over the nodes in use, rooted at node 0 without value, within the
store's capacity. -/
def Obligations.StepKeepsTrieSound : Prop :=
  ∀ s t : State, s.trie.Sound Config.huf → step s = .next t → t.trie.Sound Config.huf

/-- R25, R254: every step keeps the reserved bits of `ERRFLAGS` 0, `FATAL` equal to the `CAPACITY` flag, and the decode
flags behind `HUF_SEALED`. -/
def Obligations.StepKeepsFlagsSound : Prop :=
  ∀ s t : State, s.FlagsSound → step s = .next t → t.FlagsSound

/-- R24, R51 (b): once `HUF_SEALED` is 1, no step but one that runs `RESET` changes the trie. -/
def Obligations.SealedTrieIsReadOnly : Prop :=
  ∀ (i : Instr) (s t : State), s.hufSealed = true → i ≠ .reset → exec i s = .next t → t.trie = s.trie
end

