-- ==== Sys2Proof/Laws/Crc.lean ====
section
/-! SUPPORT. The section check of the CRC unit in words (spec/40_crc.md R95). -/

namespace Sys2Proof.Machine

/-- `crc_valid` holds for at least four bytes whose last four are the CRC of those before them (R95). -/
theorem crcValid_iff (s : List Byte) :
    crcValid s = true ↔
      4 ≤ s.length ∧ crc32 (s.take (s.length - 4)) crcSeed = be32Of (s.drop (s.length - 4)) := by
  simp [crcValid]

/-- Below four bytes nothing is valid (R95). -/
theorem crcValid_of_short {s : List Byte} (h : s.length < 4) : crcValid s = false := by
  simp [crcValid]; omega

/-- `BE32` of four bytes puts the first byte on top (R8). -/
@[simp] theorem be32Of_four (a b c d : Byte) : be32Of [a, b, c, d] = a ++ b ++ c ++ d := rfl

end Sys2Proof.Machine
end

