-- ==== Sys2Proof/Laws/Decode.lean ====
section
/-! SUPPORT. The TS header read back from the packet built from it, the class and the row of a PID, the dictionary entry
and the operand words read back from what the encoder writes. -/

namespace Sys2Proof

open Sys2Proof.Machine

/-! ### The header -/

variable (pid : Pid) (f : TsFlags) (body : PacketBody)

@[simp] theorem mkPacket_byte0 : (mkPacket pid f body).byte 0 = 0x47 := rfl
@[simp] theorem mkPacket_byte1 : (mkPacket pid f body).byte 1 = headerByte1 pid f := rfl
@[simp] theorem mkPacket_byte2 : (mkPacket pid f body).byte 2 = headerByte2 pid := rfl
@[simp] theorem mkPacket_byte3 : (mkPacket pid f body).byte 3 = headerByte3 f := rfl
@[simp] theorem mkPacket_byte_body (i : Nat) : (mkPacket pid f body).byte (i + 4) = body.val.getD i 0 := rfl

@[simp] theorem mkPacket_sync : (mkPacket pid f body).sync = 0x47 := rfl

theorem byte1_pid_bits : ∀ (a b c : Bool) (x : BitVec 5),
    (BitVec.ofBool a ++ BitVec.ofBool b ++ BitVec.ofBool c ++ x : BitVec 8).extractLsb' 0 5 = x := by decide

theorem byte1_flag_bits : ∀ (a b c : Bool) (x : BitVec 5),
    let w : BitVec 8 := BitVec.ofBool a ++ BitVec.ofBool b ++ BitVec.ofBool c ++ x
    w.getLsbD 7 = a ∧ w.getLsbD 6 = b ∧ w.getLsbD 5 = c := by decide

theorem byte3_fields : ∀ (sc afc : BitVec 2) (cc : BitVec 4),
    let w : BitVec 8 := sc ++ afc ++ cc
    w.extractLsb' 6 2 = sc ∧ w.extractLsb' 4 2 = afc ∧ w.extractLsb' 0 4 = cc := by decide

theorem pid_halves (p : Pid) : (p.extractLsb' 8 5 ++ p.extractLsb' 0 8 : BitVec 13) = p := by
  apply BitVec.eq_of_toNat_eq
  have := p.isLt
  simp only [BitVec.toNat_append, BitVec.extractLsb'_toNat, Nat.shiftLeft_eq, Nat.shiftRight_eq_div_pow]
  rw [Nat.mul_comm, ← Nat.two_pow_add_eq_or_of_lt (Nat.mod_lt _ (by decide))]
  omega

@[simp] theorem mkPacket_pid : (mkPacket pid f body).pid = pid := by
  rw [Packet.pid, mkPacket_byte1, mkPacket_byte2, headerByte1, headerByte2, byte1_pid_bits, pid_halves]

@[simp] theorem mkPacket_flags : (mkPacket pid f body).flags = f := by
  obtain ⟨tei, pusi, tp, sc, afc, cc⟩ := f
  obtain ⟨h1, h2, h3⟩ := byte1_flag_bits tei pusi tp (pid.extractLsb' 8 5)
  obtain ⟨h4, h5, h6⟩ := byte3_fields sc afc cc
  simp only [Packet.flags, mkPacket_byte1, mkPacket_byte3, headerByte1, headerByte3, TsFlags.mk.injEq]
  exact ⟨h1, h2, h3, h4, h5, h6⟩

@[simp] theorem mkPacket_body : (mkPacket pid f body).body = body := rfl

@[simp] theorem mkPacket_val_drop (n : Nat) : (mkPacket pid f body).val.drop (n + 4) = body.val.drop n := rfl

/-! ### Operand words and dictionary entries -/

theorem be16_bytes16 (v : Word16) : be16 (v.extractLsb' 8 8) (v.extractLsb' 0 8) = v := by
  apply BitVec.eq_of_toNat_eq
  have := v.isLt
  simp only [be16, BitVec.toNat_append, BitVec.extractLsb'_toNat, Nat.shiftLeft_eq, Nat.shiftRight_eq_div_pow]
  rw [Nat.mul_comm, ← Nat.two_pow_add_eq_or_of_lt (Nat.mod_lt _ (by decide))]
  omega

theorem bytes16_be16 (hi lo : Byte) : bytes16 (be16 hi lo) = [hi, lo] := by
  simp only [bytes16, be16, List.cons.injEq, and_true]
  constructor <;> apply BitVec.eq_of_toNat_eq <;>
    simp only [BitVec.extractLsb'_toNat, BitVec.toNat_append, Nat.shiftLeft_eq, Nat.shiftRight_eq_div_pow] <;>
    rw [Nat.mul_comm, ← Nat.two_pow_add_eq_or_of_lt lo.isLt] <;> omega

theorem be32_toNat (b3 b2 b1 b0 : Byte) :
    (be32 b3 b2 b1 b0).toNat = b3.toNat * 2 ^ 24 + b2.toNat * 2 ^ 16 + b1.toNat * 2 ^ 8 + b0.toNat := by
  have h0 := b0.isLt
  have h1 := b1.isLt
  have h2 := b2.isLt
  simp only [be32, BitVec.toNat_append, Nat.shiftLeft_eq]
  rw [Nat.mul_comm _ (2 ^ 8), Nat.mul_comm _ (2 ^ 8), Nat.mul_comm _ (2 ^ 8), ← Nat.two_pow_add_eq_or_of_lt h2,
    ← Nat.two_pow_add_eq_or_of_lt h1, ← Nat.two_pow_add_eq_or_of_lt h0]
  omega

theorem be32_bytes32 (v : Word32) :
    be32 (v.extractLsb' 24 8) (v.extractLsb' 16 8) (v.extractLsb' 8 8) (v.extractLsb' 0 8) = v := by
  apply BitVec.eq_of_toNat_eq
  have := v.isLt
  rw [be32_toNat]
  simp only [BitVec.extractLsb'_toNat, Nat.shiftRight_eq_div_pow]
  omega

theorem bytes32_be32 (b3 b2 b1 b0 : Byte) : bytes32 (be32 b3 b2 b1 b0) = [b3, b2, b1, b0] := by
  have h3 := b3.isLt
  have h0 := b0.isLt
  have h1 := b1.isLt
  have h2 := b2.isLt
  simp only [bytes32, List.cons.injEq, and_true]
  refine ⟨?_, ?_, ?_, ?_⟩ <;> apply BitVec.eq_of_toNat_eq <;>
    simp only [BitVec.extractLsb'_toNat, be32_toNat, Nat.shiftRight_eq_div_pow] <;> omega

/-- A string without `=` is not split. -/
theorem splitAtLast_none {l : List Byte} (h : ∀ b ∈ l, b ≠ equalsChar) : splitAtLast l = none := by
  induction l with
  | nil => rfl
  | cons b l ih => simp [splitAtLast, ih fun c hc => h c (by simp [hc]), h b (by simp)]

/-- An entry is split at its last `=` (R75). -/
theorem splitAtLast_joinEntry (symbol : List Byte) {code : List Byte} (h : ∀ b ∈ code, b ≠ equalsChar) :
    splitAtLast (joinEntry symbol code) = some (symbol, code) := by
  induction symbol with
  | nil => simp [joinEntry, splitAtLast, splitAtLast_none h]
  | cons b symbol ih =>
    simp only [joinEntry] at ih
    simp [joinEntry, splitAtLast, ih]

/-- The parts of a split entry join to the entry. -/
theorem joinEntry_of_splitAtLast {entry symbol code : List Byte} (h : splitAtLast entry = some (symbol, code)) :
    joinEntry symbol code = entry := by
  induction entry generalizing symbol with
  | nil => simp [splitAtLast] at h
  | cons b entry ih =>
    rw [splitAtLast] at h
    split at h
    · rename_i sym cd heq
      simp only [Option.some.injEq, Prod.mk.injEq] at h
      obtain ⟨rfl, rfl⟩ := h
      simpa [joinEntry] using ih heq
    · split at h
      · rename_i hb
        simp only [Option.some.injEq, Prod.mk.injEq] at h
        obtain ⟨rfl, rfl⟩ := h
        simp [joinEntry, hb]
      · simp at h

theorem bitChar_ne_equals {c : Byte} (h : isBitChar c = true) : c ≠ equalsChar := by
  rintro rfl
  simp [isBitChar, equalsChar] at h

/-- Symbol and code of a well-formed entry are read back. -/
theorem splitEntry_joinEntry {symbol code : List Byte} (h : entryWellFormed symbol code = true) :
    splitEntry (joinEntry symbol code) = (symbol, code) := by
  have hc : ∀ b ∈ code, b ≠ equalsChar := by
    intro b hb
    simp only [entryWellFormed, Bool.and_eq_true, List.all_eq_true] at h
    exact bitChar_ne_equals (h.2 b hb)
  simp [splitEntry, splitAtLast_joinEntry symbol hc]

/-! ### Classes and rows -/

theorem classOf_epg30 (low : BitVec 4) (ty : PidType) : classOf (epg30Pid low) ty = .sec .epg := by
  revert low; revert ty; rintro ⟨⟩ <;> decide

theorem classOf_epg40 (low : BitVec 5) (ty : PidType) : classOf (epg40Pid low) ty = .sec .epg := by
  revert low; revert ty; rintro ⟨⟩ <;> decide

theorem classOf_epg60 (low : BitVec 1) (ty : PidType) : classOf (epg60Pid low) ty = .sec .epg := by
  revert low; revert ty; rintro ⟨⟩ <;> decide

/-- A PID without a fixed role is classed by its type (R70, rows 5 to 7). -/
theorem classOf_of_not_fixed {p : Pid} (h : hasFixedRole p = false) (ty : PidType) :
    classOf p ty = if ty = .pmt then .sec .pmt else if ty = .caEcm then .ecm else .none := by
  simp only [hasFixedRole, Bool.or_eq_false_iff, Bool.and_eq_false_iff, beq_eq_false_iff_ne, decide_eq_false_iff_not,
    ne_eq] at h
  obtain ⟨⟨⟨⟨h0, h1⟩, h2⟩, h3⟩, h4⟩ := h
  have h5 : ¬ (0x0030 ≤ p.toNat ∧ p.toNat < 0x0062) := fun hh => h4.elim (fun g => g hh.1) fun g => g hh.2
  simp only [classOf, if_neg h0, if_neg h1, h2, h3, or_self, if_false, if_neg h5]

/-- A PID with a fixed role keeps its class whatever its type (R70). -/
theorem classOf_of_fixed {p : Pid} (h : hasFixedRole p = true) (ty ty' : PidType) : classOf p ty = classOf p ty' := by
  simp only [hasFixedRole, Bool.or_eq_true, Bool.and_eq_true, beq_iff_eq, decide_eq_true_eq] at h
  unfold classOf
  split; · rfl
  split; · rfl
  split; · rfl
  split; · rfl
  exfalso
  tauto

/-! ### A packet from its header fields -/

theorem headerByte1_of_packet : ∀ b : Byte,
    BitVec.ofBool (b.getLsbD 7) ++ BitVec.ofBool (b.getLsbD 6) ++ BitVec.ofBool (b.getLsbD 5) ++ b.extractLsb' 0 5 = b := by
  decide

theorem headerByte3_of_packet : ∀ b : Byte, b.extractLsb' 6 2 ++ b.extractLsb' 4 2 ++ b.extractLsb' 0 4 = b := by decide

theorem pid_high_bits (a : BitVec 5) (b : BitVec 8) : (a ++ b : BitVec 13).extractLsb' 8 5 = a := by
  apply BitVec.eq_of_toNat_eq
  have := a.isLt
  simp only [BitVec.extractLsb'_toNat, BitVec.toNat_append, Nat.shiftLeft_eq, Nat.shiftRight_eq_div_pow]
  rw [Nat.mul_comm, ← Nat.two_pow_add_eq_or_of_lt b.isLt]
  omega

theorem pid_low_bits (a : BitVec 5) (b : BitVec 8) : (a ++ b : BitVec 13).extractLsb' 0 8 = b := by
  apply BitVec.eq_of_toNat_eq
  have := b.isLt
  simp only [BitVec.extractLsb'_toNat, BitVec.toNat_append, Nat.shiftLeft_eq, Nat.shiftRight_eq_div_pow]
  rw [Nat.mul_comm, ← Nat.two_pow_add_eq_or_of_lt b.isLt]
  omega

/-- A packet with the right sync byte is built from its PID, its flags and its body. -/
theorem mkPacket_of_fields (p : Packet) (h : p.sync = 0x47) : mkPacket p.pid p.flags p.body = p := by
  obtain ⟨l, hl⟩ := p
  match l, hl, h with
  | b0 :: b1 :: b2 :: b3 :: rest, hl, h =>
    have h0 : b0 = 0x47 := h
    subst h0
    apply Subtype.ext
    have e1 : headerByte1 (b1.extractLsb' 0 5 ++ b2)
        ⟨b1.getLsbD 7, b1.getLsbD 6, b1.getLsbD 5, b3.extractLsb' 6 2, b3.extractLsb' 4 2, b3.extractLsb' 0 4⟩ = b1 := by
      rw [headerByte1, pid_high_bits]
      exact headerByte1_of_packet b1
    have e2 : headerByte2 (b1.extractLsb' 0 5 ++ b2) = b2 := pid_low_bits _ _
    have e3 := headerByte3_of_packet b3
    show (0x47 : Byte) :: headerByte1 _ _ :: headerByte2 _ :: headerByte3 _ :: rest = _
    exact congrArg _ (congr (congrArg _ e1) (congr (congrArg _ e2) (congr (congrArg _ e3) rfl)))

end Sys2Proof
end

