-- ==== Sys2Proof/Laws/State.lean ====
section
/-! SUPPORT. One lemma per field per state update, and per update what reading an entry or a flag gives. -/

namespace Sys2Proof.Machine

variable (s : State) (p : Pid) (e : PidEntry) (w : Word16) (f : ErrFlag) (st : Status) (r : Result)

@[simp] theorem State.raise_pidtab : (s.raise w).pidtab = s.pidtab := rfl
@[simp] theorem State.raise_trie : (s.raise w).trie = s.trie := rfl
@[simp] theorem State.raise_hufSealed : (s.raise w).hufSealed = s.hufSealed := rfl
@[simp] theorem State.raise_errflags : (s.raise w).errflags = s.errflags ||| w := rfl
@[simp] theorem State.raise_fatal : (s.raise w).fatal = s.fatal := rfl
@[simp] theorem State.raise_requests : (s.raise w).requests = s.requests := rfl
@[simp] theorem State.raise_replies : (s.raise w).replies = s.replies := rfl

@[simp] theorem State.setEntry_pidtab : (s.setEntry p e).pidtab = s.pidtab.set p e := rfl
@[simp] theorem State.setEntry_trie : (s.setEntry p e).trie = s.trie := rfl
@[simp] theorem State.setEntry_hufSealed : (s.setEntry p e).hufSealed = s.hufSealed := rfl
@[simp] theorem State.setEntry_errflags : (s.setEntry p e).errflags = s.errflags := rfl
@[simp] theorem State.setEntry_fatal : (s.setEntry p e).fatal = s.fatal := rfl
@[simp] theorem State.setEntry_requests : (s.setEntry p e).requests = s.requests := rfl
@[simp] theorem State.setEntry_replies : (s.setEntry p e).replies = s.replies := rfl

@[simp] theorem State.reply_pidtab : (s.reply st r).pidtab = s.pidtab := rfl
@[simp] theorem State.reply_trie : (s.reply st r).trie = s.trie := rfl
@[simp] theorem State.reply_hufSealed : (s.reply st r).hufSealed = s.hufSealed := rfl
@[simp] theorem State.reply_errflags : (s.reply st r).errflags = s.errflags := rfl
@[simp] theorem State.reply_fatal : (s.reply st r).fatal = s.fatal := rfl
@[simp] theorem State.reply_requests : (s.reply st r).requests = s.requests := rfl
@[simp] theorem State.reply_replies : (s.reply st r).replies = ⟨st, r⟩ :: s.replies := rfl

@[simp] theorem State.answer_pidtab : (s.answer st).pidtab = s.pidtab := rfl
@[simp] theorem State.answer_trie : (s.answer st).trie = s.trie := rfl
@[simp] theorem State.answer_hufSealed : (s.answer st).hufSealed = s.hufSealed := rfl
@[simp] theorem State.answer_errflags : (s.answer st).errflags = s.errflags := rfl
@[simp] theorem State.answer_fatal : (s.answer st).fatal = s.fatal := rfl
@[simp] theorem State.answer_requests : (s.answer st).requests = s.requests := rfl
@[simp] theorem State.answer_replies : (s.answer st).replies = ⟨st, .noFields⟩ :: s.replies := rfl

@[simp] theorem State.take_pidtab : (s.take).pidtab = s.pidtab := rfl
@[simp] theorem State.take_trie : (s.take).trie = s.trie := rfl
@[simp] theorem State.take_hufSealed : (s.take).hufSealed = s.hufSealed := rfl
@[simp] theorem State.take_errflags : (s.take).errflags = s.errflags := rfl
@[simp] theorem State.take_fatal : (s.take).fatal = s.fatal := rfl
@[simp] theorem State.take_requests : (s.take).requests = s.requests.tail := rfl
@[simp] theorem State.take_replies : (s.take).replies = s.replies := rfl

@[simp] theorem State.error_pidtab : (s.error f st).pidtab = s.pidtab := rfl
@[simp] theorem State.error_trie : (s.error f st).trie = s.trie := rfl
@[simp] theorem State.error_hufSealed : (s.error f st).hufSealed = s.hufSealed := rfl
@[simp] theorem State.error_errflags : (s.error f st).errflags = s.errflags ||| f.mask := rfl
@[simp] theorem State.error_fatal : (s.error f st).fatal = s.fatal := rfl
@[simp] theorem State.error_requests : (s.error f st).requests = s.requests := rfl
@[simp] theorem State.error_replies : (s.error f st).replies = ⟨st, .noFields⟩ :: s.replies := rfl

@[simp] theorem State.raise_entry (q : Pid) : (s.raise w).entry q = s.entry q := rfl
@[simp] theorem State.raise_pendingPid : (s.raise w).pendingPid? = s.pendingPid? := rfl
@[simp] theorem State.raise_classOf (q : Pid) : (s.raise w).classOf q = s.classOf q := rfl
@[simp] theorem State.reply_entry (q : Pid) : (s.reply st r).entry q = s.entry q := rfl
@[simp] theorem State.reply_pendingPid : (s.reply st r).pendingPid? = s.pendingPid? := rfl
@[simp] theorem State.reply_classOf (q : Pid) : (s.reply st r).classOf q = s.classOf q := rfl
@[simp] theorem State.answer_entry (q : Pid) : (s.answer st).entry q = s.entry q := rfl
@[simp] theorem State.answer_pendingPid : (s.answer st).pendingPid? = s.pendingPid? := rfl
@[simp] theorem State.answer_classOf (q : Pid) : (s.answer st).classOf q = s.classOf q := rfl
@[simp] theorem State.take_entry (q : Pid) : (s.take).entry q = s.entry q := rfl
@[simp] theorem State.take_pendingPid : (s.take).pendingPid? = s.pendingPid? := rfl
@[simp] theorem State.take_classOf (q : Pid) : (s.take).classOf q = s.classOf q := rfl
@[simp] theorem State.error_entry (q : Pid) : (s.error f st).entry q = s.entry q := rfl
@[simp] theorem State.setEntry_entry (q : Pid) : (s.setEntry p e).entry q = (s.pidtab.set p e).get q := rfl

@[simp] theorem State.reset_pidtab : State.reset.pidtab = [] := rfl
@[simp] theorem State.reset_trie : State.reset.trie = Trie.emptyDictionary := rfl
@[simp] theorem State.reset_hufSealed : State.reset.hufSealed = false := rfl
@[simp] theorem State.reset_errflags : State.reset.errflags = 0 := rfl
@[simp] theorem State.reset_fatal : State.reset.fatal = false := rfl
@[simp] theorem State.reset_requests : State.reset.requests = [] := rfl
@[simp] theorem State.reset_replies : State.reset.replies = [] := rfl

/-- Reading any entry of a block right after reset. -/
@[simp] theorem State.reset_entry (q : Pid) : State.reset.entry q = PidEntry.reset := rfl

/-- An operation that `FATAL` refuses either is refused, changing nothing, or runs on a block that is not in the `FATAL`
state; it never stops. -/
theorem State.unlessFatal_cases {k : State → State} {t : State} (h : s.unlessFatal k = .next t) :
    (s.fatal = true ∧ t = s.answer .refusedFatal) ∨ (s.fatal = false ∧ t = k s) := by
  unfold State.unlessFatal at h
  split at h <;> rename_i hf
  · exact .inl ⟨hf, by injection h with h; exact h.symm⟩
  · exact .inr ⟨by simpa using hf, by injection h with h; exact h.symm⟩

theorem State.unlessFatal_of_fatal {k : State → State} (h : s.fatal = true) :
    s.unlessFatal k = .next (s.answer .refusedFatal) := by simp [State.unlessFatal, h]

theorem State.unlessFatal_of_live {k : State → State} (h : s.fatal = false) : s.unlessFatal k = .next (k s) := by
  simp [State.unlessFatal, h]

end Sys2Proof.Machine
end

