-- ==== Sys2Proof/Laws/PidTable.lean ====
section
/-! SUPPORT. The PID table: reading after writing, every operation keeps the canonical form, equal readings of two
canonical tables are equal tables, and the pending PID. -/

namespace Sys2Proof.Machine

/-! ### Reading after writing -/

theorem PidTab.get_erase_self (t : PidTab) (p : Pid) : (t.erase p.toNat).get p = PidEntry.reset := by
  have : (t.erase p.toNat).find? (fun c => c.1 == p.toNat) = none := by
    simp [PidTab.erase, List.find?_eq_none]
  simp [PidTab.get, this]

theorem PidTab.find_erase_other (t : PidTab) {k j : Nat} (h : j ≠ k) :
    (t.erase k).find? (fun c => c.1 == j) = t.find? fun c => c.1 == j := by
  induction t with
  | nil => rfl
  | cons c t ih =>
    simp only [PidTab.erase, List.filter_cons] at ih ⊢
    by_cases hk : c.1 = k <;> by_cases hj : c.1 = j <;> simp_all

theorem PidTab.find_insert_self (k : Nat) (e : PidEntry) (t : PidTab) (h : ∀ c ∈ t, c.1 ≠ k) :
    (PidTab.insert k e t).find? (fun c => c.1 == k) = some (k, e) := by
  induction t with
  | nil => simp [PidTab.insert]
  | cons c t ih =>
    have hc : c.1 ≠ k := h c (by simp)
    by_cases hk : k < c.1
    · simp [PidTab.insert, hk]
    · simp [PidTab.insert, hk, hc, ih fun d hd => h d (by simp [hd])]

theorem PidTab.find_insert_other {k j : Nat} (e : PidEntry) (t : PidTab) (h : j ≠ k) :
    (PidTab.insert k e t).find? (fun c => c.1 == j) = t.find? fun c => c.1 == j := by
  induction t with
  | nil => simp [PidTab.insert, h.symm]
  | cons c t ih =>
    by_cases hk : k < c.1 <;> simp [PidTab.insert, hk, List.find?_cons, h.symm, ih]

theorem PidTab.mem_erase {t : PidTab} {k : Nat} {c : Nat × PidEntry} : c ∈ t.erase k ↔ c ∈ t ∧ c.1 ≠ k := by
  simp [PidTab.erase]

/-- Reading the entry just written. -/
@[simp] theorem PidTab.get_set_self (t : PidTab) (p : Pid) (e : PidEntry) : (t.set p e).get p = e := by
  by_cases he : e = PidEntry.reset
  · simp [PidTab.set, he, PidTab.get_erase_self]
  · have := PidTab.find_insert_self p.toNat e (t.erase p.toNat) fun c hc => (PidTab.mem_erase.1 hc).2
    simp [PidTab.set, he, PidTab.get, this]

/-- Writing one entry leaves every other alone. -/
@[simp] theorem PidTab.get_set_other (t : PidTab) {p q : Pid} (e : PidEntry) (h : q ≠ p) :
    (t.set p e).get q = t.get q := by
  have hn : q.toNat ≠ p.toNat := fun hh => h (BitVec.eq_of_toNat_eq hh)
  by_cases he : e = PidEntry.reset
  · simp [PidTab.set, he, PidTab.get, PidTab.find_erase_other t hn]
  · simp [PidTab.set, he, PidTab.get, PidTab.find_insert_other e _ hn, PidTab.find_erase_other t hn]

@[simp] theorem State.setEntry_entry_self (s : State) (p : Pid) (e : PidEntry) : (s.setEntry p e).entry p = e := by simp

theorem State.setEntry_entry_other (s : State) {p q : Pid} (e : PidEntry) (h : q ≠ p) :
    (s.setEntry p e).entry q = s.entry q := by
  simp [h, State.entry]

/-! ### The canonical form -/

theorem PidTab.wf_nil : PidTab.wf [] := ⟨List.Pairwise.nil, fun _ h => (List.not_mem_nil h).elim⟩

theorem PidTab.wf_cons {c : Nat × PidEntry} {t : PidTab} :
    PidTab.wf (c :: t) ↔ (∀ d ∈ t, c.1 < d.1) ∧ c.1 < 8192 ∧ c.2 ≠ PidEntry.reset ∧ PidTab.wf t := by
  simp only [PidTab.wf, List.map_cons, List.pairwise_cons, List.mem_cons, forall_eq_or_imp, List.mem_map]
  constructor
  · rintro ⟨⟨h1, h2⟩, h3, h4⟩
    exact ⟨fun d hd => h1 d.1 ⟨d, hd, rfl⟩, h3.1, h3.2, h2, h4⟩
  · rintro ⟨h1, h2, h3, h4, h5⟩
    exact ⟨⟨fun k ⟨d, hd, hk⟩ => hk ▸ h1 d hd, h4⟩, ⟨h2, h3⟩, h5⟩

theorem PidTab.erase_wf {t : PidTab} (h : t.wf) (k : Nat) : (t.erase k).wf :=
  ⟨(h.1.sublist (List.Sublist.map _ List.filter_sublist)), fun c hc => h.2 c (PidTab.mem_erase.1 hc).1⟩

theorem PidTab.mem_insert {k : Nat} {e : PidEntry} {t : PidTab} {c : Nat × PidEntry} :
    c ∈ PidTab.insert k e t ↔ c = (k, e) ∨ c ∈ t := by
  induction t with
  | nil => simp [PidTab.insert]
  | cons d t ih =>
    by_cases hk : k < d.1
    · simp [PidTab.insert, hk]
    · simp only [PidTab.insert, hk, if_false, List.mem_cons, ih]
      tauto

theorem PidTab.insert_wf {k : Nat} {e : PidEntry} {t : PidTab} (h : t.wf) (hk : k < 8192) (he : e ≠ PidEntry.reset)
    (hn : ∀ c ∈ t, c.1 ≠ k) : (PidTab.insert k e t).wf := by
  induction t with
  | nil => exact PidTab.wf_cons.2 ⟨fun _ h => (List.not_mem_nil h).elim, hk, he, PidTab.wf_nil⟩
  | cons c t ih =>
    obtain ⟨h1, h2, h3, h4⟩ := PidTab.wf_cons.1 h
    have hc : c.1 ≠ k := hn c (by simp)
    by_cases hlt : k < c.1
    · simp only [PidTab.insert, hlt, if_true]
      refine PidTab.wf_cons.2 ⟨fun d hd => ?_, hk, he, h⟩
      rcases List.mem_cons.1 hd with rfl | hd
      · exact hlt
      · exact lt_trans hlt (h1 d hd)
    · simp only [PidTab.insert, hlt, if_false]
      refine PidTab.wf_cons.2 ⟨fun d hd => ?_, h2, h3, ih h4 fun d hd => hn d (by simp [hd])⟩
      rcases PidTab.mem_insert.1 hd with rfl | hd
      · exact lt_of_le_of_ne (not_lt.1 hlt) hc
      · exact h1 d hd

/-- Every write of an entry keeps the canonical form. -/
theorem PidTab.set_wf {t : PidTab} (h : t.wf) (p : Pid) (e : PidEntry) : (t.set p e).wf := by
  by_cases he : e = PidEntry.reset
  · simpa only [PidTab.set, he, if_true] using PidTab.erase_wf h _
  · simpa only [PidTab.set, he, if_false] using
      PidTab.insert_wf (PidTab.erase_wf h _) p.isLt he fun c hc => (PidTab.mem_erase.1 hc).2

/-- The reset state's table is canonical. -/
theorem State.reset_table_wf : State.reset.pidtab.wf := PidTab.wf_nil

/-! ### Canonical tables are determined by what they read as -/

theorem PidTab.get_cons {c : Nat × PidEntry} {t : PidTab} (p : Pid) :
    PidTab.get (c :: t) p = if c.1 = p.toNat then c.2 else PidTab.get t p := by
  by_cases h : c.1 = p.toNat <;> simp [PidTab.get, h]

theorem PidTab.get_of_lt {t : PidTab} {p : Pid} (h : ∀ d ∈ t, p.toNat < d.1) : t.get p = PidEntry.reset := by
  have : t.find? (fun c => c.1 == p.toNat) = none := by
    rw [List.find?_eq_none]
    intro c hc
    have := h c hc
    simp only [beq_iff_eq]
    omega
  simp [PidTab.get, this]

theorem PidTab.toNat_key {k : Nat} (h : k < 8192) : (BitVec.ofNat 13 k).toNat = k := by
  simp only [BitVec.toNat_ofNat]; omega

/-- Two canonical tables that read alike are equal. -/
theorem PidTab.ext_get {t u : PidTab} (ht : t.wf) (hu : u.wf) (h : ∀ p, t.get p = u.get p) : t = u := by
  induction t generalizing u with
  | nil =>
    cases u with
    | nil => rfl
    | cons d u =>
      obtain ⟨-, hd, hr, -⟩ := PidTab.wf_cons.1 hu
      have := h (BitVec.ofNat 13 d.1)
      rw [PidTab.get_cons, PidTab.toNat_key hd, if_pos rfl] at this
      exact absurd this.symm hr
  | cons c t ih =>
    obtain ⟨h1, hc, hcr, ht'⟩ := PidTab.wf_cons.1 ht
    cases u with
    | nil =>
      have := h (BitVec.ofNat 13 c.1)
      rw [PidTab.get_cons, PidTab.toNat_key hc, if_pos rfl] at this
      exact absurd this hcr
    | cons d u =>
      obtain ⟨g1, hd, hdr, hu'⟩ := PidTab.wf_cons.1 hu
      have hcd : c.1 = d.1 := by
        rcases lt_trichotomy c.1 d.1 with hlt | heq | hgt
        · have := h (BitVec.ofNat 13 c.1)
          rw [PidTab.get_cons, PidTab.toNat_key hc, if_pos rfl, PidTab.get_of_lt] at this
          · exact absurd this hcr
          · intro x hx
            rw [PidTab.toNat_key hc]
            rcases List.mem_cons.1 hx with rfl | hx
            · exact hlt
            · exact lt_trans hlt (g1 x hx)
        · exact heq
        · have := h (BitVec.ofNat 13 d.1)
          rw [PidTab.get_cons (c := d), PidTab.toNat_key hd, if_pos rfl, PidTab.get_of_lt] at this
          · exact absurd this.symm hdr
          · intro x hx
            rw [PidTab.toNat_key hd]
            rcases List.mem_cons.1 hx with rfl | hx
            · exact hgt
            · exact lt_trans hgt (h1 x hx)
      have h2 : c.2 = d.2 := by
        have := h (BitVec.ofNat 13 c.1)
        rwa [PidTab.get_cons, PidTab.get_cons, PidTab.toNat_key hc, if_pos rfl, if_pos hcd.symm] at this
      have : t = u := by
        refine ih ht' hu' fun p => ?_
        have := h p
        rw [PidTab.get_cons, PidTab.get_cons] at this
        by_cases hp : c.1 = p.toNat
        · rw [PidTab.get_of_lt fun x hx => hp ▸ h1 x hx, PidTab.get_of_lt fun x hx => hp ▸ hcd ▸ g1 x hx]
        · rwa [if_neg hp, if_neg (hcd ▸ hp)] at this
      rw [this, Prod.ext hcd h2]

/-! ### The pending PID -/

/-- A PID whose completed section waits makes the block pending. -/
theorem State.pendingPid_isSome_of_size {s : State} {q : Pid} (h : (s.entry q).acc.size ≠ 0) :
    s.pendingPid?.isSome = true := by
  have : ∃ c ∈ s.pidtab, c.2.acc.size ≠ 0 := by
    unfold State.entry PidTab.get at h
    split at h
    · rename_i c hc
      exact ⟨c, List.mem_of_find?_eq_some hc, h⟩
    · exact absurd rfl h
  obtain ⟨c, hc, hs⟩ := this
  cases hf : s.pidtab.find? fun c => c.2.acc.size != 0 with
  | none => exact absurd (List.find?_eq_none.1 hf c hc) (by simpa using hs)
  | some d => simp [State.pendingPid?, hf]

/-- A cell of a canonical table is what its PID reads as. -/
theorem PidTab.get_of_mem {t : PidTab} (h : t.wf) {c : Nat × PidEntry} (hc : c ∈ t) :
    t.get (BitVec.ofNat 13 c.1) = c.2 := by
  induction t with
  | nil => cases hc
  | cons d t ih =>
    obtain ⟨h1, hd, -, ht⟩ := PidTab.wf_cons.1 h
    rcases List.mem_cons.1 hc with rfl | hc
    · rw [PidTab.get_cons, PidTab.toNat_key hd, if_pos rfl]
    · have hlt := h1 c hc
      rw [PidTab.get_cons, PidTab.toNat_key (h.2 c (by simp [hc])).1, if_neg (Nat.ne_of_lt hlt), ih ht hc]

/-- The pending PID of a canonical table holds a completed section. -/
theorem State.size_of_pendingPid {s : State} (h : s.pidtab.wf) {q : Pid} (hq : s.pendingPid? = some q) :
    (s.entry q).acc.size ≠ 0 := by
  unfold State.pendingPid? at hq
  cases hf : s.pidtab.find? fun c => c.2.acc.size != 0 with
  | none => simp [hf] at hq
  | some c =>
    simp only [hf, Option.map_some, Option.some.injEq] at hq
    have hs := List.find?_some hf
    rw [← hq, State.entry, PidTab.get_of_mem h (List.mem_of_find?_eq_some hf)]
    simpa using hs

/-- With a canonical table, no pending PID means that no PID holds a completed section. -/
theorem State.pendingPid_eq_none_iff {s : State} (h : s.pidtab.wf) :
    s.pendingPid? = none ↔ ∀ q, (s.entry q).acc.size = 0 := by
  constructor
  · intro hn q
    by_contra hq
    simpa [hn] using State.pendingPid_isSome_of_size hq
  · intro ha
    cases hp : s.pendingPid? with
    | none => rfl
    | some q => exact absurd (ha q) (State.size_of_pendingPid h hp)

end Sys2Proof.Machine
end

