-- ==== Sys2Proof/Laws/Feed.lean ====
section
/-! SUPPORT. What the stages of `TS.FEED` and `SEC.TAKE` can do, said once: `SEC.EVAL`, `SEC.START`, `SEC.CONT`, steps 3 to 7
on an entry, and the whole operation. -/

namespace Sys2Proof.Machine

/-! ### The accumulator's stages -/

/-- `SEC.EVAL` either completes a section or leaves the buffer, having perhaps learnt the target. -/
theorem secEval_cases (c : SecClass) (a : Acc) :
    (evalTarget c a ≠ 0 ∧ evalTarget c a ≤ a.bufferProgress
      ∧ secEval c a = (⟨a.buffer.drop (evalTarget c a), 0, a.buffer.take (evalTarget c a)⟩, .fedComplete))
    ∨ ((evalTarget c a ≠ 0 → a.bufferProgress < evalTarget c a)
      ∧ secEval c a = ({ a with bufferTarget := evalTarget c a }, .fed)) := by
  unfold secEval
  dsimp only
  split <;> rename_i h
  · exact .inl ⟨h.1, h.2, rfl⟩
  · exact .inr ⟨fun h0 => by by_contra hl; exact h ⟨h0, by omega⟩, rfl⟩

/-- A section's total length is at least 3 and at most 0x1002 (R18). -/
theorem sectionTotal_range (c : SecClass) (buffer : List Byte) :
    3 ≤ sectionTotal c buffer ∧ sectionTotal c buffer ≤ 0x1002 := by
  unfold sectionTotal
  have := ((((buffer.getD 1 0 &&& 0x0F).setWidth 12 <<< 8) ||| (buffer.getD 2 0).setWidth 12) &&& lenMask c).isLt
  dsimp only
  omega

/-- `SEC.START` aborts or evaluates the bytes behind the pointer. -/
theorem secStart_cases (c : SecClass) (pkt : List Byte) (start : Nat) (a : Acc) :
    ((188 ≤ start ∨ 188 < start + 1 + (pkt.getD start 0).toNat)
      ∧ secStart c pkt start a = ⟨secAbort, ErrFlag.bounds.mask, .errBounds⟩)
    ∨ (start < 188 ∧ start + 1 + (pkt.getD start 0).toNat ≤ 188
      ∧ secStart c pkt start a
        = secAccept c ⟨pkt.drop (start + 1 + (pkt.getD start 0).toNat), 0, a.wholeSection⟩) := by
  unfold secStart
  split
  · rename_i h; exact .inl ⟨.inl h, rfl⟩
  · rename_i h
    dsimp only
    split
    · rename_i h2; exact .inl ⟨.inr h2, rfl⟩
    · rename_i h2; exact .inr ⟨by omega, by omega, rfl⟩

/-- `SEC.CONT` aborts, ignores, overflows, or evaluates the buffer with the payload appended. -/
theorem secCont_cases (c : SecClass) (pkt : List Byte) (start : Nat) (disc : Bool) (a : Acc) :
    (disc = true ∧ secCont c pkt start disc a = ⟨secAbort, 0, .abortedDiscontinuity⟩)
    ∨ (disc = false ∧ a.bufferProgress = 0 ∧ secCont c pkt start disc a = ⟨a, 0, .ignoredWaiting⟩)
    ∨ (disc = false ∧ a.bufferProgress ≠ 0 ∧ bufCap < a.bufferProgress + (pkt.drop start).length
      ∧ secCont c pkt start disc a = ⟨secAbort, ErrFlag.overflow.mask, .errOverflow⟩)
    ∨ (disc = false ∧ a.bufferProgress ≠ 0 ∧ a.bufferProgress + (pkt.drop start).length ≤ bufCap
      ∧ secCont c pkt start disc a = secAccept c ⟨a.buffer ++ pkt.drop start, a.bufferTarget, a.wholeSection⟩) := by
  unfold secCont
  cases disc
  · by_cases h0 : a.bufferProgress = 0
    · exact .inr (.inl ⟨rfl, h0, by simp [h0]⟩)
    · by_cases h1 : bufCap < a.bufferProgress + (pkt.drop start).length
      · exact .inr (.inr (.inl ⟨rfl, h0, h1, by simp only [if_neg h0, if_pos h1]; rfl⟩))
      · exact .inr (.inr (.inr ⟨rfl, h0, by omega, by simp only [if_neg h0, if_neg h1]; rfl⟩))
  · exact .inl ⟨rfl, rfl⟩

/-! ### Steps 3 to 7 -/

/-- What an accepted packet does with its PID's entry, in the order of R152. -/
theorem feedEntry_cases (cls : PidClass) (p : Packet) (e : PidEntry) :
    (p.flags.sc ≠ 0 ∧ feedEntry cls p e = ⟨{ entrySeen e p.flags.cc with scramblingControl := p.flags.sc },
        ErrFlag.disc.maskIf (discontinuityOf e p.flags.cc), .droppedScrambled, discontinuityOf e p.flags.cc, none⟩)
    ∨ (p.flags.sc = 0 ∧ 188 < payloadStartOf p ∧ feedEntry cls p e = ⟨{ entrySeen e p.flags.cc with acc := secAbort },
        ErrFlag.disc.maskIf (discontinuityOf e p.flags.cc) ||| ErrFlag.bounds.mask, .errBounds,
        discontinuityOf e p.flags.cc, none⟩)
    ∨ (p.flags.sc = 0 ∧ payloadStartOf p ≤ 188 ∧ p.flags.afc.getLsbD 0 = false
      ∧ feedEntry cls p e = ⟨entrySeen e p.flags.cc, ErrFlag.disc.maskIf (discontinuityOf e p.flags.cc), .noPayload,
        discontinuityOf e p.flags.cc, some (payloadStartOf p)⟩)
    ∨ (p.flags.sc = 0 ∧ payloadStartOf p ≤ 188 ∧ p.flags.afc.getLsbD 0 = true ∧ cls = .none
      ∧ feedEntry cls p e = ⟨entrySeen e p.flags.cc, ErrFlag.disc.maskIf (discontinuityOf e p.flags.cc), .unrouted,
        discontinuityOf e p.flags.cc, some (payloadStartOf p)⟩)
    ∨ (p.flags.sc = 0 ∧ payloadStartOf p ≤ 188 ∧ p.flags.afc.getLsbD 0 = true ∧ cls = .ecm
      ∧ feedEntry cls p e = ⟨entrySeen e p.flags.cc, ErrFlag.disc.maskIf (discontinuityOf e p.flags.cc),
        .ecmPassthrough, discontinuityOf e p.flags.cc, some (payloadStartOf p)⟩)
    ∨ ∃ c r, p.flags.sc = 0 ∧ payloadStartOf p ≤ 188 ∧ p.flags.afc.getLsbD 0 = true ∧ cls = .sec c
      ∧ r = secFeed c p (payloadStartOf p) (discontinuityOf e p.flags.cc) e.acc
      ∧ feedEntry cls p e = ⟨{ entrySeen e p.flags.cc with acc := r.acc },
        ErrFlag.disc.maskIf (discontinuityOf e p.flags.cc) ||| r.flags, r.status, discontinuityOf e p.flags.cc,
        some (payloadStartOf p)⟩ := by
  by_cases h1 : p.flags.sc = 0
  · by_cases h2 : 188 < payloadStartOf p
    · exact .inr (.inl ⟨h1, h2, by simp [feedEntry, h1, h2]⟩)
    · have h2' : payloadStartOf p ≤ 188 := by omega
      cases h3 : p.flags.afc.getLsbD 0 with
      | false => exact .inr (.inr (.inl ⟨h1, h2', rfl, by
          unfold feedEntry; dsimp only; rw [if_neg (not_not.2 h1), if_neg h2, h3]; rfl⟩))
      | true =>
        cases cls with
        | none => exact .inr (.inr (.inr (.inl ⟨h1, h2', rfl, rfl, by simp [feedEntry, h1, h2, h3]⟩)))
        | ecm => exact .inr (.inr (.inr (.inr (.inl ⟨h1, h2', rfl, rfl, by simp [feedEntry, h1, h2, h3]⟩))))
        | sec c =>
          exact .inr (.inr (.inr (.inr (.inr
            ⟨c, _, h1, h2', rfl, rfl, rfl, by simp [feedEntry, h1, h2, h3, entrySeen]⟩))))
  · exact .inl ⟨h1, if_pos h1⟩

/-- Steps 3 to 7 never write `type` or the link words, and always set `present` and the counter (R152, R154). -/
theorem feedEntry_fixed (cls : PidClass) (p : Packet) (e : PidEntry) :
    (feedEntry cls p e).entry.ty = e.ty ∧ (feedEntry cls p e).entry.programCount = e.programCount
      ∧ (feedEntry cls p e).entry.pidForEcm = e.pidForEcm ∧ (feedEntry cls p e).entry.present = true
      ∧ (feedEntry cls p e).entry.ccValid = true ∧ (feedEntry cls p e).entry.lastCc = p.flags.cc
      ∧ (feedEntry cls p e).discontinuity = discontinuityOf e p.flags.cc := by
  rcases feedEntry_cases cls p e with ⟨_, h⟩ | ⟨_, _, h⟩ | ⟨_, _, _, h⟩ | ⟨_, _, _, _, h⟩ | ⟨_, _, _, _, h⟩ |
    ⟨_, _, _, _, _, _, _, h⟩ <;> rw [h] <;> exact ⟨rfl, rfl, rfl, rfl, rfl, rfl, rfl⟩

/-! ### The whole operation -/

/-- A `TS.FEED` is refused, ends at step 1 or 2, or is accepted (R152). -/
theorem feedAs_cases {cls : PidClass} {p : Packet} {s t : State} (h : feedAs cls p s = .next t) :
    (s.fatal = true ∧ t = s.answer .refusedFatal)
    ∨ (s.fatal = false ∧ s.pendingPid?.isSome = true ∧ t = s.answer .refusedPending)
    ∨ (s.Accepting ∧ p.sync ≠ 0x47 ∧ t = s.error .sync .errSync)
    ∨ (s.Accepting ∧ p.sync = 0x47 ∧ p.flags.tei = true ∧ t = s.error .tei .errTei)
    ∨ (s.Accepting ∧ p.sync = 0x47 ∧ p.flags.tei = false ∧ t = feedAccepted cls p s) := by
  rcases s.unlessFatal_cases h with ⟨hf, ht⟩ | ⟨hf, ht⟩
  · exact .inl ⟨hf, ht⟩
  · cases hp : s.pendingPid? with
    | some q => exact .inr (.inl ⟨hf, by simp, by simpa [hp] using ht⟩)
    | none =>
      by_cases hs : p.sync = 0x47
      · cases hte : p.flags.tei with
        | true => exact .inr (.inr (.inr (.inl ⟨⟨hf, hp⟩, hs, rfl, by simpa [hp, hs, hte] using ht⟩)))
        | false => exact .inr (.inr (.inr (.inr ⟨⟨hf, hp⟩, hs, rfl, by simpa [hp, hs, hte] using ht⟩)))
      · refine .inr (.inr (.inl ⟨⟨hf, hp⟩, hs, ?_⟩))
        rw [hp] at ht
        exact ht.trans (if_pos hs)

/-- An accepted packet without framing error runs steps 3 to 7. -/
theorem feedAs_accepted {cls : PidClass} {p : Packet} {s : State} (ha : s.Accepting) (hs : p.sync = 0x47)
    (ht : p.flags.tei = false) : feedAs cls p s = .next (feedAccepted cls p s) := by
  simp [feedAs, s.unlessFatal_of_live ha.1, ha.2, hs, ht]

/-- What steps 3 to 7 leave, in the terms of the claims. -/
theorem feedAccepted_fedTo (cls : PidClass) (p : Packet) (s : State) :
    FedTo s p cls (feedEntry cls p (s.entry p.pid)).entry (feedEntry cls p (s.entry p.pid)).flags
      (feedEntry cls p (s.entry p.pid)).status (feedEntry cls p (s.entry p.pid)).payloadStart
      (feedAccepted cls p s) where
  entry := by simp [feedAccepted]
  rest :=
    { others := fun q hq => by simp [feedAccepted, State.entry, hq]
      trie := rfl
      hufSealed := rfl
      fatal := rfl
      requests := rfl }
  flags := rfl
  reply := by
    simp only [feedAccepted, State.reply_replies, State.raise_replies, State.setEntry_replies]
    rw [(feedEntry_fixed cls p (s.entry p.pid)).2.2.2.2.2.2]

/-- `SEC.TAKE` is refused, answers `NOT_READY`, or hands the section over (R177). -/
theorem execSecTake_cases {pid : Word16} {s t : State} (h : execSecTake pid s = .next t) :
    (s.fatal = true ∧ t = s.answer .refusedFatal)
    ∨ (s.fatal = false ∧ pidOperand pid = none ∧ t = s.answer .eOperand)
    ∨ ∃ p, s.fatal = false ∧ pidOperand pid = some p
      ∧ (((s.entry p).acc.size = 0 ∧ t = s.answer .notReady)
        ∨ ((s.entry p).acc.size ≠ 0 ∧ t = ((s.setEntry p { s.entry p with
              acc := accTaken (s.classOf p).singleShot (s.entry p).acc }).raise
            (ErrFlag.crc.maskIf (!crcValid (s.entry p).acc.wholeSection))).reply .ok
            (.sectionBytes
              { cls := s.classOf p
                size := (s.entry p).acc.wholeSection.length
                bytes := (s.entry p).acc.wholeSection
                crcOk := crcValid (s.entry p).acc.wholeSection
                deliver := crcValid (s.entry p).acc.wholeSection
                  || !(s.classOf p).crcEnforced Config.epgCrcEnforce }))) := by
  rcases s.unlessFatal_cases h with ⟨hf, ht⟩ | ⟨hf, ht⟩
  · exact .inl ⟨hf, ht⟩
  · cases hp : pidOperand pid with
    | none => exact .inr (.inl ⟨hf, rfl, by simpa [hp] using ht⟩)
    | some p =>
      refine .inr (.inr ⟨p, hf, rfl, ?_⟩)
      by_cases hz : (s.entry p).acc.size = 0
      · exact .inl ⟨hz, by simpa [hp, hz] using ht⟩
      · exact .inr ⟨hz, by simpa [hp, hz] using ht⟩

/-- A PID operand in range is the PID itself. -/
@[simp] theorem pidOperand_setWidth (p : Pid) : pidOperand (p.setWidth 16) = some p := by
  have hp := p.isLt
  have h : (p.setWidth 16).toNat = p.toNat := by simp only [BitVec.toNat_setWidth]; omega
  rw [pidOperand, h, if_pos hp]
  congr 1
  apply BitVec.eq_of_toNat_eq
  simp only [BitVec.toNat_setWidth]
  omega

end Sys2Proof.Machine
end

