-- ==== Sys2Proof/Laws/Trie.lean ====
section
/-! SUPPORT. What the trie's operations do, node by node (spec/41_huffman.md R113, R115): adding a child, setting a value,
the walk, the insertion loop; and the three operations of the unit by cases. -/

namespace Sys2Proof.Machine

variable {t : Trie} {n k m : Nat} {b c : Bool} {symbol code : List Byte}

/-! ### Nodes -/

/-- A node that the store does not hold has no children. -/
theorem childOf_of_length_le (h : t.length ≤ k) : childOf t k c = none := by simp [childOf, h]

/-- A node that the store does not hold has no value. -/
theorem valueOf_of_length_le (h : t.length ≤ k) : valueOf t k = none := by simp [valueOf, h]

theorem TrieNode.child_withChild (nd : TrieNode) (b c : Bool) (m : Nat) :
    (nd.withChild b m).child c = if c = b then some m else nd.child c := by cases b <;> cases c <;> rfl

@[simp] theorem TrieNode.value_withChild (nd : TrieNode) (b : Bool) (m : Nat) : (nd.withChild b m).value = nd.value := by
  cases b <;> rfl

@[simp] theorem length_addChild : (addChild t n b).length = t.length + 1 := by simp [addChild]

/-- Adding a child sets that one link; the new node has no children. -/
theorem childOf_addChild (hn : n < t.length) :
    childOf (addChild t n b) k c = if k = n ∧ c = b then some t.length else childOf t k c := by
  unfold childOf addChild
  rcases Nat.lt_trichotomy k t.length with hk | hk | hk
  · rw [List.getElem?_append_left (by simpa using hk), List.getElem?_modify]
    by_cases hkn : n = k
    · subst hkn
      simp [hk, TrieNode.child_withChild]
    · simp [hkn, Ne.symm hkn]
  · subst hk
    rw [List.getElem?_append_right (by simp)]
    have : (TrieNode.empty.child c) = none := by cases c <;> rfl
    simp [this, Nat.ne_of_gt hn]
  · rw [List.getElem?_eq_none (by simp; omega), List.getElem?_eq_none (by omega), if_neg (by omega)]

/-- The node that is added has no children. -/
theorem childOf_addChild_new (t : Trie) (n : Nat) (b c : Bool) : childOf (addChild t n b) t.length c = none := by
  unfold childOf addChild
  rw [List.getElem?_append_right (by simp)]
  cases c <;> simp [TrieNode.child, TrieNode.empty]

/-- Adding a child changes no value; the new node bears none. -/
@[simp] theorem valueOf_addChild : valueOf (addChild t n b) k = valueOf t k := by
  unfold valueOf addChild
  rcases Nat.lt_trichotomy k t.length with hk | hk | hk
  · rw [List.getElem?_append_left (by simpa using hk), List.getElem?_modify]
    by_cases hkn : n = k
    · subst hkn; simp [hk]
    · simp [hkn]
  · subst hk
    rw [List.getElem?_append_right (by simp)]
    simp [TrieNode.empty]
  · rw [List.getElem?_eq_none (by simp; omega), List.getElem?_eq_none (by omega)]

/-- Setting a node's value changes no link. -/
@[simp] theorem childOf_setValue (v : Option (List Byte)) :
    childOf (t.modify n fun nd => { nd with value := v }) k c = childOf t k c := by
  unfold childOf
  rw [List.getElem?_modify]
  by_cases hkn : n = k
  · subst hkn
    cases t[n]? <;> cases c <;> simp [TrieNode.child]
  · simp [hkn]

/-- Setting a node's value changes that one value. -/
theorem valueOf_setValue (hn : n < t.length) (v : Option (List Byte)) :
    valueOf (t.modify n fun nd => { nd with value := v }) k = if k = n then v else valueOf t k := by
  unfold valueOf
  rw [List.getElem?_modify]
  by_cases hkn : n = k
  · subst hkn; simp [hn]
  · simp [hkn, Ne.symm hkn]

/-! ### The walk and the count of missing nodes -/

@[simp] theorem walkFrom_nil : walkFrom t n [] = some n := rfl

theorem walkFrom_cons (bits : List Bool) :
    walkFrom t n (b :: bits) = (childOf t n b).bind fun m => walkFrom t m bits := by
  rw [walkFrom]; cases childOf t n b <;> rfl

theorem walkFrom_append (xs ys : List Bool) :
    walkFrom t n (xs ++ ys) = (walkFrom t n xs).bind fun m => walkFrom t m ys := by
  induction xs generalizing n with
  | nil => rfl
  | cons b xs ih => rw [List.cons_append, walkFrom_cons, walkFrom_cons]; cases childOf t n b <;> simp [ih]

/-- The path exists exactly when it lacks no node. -/
theorem missingNodes_eq_zero_iff {bits : List Bool} : missingNodes t n bits = 0 ↔ (walkFrom t n bits).isSome = true := by
  induction bits generalizing n with
  | nil => simp [missingNodes]
  | cons b bits ih => rw [missingNodes, walkFrom]; cases childOf t n b <;> simp [ih]

/-- A node without children lacks the whole path. -/
theorem missingNodes_of_leaf (h : ∀ b, childOf t n b = none) (bits : List Bool) : missingNodes t n bits = bits.length := by
  cases bits <;> simp [missingNodes, h]

/-! ### The insertion loop -/

/-- Children are nodes in use (R23). -/
def Trie.InUse (t : Trie) : Prop := ∀ n b m, childOf t n b = some m → m < t.length

theorem Trie.Sound.inUse {P : Config.HufParams} (h : t.Sound P) : t.InUse := fun n b m hm => (h.children n b m hm).2

theorem Trie.InUse.addChild (h : t.InUse) (hn : n < t.length) : (addChild t n b).InUse := by
  intro k c m hm
  rw [childOf_addChild hn] at hm
  rw [length_addChild]
  split at hm
  · cases hm; omega
  · exact Nat.lt_succ_of_lt (h _ _ _ hm)

/-- The insertion creates exactly the nodes the path lacked, in any store. -/
theorem length_insertFrom (t : Trie) (n : Nat) (bits : List Bool) :
    (insertFrom symbol t n bits).length = t.length + missingNodes t n bits := by
  induction bits generalizing t n with
  | nil => simp [insertFrom, missingNodes]
  | cons b bits ih =>
    rw [insertFrom, missingNodes]
    cases hc : childOf t n b with
    | some m => exact ih t m
    | none =>
      have := ih (addChild t n b) t.length
      rw [missingNodes_of_leaf (childOf_addChild_new t n b), length_addChild] at this
      show (insertFrom symbol (addChild t n b) t.length bits).length = t.length + (bits.length + 1)
      omega

/-- Links that were there stay. -/
theorem childOf_insertFrom_of_some (h : t.InUse) (hn : n < t.length) (bits : List Bool) (hm : childOf t k c = some m) :
    childOf (insertFrom symbol t n bits) k c = some m := by
  induction bits generalizing t n with
  | nil => simpa [insertFrom] using hm
  | cons b bits ih =>
    rw [insertFrom]
    cases hc : childOf t n b with
    | some m' => exact ih h (h _ _ _ hc) hm
    | none =>
      refine ih (h.addChild hn) (by simp) ?_
      rw [childOf_addChild hn, if_neg, hm]
      rintro ⟨rfl, rfl⟩
      rw [hc] at hm
      cases hm

/-- Paths that were there lead where they led. -/
theorem walkFrom_insertFrom_of_some (h : t.InUse) (hn : n < t.length) (bits : List Bool) {path : List Bool}
    (hw : walkFrom t k path = some m) : walkFrom (insertFrom symbol t n bits) k path = some m := by
  induction path generalizing k with
  | nil => exact hw
  | cons c path ih =>
    rw [walkFrom_cons] at hw ⊢
    cases hc : childOf t k c with
    | none => rw [hc] at hw; cases hw
    | some j =>
      rw [hc] at hw
      rw [childOf_insertFrom_of_some h hn bits hc]
      exact ih hw

/-- After the insertion the path leads to a node that bears the symbol. -/
theorem walkFrom_insertFrom (h : t.InUse) (hn : n < t.length) (bits : List Bool) :
    ∃ e, walkFrom (insertFrom symbol t n bits) n bits = some e
      ∧ valueOf (insertFrom symbol t n bits) e = some symbol := by
  induction bits generalizing t n with
  | nil => exact ⟨n, rfl, by rw [insertFrom, valueOf_setValue hn, if_pos rfl]⟩
  | cons b bits ih =>
    rw [insertFrom]
    cases hc : childOf t n b with
    | some m =>
      obtain ⟨e, hw, hv⟩ := ih h (h _ _ _ hc)
      exact ⟨e, by rw [walkFrom_cons, childOf_insertFrom_of_some h (h _ _ _ hc) bits hc]; exact hw, hv⟩
    | none =>
      obtain ⟨e, hw, hv⟩ := ih (h.addChild (b := b) hn) (by simp : t.length < (addChild t n b).length)
      refine ⟨e, ?_, hv⟩
      rw [walkFrom_cons, childOf_insertFrom_of_some (m := t.length) (h.addChild hn) (by simp) bits]
      · exact hw
      · rw [childOf_addChild hn, if_pos ⟨rfl, rfl⟩]

/-! ### The operations of the unit -/

/-- What `HUF.INS` and `HUF.VFY` answer `E_FORMAT` to (R72, R113, R115). -/
theorem entryAccepted_eq_false_iff (P : Config.HufParams) (symbol code : List Byte) :
    entryAccepted P symbol code = false ↔
      symbol.length = 0 ∨ P.symMax < symbol.length ∨ code.length = 0 ∨ P.codeMax < code.length
        ∨ ∃ c ∈ code, c ≠ 0x30 ∧ c ≠ 0x31 := by
  have hb : (code.all isBitChar = false) ↔ ∃ c ∈ code, c ≠ 0x30 ∧ c ≠ 0x31 := by simp [isBitChar]
  simp only [entryAccepted, Bool.and_eq_false_iff, hb, Bool.not_eq_false', List.isEmpty_iff, List.length_eq_zero_iff,
    decide_eq_false_iff_not, Nat.not_le]
  constructor
  · rintro ((((h | h) | h) | h) | h)
    · exact .inl h
    · exact .inr (.inr (.inl h))
    · exact .inr (.inr (.inr (.inr h)))
    · exact .inr (.inl h)
    · exact .inr (.inr (.inr (.inl h)))
  · rintro (h | h | h | h | h)
    · exact .inl (.inl (.inl (.inl h)))
    · exact .inl (.inr h)
    · exact .inl (.inl (.inl (.inr h)))
    · exact .inr h
    · exact .inl (.inl (.inr h))

/-- `HUF.INS` outside the `FATAL` state: sealed, ill-formed, exhausted, or inserted (R113). -/
theorem hufInsert_cases (P : Config.HufParams) (symbol code : List Byte) (s : State) :
    (s.hufSealed = true ∧ hufInsert P symbol code s = s.answer .eSealed)
    ∨ (s.hufSealed = false ∧ entryAccepted P symbol code = false
      ∧ hufInsert P symbol code s = s.error .hufDict .eFormat)
    ∨ (s.hufSealed = false ∧ entryAccepted P symbol code = true
      ∧ P.nodeCap < s.trie.length + missingNodes s.trie 0 (codeBits code)
      ∧ hufInsert P symbol code s = { s with fatal := true }.error .capacity .eCapacity)
    ∨ (s.hufSealed = false ∧ entryAccepted P symbol code = true
      ∧ s.trie.length + missingNodes s.trie 0 (codeBits code) ≤ P.nodeCap
      ∧ hufInsert P symbol code s
        = { s with trie := insertFrom symbol s.trie 0 (codeBits code) }.answer .ok) := by
  unfold hufInsert
  cases s.hufSealed
  · cases entryAccepted P symbol code
    · exact .inr (.inl ⟨rfl, rfl, rfl⟩)
    · by_cases h : P.nodeCap < s.trie.length + missingNodes s.trie 0 (codeBits code)
      · exact .inr (.inr (.inl ⟨rfl, rfl, h, by simp [h]⟩))
      · exact .inr (.inr (.inr ⟨rfl, rfl, by omega, by simp [h]⟩))
  · exact .inl ⟨rfl, rfl⟩

/-- `HUF.VFY` outside the `FATAL` state: it answers, and on every answer but `VFY_MATCH` raises the dictionary flag. -/
theorem hufVerify_cases (P : Config.HufParams) (symbol code : List Byte) (s : State) :
    (entryAccepted P symbol code = true ∧ (walkFrom s.trie 0 (codeBits code)).bind (valueOf s.trie) = some symbol
      ∧ hufVerify P symbol code s = s.answer .vfyMatch)
    ∨ ∃ st, st ∈ [Status.eFormat, .vfyMissing, .vfyMismatch] ∧ hufVerify P symbol code s = s.error .hufDict st := by
  unfold hufVerify
  split
  · exact .inr ⟨.eFormat, by simp, rfl⟩
  · rename_i h
    have h' : entryAccepted P symbol code = true := by simpa using h
    split
    · exact .inr ⟨.vfyMissing, by simp, rfl⟩
    · rename_i e he
      split
      · rename_i hv
        exact .inl ⟨h', by simp [he, hv], rfl⟩
      · exact .inr ⟨.vfyMismatch, by simp, rfl⟩

/-- `HUF.DEC` outside the `FATAL` state: an over-long input is refused, every other one is decoded. -/
theorem hufRunDecode_cases (P : Config.HufParams) (data : List Byte) (s : State) :
    (P.inMax < data.length ∧ hufRunDecode P data s = s.answer .eOperand)
    ∨ (data.length ≤ P.inMax ∧ hufRunDecode P data s
        = ({ s with hufSealed := true }.raise (hufFlags (hufDecode P s.trie data))).reply
            (hufStatus (hufDecode P s.trie data)) (.decoded (hufReport (hufDecode P s.trie data)))) := by
  unfold hufRunDecode
  by_cases h : P.inMax < data.length
  · exact .inl ⟨h, if_pos h⟩
  · exact .inr ⟨by omega, if_neg h⟩

end Sys2Proof.Machine
end

