-- ==== Sys2Proof/Laws/Exec.lean ====
section
/-! SUPPORT. The whole operations by cases: for each instruction, every way it can end, as an equation for the state after
it. Proofs over all instructions cite these in place of unfolding the meanings. -/

namespace Sys2Proof.Machine

variable {s t : State} {pid count ecm : Word16} {ty : Byte} {seed : Word32} {data symbol code : List Byte}

/-- Every instruction is a dispatch row, with the packet it feeds, or one of the twelve operations. -/
theorem rowPacket_cases (i : Instr) : (∃ p, i.rowPacket? = some p) ∨ i.rowPacket? = none := by
  cases i.rowPacket? with
  | none => exact .inr rfl
  | some p => exact .inl ⟨p, rfl⟩

theorem exec_reset_cases (h : exec .reset s = .next t) :
    t = { State.reset with requests := s.requests, replies := s.replies }.answer .ok := by
  cases h; rfl

theorem exec_statGet_cases (h : exec .statGet s = .next t) : ∃ r, t = s.reply .ok (.stat r) := by
  cases h; exact ⟨_, rfl⟩

/-- `PID.SETTYPE` is refused, or writes the type of one entry that has no section pending (R201). -/
theorem exec_pidSetType_cases (h : exec (.pidSetType pid ty) s = .next t) :
    (∃ st, t = s.answer st ∧ st ∈ [Status.refusedFatal, .eOperand, .refusedPending])
    ∨ ∃ p ty', s.fatal = false ∧ pidOperand pid = some p ∧ typeOperand ty = some ty' ∧ (s.entry p).acc.size = 0
      ∧ t = (s.setEntry p { s.entry p with ty := ty' }).answer .ok := by
  rcases s.unlessFatal_cases (k := fun s => _) (show execPidSetType pid ty s = _ from h) with ⟨_, ht⟩ | ⟨hf, ht⟩
  · exact .inl ⟨_, ht, by simp⟩
  · cases hp : pidOperand pid with
    | none => exact .inl ⟨.eOperand, by simpa [hp] using ht, by simp⟩
    | some p =>
      cases hy : typeOperand ty with
      | none => exact .inl ⟨.eOperand, by simpa [hp, hy] using ht, by simp⟩
      | some ty' =>
        by_cases hz : (s.entry p).acc.size = 0
        · exact .inr ⟨p, ty', hf, rfl, rfl, hz, by simpa [hp, hy, hz] using ht⟩
        · exact .inl ⟨.refusedPending, by simpa [hp, hy, hz] using ht, by simp⟩

/-- `PID.SETLINK` is refused or writes the link words of one entry (R202). -/
theorem exec_pidSetLink_cases (h : exec (.pidSetLink pid count ecm) s = .next t) :
    (∃ st, t = s.answer st ∧ st ∈ [Status.refusedFatal, .eOperand])
    ∨ ∃ p, s.fatal = false ∧ pidOperand pid = some p
      ∧ t = (s.setEntry p { s.entry p with programCount := count, pidForEcm := ecm }).answer .ok := by
  rcases s.unlessFatal_cases (k := fun s => _) (show execPidSetLink pid count ecm s = _ from h) with ⟨_, ht⟩ | ⟨hf, ht⟩
  · exact .inl ⟨_, ht, by simp⟩
  · cases hp : pidOperand pid with
    | none => exact .inl ⟨.eOperand, by simpa [hp] using ht, by simp⟩
    | some p => exact .inr ⟨p, hf, rfl, by simpa [hp] using ht⟩

/-- `PID.GET` only replies (R203). -/
theorem exec_pidGet_cases (h : exec (.pidGet pid) s = .next t) : ∃ st r, t = s.reply st r := by
  simp only [exec, execPidGet] at h
  split at h <;> cases h <;> exact ⟨_, _, rfl⟩

/-- `CRC.CALC` and `CRC.CHK` only reply (R94, R96). -/
theorem exec_crcCalc_cases (h : exec (.crcCalc seed data) s = .next t) : ∃ st r, t = s.reply st r := by
  rcases s.unlessFatal_cases (k := fun s => _) (show execCrcCalc seed data s = _ from h) with ⟨_, ht⟩ | ⟨_, ht⟩ <;>
    exact ⟨_, _, ht⟩

theorem exec_crcChk_cases (h : exec (.crcChk data) s = .next t) : ∃ st r, t = s.reply st r := by
  rcases s.unlessFatal_cases (k := fun s => _) (show execCrcChk data s = _ from h) with ⟨_, ht⟩ | ⟨_, ht⟩ <;>
    exact ⟨_, _, ht⟩

/-- `HUF.INS` is refused, ill-formed, exhausts the store, or inserts (R113). -/
theorem exec_hufIns_cases (h : exec (.hufIns symbol code) s = .next t) :
    (∃ st, t = s.answer st ∧ st ∈ [Status.refusedFatal, .eSealed])
    ∨ t = s.error .hufDict .eFormat
    ∨ (s.fatal = false ∧ s.hufSealed = false
      ∧ Config.huf.nodeCap < s.trie.length + missingNodes s.trie 0 (codeBits code)
      ∧ t = { s with fatal := true }.error .capacity .eCapacity)
    ∨ (s.fatal = false ∧ s.hufSealed = false ∧ entryAccepted Config.huf symbol code = true
      ∧ s.trie.length + missingNodes s.trie 0 (codeBits code) ≤ Config.huf.nodeCap
      ∧ t = { s with trie := insertFrom symbol s.trie 0 (codeBits code) }.answer .ok) := by
  rcases s.unlessFatal_cases (show execHufIns symbol code s = _ from h) with ⟨_, ht⟩ | ⟨hf, ht⟩
  · exact .inl ⟨_, ht, by simp⟩
  · rcases hufInsert_cases Config.huf symbol code s with ⟨_, h'⟩ | ⟨_, _, h'⟩ | ⟨hs, _, hc, h'⟩ | ⟨hs, ha, hc, h'⟩ <;>
      rw [h'] at ht
    · exact .inl ⟨_, ht, by simp⟩
    · exact .inr (.inl ht)
    · exact .inr (.inr (.inl ⟨hf, hs, hc, ht⟩))
    · exact .inr (.inr (.inr ⟨hf, hs, ha, hc, ht⟩))

/-- `HUF.VFY` only replies, and may raise the dictionary flag (R115). -/
theorem exec_hufVfy_cases (h : exec (.hufVfy symbol code) s = .next t) :
    (∃ st, t = s.answer st ∧ st ∈ [Status.refusedFatal, .vfyMatch])
    ∨ ∃ st, t = s.error .hufDict st ∧ st ∈ [Status.eFormat, .vfyMissing, .vfyMismatch] := by
  rcases s.unlessFatal_cases (show execHufVfy symbol code s = _ from h) with ⟨_, ht⟩ | ⟨_, ht⟩
  · exact .inl ⟨_, ht, by simp⟩
  · rcases hufVerify_cases Config.huf symbol code s with ⟨_, _, h'⟩ | ⟨st, hst, h'⟩ <;> rw [h'] at ht
    · exact .inl ⟨_, ht, by simp⟩
    · exact .inr ⟨st, ht, hst⟩

/-- `HUF.DEC` is refused, or seals the trie, raises the flags of its run and reports it (R117, R123). -/
theorem exec_hufDec_cases (h : exec (.hufDec data) s = .next t) :
    (∃ st, t = s.answer st ∧ st ∈ [Status.refusedFatal, .eOperand])
    ∨ (s.fatal = false ∧ data.length ≤ Config.huf.inMax
      ∧ t = ({ s with hufSealed := true }.raise (hufFlags (hufDecode Config.huf s.trie data))).reply
          (hufStatus (hufDecode Config.huf s.trie data)) (.decoded (hufReport (hufDecode Config.huf s.trie data)))) := by
  rcases s.unlessFatal_cases (show execHufDec data s = _ from h) with ⟨_, ht⟩ | ⟨hf, ht⟩
  · exact .inl ⟨_, ht, by simp⟩
  · rcases hufRunDecode_cases Config.huf data s with ⟨_, h'⟩ | ⟨hl, h'⟩ <;> rw [h'] at ht
    · exact .inl ⟨_, ht, by simp⟩
    · exact .inr ⟨hf, hl, ht⟩

/-- `TS.FEED` by the cases of `feedAs_cases`. -/
theorem exec_tsFeed_cases {p : Packet} (h : exec (.tsFeed p) s = .next t) :
    (s.fatal = true ∧ t = s.answer .refusedFatal)
    ∨ (s.fatal = false ∧ s.pendingPid?.isSome = true ∧ t = s.answer .refusedPending)
    ∨ (s.Accepting ∧ p.sync ≠ 0x47 ∧ t = s.error .sync .errSync)
    ∨ (s.Accepting ∧ p.sync = 0x47 ∧ p.flags.tei = true ∧ t = s.error .tei .errTei)
    ∨ (s.Accepting ∧ p.sync = 0x47 ∧ p.flags.tei = false ∧ t = feedAccepted (s.classOf p.pid) p s) := feedAs_cases h

/-- The class a table-driven row works under is the dispatch's, where its condition gives that class. -/
theorem rowClass_eq {own : PidClass} {condition : Bool} {p : Pid}
    (h : hasFixedRole p = false → condition = true → s.classOf p = own) :
    rowClass own condition p s = s.classOf p := by
  unfold rowClass
  split
  · rename_i hc
    simp only [Bool.and_eq_true, Bool.not_eq_true'] at hc
    exact (h hc.2 hc.1).symm
  · rfl

end Sys2Proof.Machine
end

