-- ==== Sys2Proof/Laws/Huffman.lean ====
section
/-! SUPPORT. The decoding loop, turn by turn (spec/41_huffman.md R118 to R123): what one turn can do, and when the loop
stops. -/

namespace Sys2Proof.Machine

variable {P : Config.HufParams} {t : Trie} {data : List Byte} {d : HufRun}

/-- A turn traces a bit, meets a missing child (token or overflow), or steps to a child that bears no value, or a value
(emission or overflow). -/
theorem hufTurn_cases (P : Config.HufParams) (t : Trie) (data : List Byte) (d : HufRun) :
    (d.corrupt = true ∧ hufTurn P t data d
      = { d with trace := d.trace ++ [traceDigit (streamBit data d.pos)], pos := d.pos + 1 })
    ∨ (d.corrupt = false ∧ childOf t d.node (streamBit data d.pos) = none
      ∧ ((P.textCap < d.text.length + P.token.length ∧ hufTurn P t data d = { d with overflow := true })
        ∨ (d.text.length + P.token.length ≤ P.textCap ∧ hufTurn P t data d
          = { d with text := d.text ++ P.token, corrupt := true, pos := rewindPoint P d })))
    ∨ ∃ m, d.corrupt = false ∧ childOf t d.node (streamBit data d.pos) = some m
      ∧ ((valueOf t m = none ∧ hufTurn P t data d = { d with node := m, pos := d.pos + 1 })
        ∨ ∃ v, valueOf t m = some v
          ∧ ((P.textCap < d.text.length + v.length
              ∧ hufTurn P t data d = { d with node := m, pos := d.pos + 1, overflow := true })
            ∨ (d.text.length + v.length ≤ P.textCap ∧ hufTurn P t data d
              = { d with node := 0, pos := d.pos + 1, text := d.text ++ v, lastOkStart := d.unitStart,
                         unitStart := d.pos + 1 }))) := by
  unfold hufTurn
  cases hc : d.corrupt with
  | true => exact .inl ⟨rfl, by simp [traceTurn, hc]⟩
  | false =>
    cases hm : childOf t d.node (streamBit data d.pos) with
    | none =>
      refine .inr (.inl ⟨rfl, rfl, ?_⟩)
      by_cases h : P.textCap < d.text.length + P.token.length
      · exact .inl ⟨h, by simp [missTurn, h, hc]⟩
      · exact .inr ⟨by omega, by simp [missTurn, h]⟩
    | some m =>
      refine .inr (.inr ⟨m, rfl, rfl, ?_⟩)
      cases hv : valueOf t m with
      | none => exact .inl ⟨rfl, by simp [stepTurn, hv, hc]⟩
      | some v =>
        refine .inr ⟨v, rfl, ?_⟩
        by_cases h : P.textCap < d.text.length + v.length
        · exact .inl ⟨h, by simp [stepTurn, hv, h, hc]⟩
        · exact .inr ⟨by omega, by simp [stepTurn, hv, h, hc]⟩

@[simp] theorem hufLoop_zero : hufLoop P t data 0 d = d := rfl

/-- A loop that goes on takes a turn. -/
theorem hufLoop_succ_of_running {n : Nat} (h : hufRunning data d = true) :
    hufLoop P t data (n + 1) d = hufLoop P t data n (hufTurn P t data d) := by simp [hufLoop, h]

/-- A loop that has ended stays where it is. -/
theorem hufLoop_of_ended (h : hufRunning data d = false) (n : Nat) : hufLoop P t data n d = d := by
  cases n <;> simp [hufLoop, h]

/-- Turns add up. -/
theorem hufLoop_add (m n : Nat) (d : HufRun) :
    hufLoop P t data (m + n) d = hufLoop P t data n (hufLoop P t data m d) := by
  induction m generalizing d with
  | zero => simp
  | succ m ih =>
    cases h : hufRunning data d with
    | true => rw [Nat.succ_add, hufLoop_succ_of_running h, hufLoop_succ_of_running h, ih]
    | false => rw [hufLoop_of_ended h, hufLoop_of_ended h, hufLoop_of_ended h]

/-- The loop goes on while bits are left and nothing overflowed (R123). -/
theorem hufRunning_iff : hufRunning data d = true ↔ d.overflow = false ∧ d.pos < 8 * data.length := by
  simp [hufRunning]

end Sys2Proof.Machine
end

