-- ==== Sys2Proof/Laws/PerInstr.lean ====
section
/-! SUPPORT. Statements made per instruction, about the instruction as syntax: where its request arrives and what its
request begins with (spec/30_encoding.md R61, R70, R77). -/

namespace Sys2Proof.Laws.RequestFrame

/-- The request of an instruction: a dispatch row's is its packet, 188 bytes with the sync byte first, at the packet port;
an operation's begins with the operation's own code, at the command port. -/
def Statement (i : Instr) : Prop :=
  match i.rowPacket? with
  | some p => encode i = ⟨.packet, p.val⟩ ∧ p.sync = 0x47 ∧ (encode i).bytes.length = 188
  | none => (encode i).port = .command
      ∧ ∃ op operands, (encode i).bytes = OpCode.toByte op :: operands ∧ OpCode.ofByte? op.toByte = some op

theorem reset : Statement .reset := ⟨rfl, .reset, _, rfl, by decide⟩
theorem statGet : Statement .statGet := ⟨rfl, .statGet, _, rfl, by decide⟩
theorem pidSetType (pid : Word16) (ty : Byte) : Statement (.pidSetType pid ty) := ⟨rfl, .pidSetType, _, rfl, by decide⟩
theorem pidGet (pid : Word16) : Statement (.pidGet pid) := ⟨rfl, .pidGet, _, rfl, by decide⟩
theorem pidSetLink (pid count ecm : Word16) : Statement (.pidSetLink pid count ecm) :=
  ⟨rfl, .pidSetLink, _, rfl, by decide⟩
theorem tsFeed (pkt : Packet) : Statement (.tsFeed pkt) := ⟨rfl, .tsFeed, _, rfl, by decide⟩
theorem secTake (pid : Word16) : Statement (.secTake pid) := ⟨rfl, .secTake, _, rfl, by decide⟩
theorem crcCalc (seed : Word32) (data : List Byte) : Statement (.crcCalc seed data) := ⟨rfl, .crcCalc, _, rfl, by decide⟩
theorem crcChk (data : List Byte) : Statement (.crcChk data) := ⟨rfl, .crcChk, _, rfl, by decide⟩
theorem hufIns (symbol code : List Byte) : Statement (.hufIns symbol code) := ⟨rfl, .hufIns, _, rfl, by decide⟩
theorem hufVfy (symbol code : List Byte) : Statement (.hufVfy symbol code) := ⟨rfl, .hufVfy, _, rfl, by decide⟩
theorem hufDec (data : List Byte) : Statement (.hufDec data) := ⟨rfl, .hufDec, _, rfl, by decide⟩
theorem tsPat (f : TsFlags) (body : PacketBody) : Statement (.tsPat f body) :=
  ⟨rfl, rfl, (mkPacket 0x0000 f body).property⟩
theorem tsCat (f : TsFlags) (body : PacketBody) : Statement (.tsCat f body) :=
  ⟨rfl, rfl, (mkPacket 0x0001 f body).property⟩
theorem tsSdt11 (f : TsFlags) (body : PacketBody) : Statement (.tsSdt11 f body) :=
  ⟨rfl, rfl, (mkPacket 0x0011 f body).property⟩
theorem tsSdt12 (f : TsFlags) (body : PacketBody) : Statement (.tsSdt12 f body) :=
  ⟨rfl, rfl, (mkPacket 0x0012 f body).property⟩
theorem tsEpg30 (low : BitVec 4) (f : TsFlags) (body : PacketBody) : Statement (.tsEpg30 low f body) :=
  ⟨rfl, rfl, (mkPacket (epg30Pid low) f body).property⟩
theorem tsEpg40 (low : BitVec 5) (f : TsFlags) (body : PacketBody) : Statement (.tsEpg40 low f body) :=
  ⟨rfl, rfl, (mkPacket (epg40Pid low) f body).property⟩
theorem tsEpg60 (low : BitVec 1) (f : TsFlags) (body : PacketBody) : Statement (.tsEpg60 low f body) :=
  ⟨rfl, rfl, (mkPacket (epg60Pid low) f body).property⟩
theorem tsPmt (pid : Pid) (f : TsFlags) (body : PacketBody) : Statement (.tsPmt pid f body) :=
  ⟨rfl, rfl, (mkPacket pid f body).property⟩
theorem tsEcm (pid : Pid) (f : TsFlags) (body : PacketBody) : Statement (.tsEcm pid f body) :=
  ⟨rfl, rfl, (mkPacket pid f body).property⟩
theorem tsNone (pid : Pid) (f : TsFlags) (body : PacketBody) : Statement (.tsNone pid f body) :=
  ⟨rfl, rfl, (mkPacket pid f body).property⟩

end Sys2Proof.Laws.RequestFrame
end

