-- ==== Sys2Proof/Laws/Requests.lean ====
section
/-! SUPPORT. What a step can do, said once, and the requests that are no instruction: their operand lengths, and the
answer's effect field by field (spec/44_host_ops.md R207; log entry 4). -/

namespace Sys2Proof.Machine

theorem ofByte?_toByte (op : OpCode) : OpCode.ofByte? op.toByte = some op := by cases op <;> decide

/-- The operand bytes of a wrong length are those that the decoder takes no operands from. -/
theorem operands?_of_wrongLength {op : OpCode} {bytes : List Byte} (h : WrongLength bytes.length op) :
    operands? op bytes = none := by
  cases op <;> simp only [WrongLength] at h
  case tsFeed => simp [operands?, packet?, h]
  case crcCalc => rcases bytes with _ | ⟨_, _ | ⟨_, _ | ⟨_, _ | ⟨_, _⟩⟩⟩⟩ <;> first | rfl | (simp at h; omega)
  all_goals
    rcases bytes with _ | ⟨_, _ | ⟨_, _ | ⟨_, _ | ⟨_, _ | ⟨_, _ | ⟨_, _ | ⟨_, _⟩⟩⟩⟩⟩⟩⟩ <;>
      first | rfl | exact absurd rfl h

theorem worksWhenFatal_iff (op : OpCode) : worksWhenFatal op = true ↔ op = .reset ∨ op = .statGet ∨ op = .pidGet := by
  cases op <;> decide

/-- A request that is no instruction is answered `REFUSED_FATAL` in the `FATAL` state only, `E_OPERAND` otherwise. -/
theorem rejectStatus_cases (e : DecodeError) (fatal : Bool) :
    rejectStatus e fatal = .eOperand ∨ (fatal = true ∧ rejectStatus e fatal = .refusedFatal) := by
  cases e with
  | noCode => exact .inl rfl
  | unknownCode c => exact .inl rfl
  | badOperands op => cases fatal <;> cases op <;> simp [rejectStatus, worksWhenFatal]

variable (s : State) (e : DecodeError)

@[simp] theorem State.reject_pidtab : (s.reject e).pidtab = s.pidtab := rfl
@[simp] theorem State.reject_trie : (s.reject e).trie = s.trie := rfl
@[simp] theorem State.reject_hufSealed : (s.reject e).hufSealed = s.hufSealed := rfl
@[simp] theorem State.reject_errflags : (s.reject e).errflags = s.errflags := rfl
@[simp] theorem State.reject_fatal : (s.reject e).fatal = s.fatal := rfl
@[simp] theorem State.reject_requests : (s.reject e).requests = s.requests := rfl
@[simp] theorem State.reject_replies :
    (s.reject e).replies = ⟨rejectStatus e s.fatal, .noFields⟩ :: s.replies := rfl

/-- A step that gives a next state waits, performs the instruction of the oldest request, or rejects that request. -/
theorem step_cases {s t : State} (h : step s = .next t) :
    (s.requests = [] ∧ t = s)
    ∨ (∃ r rest i, s.requests = r :: rest ∧ decode s.types r = .instr i ∧ exec i s.take = .next t)
    ∨ ∃ r rest e, s.requests = r :: rest ∧ decode s.types r = .rejected e ∧ t = s.take.reject e := by
  unfold step at h
  split at h
  · rename_i hq
    cases h
    exact .inl ⟨hq, rfl⟩
  · rename_i r rest hq
    split at h <;> rename_i hd
    · exact .inr (.inl ⟨r, rest, _, hq, hd, h⟩)
    · cases h
      exact .inr (.inr ⟨r, rest, _, hq, hd, rfl⟩)

end Sys2Proof.Machine
end

