-- ==== Sys2Proof/Tests/Slice0.lean ====
section
/-! SUPPORT. The model's own tests: ill-formed terms refused, a word of the spec decoded for every constructor, one-step
vectors of spec/95_test_vectors.md, and for each obligation with hypotheses a concrete state and operands that meet them. -/

-- One theorem after another: each kernel evaluation waits for the declarations before it, and elaborating all of them
-- at once would keep a thread with a large stack for each.
set_option Elab.async false

namespace Sys2Proof.Tests

open Sys2Proof.Machine

/-! ### Helpers -/

/-- A packet: the given bytes, then 0xFF to the end. -/
def pkt (bytes : List Byte) : Packet :=
  ⟨(bytes ++ List.replicate 188 0xFF).take 188, by
    rw [List.length_take, List.length_append, List.length_replicate]; omega⟩

/-- 184 bytes after the header: the given bytes, then 0xFF. -/
def rest (bytes : List Byte) : PacketBody :=
  ⟨(bytes ++ List.replicate 184 0xFF).take 184, by
    rw [List.length_take, List.length_append, List.length_replicate]; omega⟩

/-- What a test looks at: the newest reply, the flags, one entry; after one instruction. -/
def after (i : Instr) (s : State) (p : Pid) : Option (Option Reply × Word16 × PidEntry) :=
  match exec i s with
  | .next t => some (t.replies.head?, t.errflags, t.entry p)
  | .fault _ => none
  | .refused _ => none

/-- The reset state with one entry. -/
def withEntry (p : Pid) (e : PidEntry) : State := State.reset.setEntry p e

/-- An entry that was seen with counter 0 and holds the given accumulator. -/
def seenEntry (ty : PidType) (acc : Acc) : PidEntry :=
  { PidEntry.reset with present := true, ty := ty, ccValid := true, acc := acc }

/-- PAT24 of section 5. -/
def pat24 : List Byte :=
  [0x00, 0xB0, 0x15, 0x00, 0x01, 0xC1, 0x00, 0x00, 0x00, 0x00, 0xE0, 0x10, 0x00, 0x01, 0xE1, 0x00, 0x00, 0x02, 0xE2, 0x00,
    0xEC, 0x0A, 0xFE, 0xBC]

/-- The open parameters as the vectors use them. -/
def testParams : Config.HufParams := ⟨64, 16, 32, 64, 256, [0x3C, 0x3F, 0x3E], .lastOkUnitStart⟩

/-- The trie of DICT1, node by node as section 3 lists it. -/
def dict1 : Trie :=
  [⟨none, some 1, some 6⟩, ⟨none, some 5, some 2⟩, ⟨none, some 3, some 4⟩, ⟨some [0x41], none, none⟩,
    ⟨some [0x42], none, none⟩, ⟨some [0x43], none, none⟩, ⟨none, some 7, some 8⟩, ⟨some [0x20], none, none⟩,
    ⟨none, some 9, none⟩, ⟨some [0x74, 0x68, 0x65], none, none⟩]

/-- The bit characters of a code. -/
def bits (l : List Bool) : List Byte := l.map fun b => if b then 0x31 else 0x30

/-! ### Ill-formed terms are refused, one for each check -/

theorem test_wellFormed_pid : (Instr.pidGet 0x2000).wellFormed = false := by decide
theorem test_wellFormed_type : (Instr.pidSetType 0x0100 13).wellFormed = false := by decide
theorem test_wellFormed_symbol : (Instr.hufIns [] [0x30]).wellFormed = false := by decide
theorem test_wellFormed_code_empty : (Instr.hufVfy [0x41] []).wellFormed = false := by decide
theorem test_wellFormed_code_chars : (Instr.hufIns [0x41] [0x30, 0x32]).wellFormed = false := by decide
theorem test_wellFormed_row : (Instr.tsNone 0x0061 ⟨false, false, false, 0, 1, 0⟩ (rest [])).wellFormed = false := by decide
theorem test_wellFormed_accepts :
    (Instr.pidSetType 0x1FFF 12).wellFormed = true ∧ (Instr.tsPmt 0x0062 ⟨false, false, false, 0, 1, 0⟩ (rest [])).wellFormed
      = true := by decide

/-! ### A word of the spec for every constructor

The codes are R77's, the header bytes R62's and section 4's, the rows R70's. -/

/-- A request at the command port, no PID typed. -/
def decoded (bytes : List Byte) : Decoded := decode (fun _ => .none) ⟨.command, bytes⟩

/-- A request at the packet port; PID 0x0100 typed `PMT`, PID 0x01FF typed `CA_ECM`. -/
def dispatched (bytes : List Byte) : Decoded :=
  decode (fun p => if p = 0x0100 then .pmt else if p = 0x01FF then .caEcm else .none) ⟨.packet, (pkt bytes).val⟩

theorem test_decode_reset : decoded [0x01] = .instr .reset := by decide
theorem test_decode_statGet : decoded [0x02] = .instr .statGet := by decide
theorem test_decode_pidSetType : decoded [0x10, 0x01, 0x00, 0x02] = .instr (.pidSetType 0x0100 2) := by decide
theorem test_decode_pidGet : decoded [0x11, 0x1F, 0xFF] = .instr (.pidGet 0x1FFF) := by decide
theorem test_decode_pidSetLink :
    decoded [0x12, 0x01, 0x00, 0x00, 0x01, 0xFF, 0xFE] = .instr (.pidSetLink 0x0100 0x0001 0xFFFE) := by decide
theorem test_decode_tsFeed : decoded (0x20 :: (pkt [0x46]).val) = .instr (.tsFeed (pkt [0x46])) := by decide +kernel
theorem test_decode_secTake : decoded [0x21, 0x00, 0x11] = .instr (.secTake 0x0011) := by decide
theorem test_decode_crcCalc : decoded [0x30, 0xFF, 0xFE, 0xFD, 0xFC, 0x31] = .instr (.crcCalc 0xFFFEFDFC [0x31]) := by decide
theorem test_decode_crcChk : decoded [0x31, 0x00, 0xB0] = .instr (.crcChk [0x00, 0xB0]) := by decide
theorem test_decode_hufIns :
    decoded [0x40, 0x3D, 0x3D, 0x30, 0x31] = .instr (.hufIns [0x3D] [0x30, 0x31]) := by decide
theorem test_decode_hufVfy : decoded [0x41, 0x41, 0x3D, 0x30] = .instr (.hufVfy [0x41] [0x30]) := by decide
theorem test_decode_hufDec : decoded [0x42, 0x14, 0xC0] = .instr (.hufDec [0x14, 0xC0]) := by decide
theorem test_decode_tsPat :
    dispatched [0x47, 0x40, 0x00, 0x10] = .instr (.tsPat ⟨false, true, false, 0, 1, 0⟩ (rest [])) := by decide +kernel
theorem test_decode_tsCat :
    dispatched [0x47, 0xA0, 0x01, 0x4F] = .instr (.tsCat ⟨true, false, true, 1, 0, 15⟩ (rest [])) := by decide +kernel
theorem test_decode_tsSdt11 :
    dispatched [0x47, 0x00, 0x11, 0x1A] = .instr (.tsSdt11 ⟨false, false, false, 0, 1, 10⟩ (rest [])) := by decide +kernel
theorem test_decode_tsSdt12 :
    dispatched [0x47, 0x00, 0x12, 0x9C] = .instr (.tsSdt12 ⟨false, false, false, 2, 1, 12⟩ (rest [])) := by decide +kernel
theorem test_decode_tsEpg30 :
    dispatched [0x47, 0x60, 0x3F, 0x37] = .instr (.tsEpg30 15 ⟨false, true, true, 0, 3, 7⟩ (rest [])) := by decide +kernel
theorem test_decode_tsEpg40 :
    dispatched [0x47, 0x00, 0x5E, 0x10] = .instr (.tsEpg40 30 ⟨false, false, false, 0, 1, 0⟩ (rest [])) := by decide +kernel
theorem test_decode_tsEpg60 :
    dispatched [0x47, 0x00, 0x61, 0x10] = .instr (.tsEpg60 1 ⟨false, false, false, 0, 1, 0⟩ (rest [])) := by decide +kernel
theorem test_decode_tsPmt :
    dispatched [0x47, 0x01, 0x00, 0x9C] = .instr (.tsPmt 0x0100 ⟨false, false, false, 2, 1, 12⟩ (rest [])) := by
  decide +kernel
theorem test_decode_tsEcm :
    dispatched [0x47, 0x41, 0xFF, 0x13] = .instr (.tsEcm 0x01FF ⟨false, true, false, 0, 1, 3⟩ (rest [])) := by
  decide +kernel
theorem test_decode_tsNone :
    dispatched [0x47, 0x5F, 0xFE, 0xFF] = .instr (.tsNone 0x1FFE ⟨false, true, false, 3, 3, 15⟩ (rest [])) := by
  decide +kernel

/-- R207: codes that are none of the twelve, and frames of the wrong length, are rejected by name. -/
theorem test_decode_rejects :
    decoded [0x7F] = .rejected (.unknownCode 0x7F) ∧ decoded [] = .rejected .noCode
      ∧ decoded [0x10, 0x01, 0x00] = .rejected (.badOperands .pidSetType)
      ∧ decoded [0x20, 0x47] = .rejected (.badOperands .tsFeed) := by decide

/-- The bit numbering of spec/opcode_table.json: a header word's most significant byte is the packet's first. -/
theorem test_table_word :
    decodeTableWord 8 0x11 = some (.pidGet 0)
      ∧ (decodeTableWord 32 0x47001134).map encode
        = some ⟨.packet, [0x47, 0x00, 0x11, 0x34] ++ List.replicate 184 0⟩ := by decide +kernel

/-- The first step after reset runs the word that `withFetchWord` placed: O1, and the header of row `TS.SDT.12`. -/
theorem test_first_step :
    (match step (State.reset.withFetchWord 8 0x02) with
      | .next t => some t.replies
      | .fault _ => none
      | .refused _ => none) = some [⟨.ok, .stat ⟨0, false, false, 1, false, 0⟩⟩]
    ∧ (match step (State.reset.withFetchWord 32 0x47001200) with
      | .next t => some t.replies
      | .fault _ => none
      | .refused _ => none) = some [⟨.noPayload, .feed ⟨0x0012, .sec .sdt, false, some 4, false⟩⟩] := by decide +kernel

/-- The same for the three dictionary words, whose open parameters do not matter here. -/
theorem test_first_step_huffman :
    [0x40, 0x41, 0x42].map (fun w =>
      match step (State.reset.withFetchWord 8 w) with
      | .next t => t.replies.map Reply.status
      | .fault _ => []
      | .refused _ => []) = [[.eFormat], [.eFormat], [.ok]] := by decide +kernel

/-! ### One-step vectors of spec/95_test_vectors.md -/

/-- O1 and the end of O8: `RESET` in the `FATAL` state. -/
theorem test_reset :
    exec .reset { State.reset with fatal := true, errflags := 0x0100, trie := dict1, hufSealed := true }
      = .next { State.reset with replies := [⟨.ok, .noFields⟩] } := rfl

/-- A12: `STAT.GET` with a pending PID; O8: with `FATAL = 1`. -/
theorem test_statGet :
    (after .statGet (withEntry 0x0011 (seenEntry .none ⟨[], 0, pat24⟩)) 0).map Prod.fst
        = some (some ⟨.ok, .stat ⟨0, false, false, 1, true, 0x0011⟩⟩)
    ∧ (after .statGet { State.reset with fatal := true, errflags := 0x0100 } 0).map Prod.fst
        = some (some ⟨.ok, .stat ⟨0x0100, true, false, 1, false, 0⟩⟩) := by decide

/-- O2 and O4: the type is written and nothing else. -/
theorem test_pidSetType :
    after (.pidSetType 0x0100 2) State.reset 0x0100
      = some (some ⟨.ok, .noFields⟩, 0, { PidEntry.reset with ty := .pmt }) := by decide

/-- O3; A12: only the pending PID is protected. -/
theorem test_pidSetType_refused :
    (after (.pidSetType 0x0100 13) State.reset 0).map Prod.fst = some (some ⟨.eOperand, .noFields⟩)
    ∧ [0x0000, 0x0100].map (fun pid =>
        (after (.pidSetType pid 0) (withEntry 0 (seenEntry .none ⟨[], 0, pat24⟩)) 0).map fun r => r.1.map Reply.status)
      = [some (some .refusedPending), some (some .ok)] := by decide

/-- O1 and the class of O5. -/
theorem test_pidGet :
    (after (.pidGet 0x1FFF) State.reset 0).map Prod.fst
        = some (some ⟨.ok, .entry ⟨false, .none, 0xFFFF, 0xFFFF, false, 0, 0, 0, 0, 0, .none⟩⟩)
    ∧ (after (.pidGet 0x01FF) (withEntry 0x01FF { PidEntry.reset with ty := .caEcm }) 0).map Prod.fst
        = some (some ⟨.ok, .entry ⟨false, .caEcm, 0xFFFF, 0xFFFF, false, 0, 0, 0, 0, 0, .ecm⟩⟩) := by decide

/-- O6 with different words: each goes to its own field. -/
theorem test_pidSetLink :
    after (.pidSetLink 0x0200 0x0001 0x01FF) State.reset 0x0200
      = some (some ⟨.ok, .noFields⟩, 0, { PidEntry.reset with programCount := 0x0001, pidForEcm := 0x01FF }) := by decide

/-- A1: a PAT in one packet completes; 159 stuffing bytes stay. -/
theorem test_tsFeed_complete :
    after (.tsFeed (pkt ([0x47, 0x40, 0x00, 0x10, 0x00] ++ pat24))) State.reset 0
      = some (some ⟨.fedComplete, .feed ⟨0, .sec .pat, false, some 4, true⟩⟩, 0,
          { PidEntry.reset with
            present := true, ccValid := true, acc := ⟨List.replicate 159 0xFF, 0, pat24⟩ }) := by decide +kernel

/-- T4: bounds; T7: the latch; T16's second packet: a repeated counter. -/
theorem test_tsFeed_paths :
    after (.tsFeed (pkt [0x47, 0x60, 0x30, 0x37])) State.reset 0x0030
      = some (some ⟨.errBounds, .feed ⟨0x0030, .sec .epg, false, none, false⟩⟩, 0x0004,
          { PidEntry.reset with present := true, ccValid := true, lastCc := 7 })
    ∧ after (.tsFeed (pkt [0x47, 0x01, 0x00, 0x9C])) (withEntry 0x0100 { PidEntry.reset with ty := .pmt }) 0x0100
      = some (some ⟨.droppedScrambled, .feed ⟨0x0100, .sec .pmt, false, none, false⟩⟩, 0,
          { PidEntry.reset with present := true, ty := .pmt, ccValid := true, lastCc := 12, scramblingControl := 2 })
    ∧ after (.tsFeed (pkt [0x47, 0x00, 0x11, 0x15])) (withEntry 0x0011 { seenEntry .none Acc.reset with lastCc := 5 }) 0x0011
      = some (some ⟨.abortedDiscontinuity, .feed ⟨0x0011, .sec .sdt, true, some 4, false⟩⟩, 0x0008,
          { seenEntry .none Acc.reset with lastCc := 5 }) := by decide +kernel

/-- A1's take: single-shot, the tail is dropped. A8's: `SDT` keeps it. -/
theorem test_secTake :
    after (.secTake 0) (withEntry 0 (seenEntry .none ⟨[0xFF, 0xFF], 0, pat24⟩)) 0
      = some (some ⟨.ok, .sectionBytes ⟨.sec .pat, 24, pat24, true, true⟩⟩, 0, seenEntry .none Acc.reset)
    ∧ after (.secTake 0x0011)
        (withEntry 0x0011 (seenEntry .none ⟨[0xFF, 0xFE], 0, [0x42, 0xB0, 0x05, 0x03, 0xFA, 0xBA, 0xB8, 0x4B]⟩)) 0x0011
      = some (some ⟨.ok, .sectionBytes
          ⟨.sec .sdt, 8, [0x42, 0xB0, 0x05, 0x03, 0xFA, 0xBA, 0xB8, 0x4B], true, true⟩⟩, 0,
          seenEntry .none ⟨[0xFF, 0xFE], 0, []⟩) := by decide +kernel

/-- A13: one bit flipped, the flag is set and the section is not to be delivered; A16: nothing to take. -/
theorem test_secTake_mismatch :
    (after (.secTake 0) (withEntry 0 (seenEntry .none ⟨[], 0, pat24.set 12 0x10⟩)) 0).map
        (fun r => (r.1.map Reply.result, r.2.1))
      = some (some (.sectionBytes ⟨.sec .pat, 24, pat24.set 12 0x10, false, false⟩), 0x0020)
    ∧ (after (.secTake 0x0011) State.reset 0).map Prod.fst = some (some ⟨.notReady, .noFields⟩) := by decide +kernel

/-- CV2, CV7, CV8, CV10: `CRC.CALC`. -/
theorem test_crcCalc :
    [((0xFFFFFFFF : Word32), [0x00]), (0xFFFFFFFF, [0x31, 0x32, 0x33, 0x34, 0x35, 0x36, 0x37, 0x38, 0x39]),
        (0, [0x31, 0x32, 0x33, 0x34, 0x35, 0x36, 0x37, 0x38, 0x39]), (0, [0x01])].map
      (fun c => (after (.crcCalc c.1 c.2) State.reset 0).map Prod.fst)
      = [0x4E08BFB4, 0x0376E6E7, 0x89A1897F, 0x04C11DB7].map fun r => some (some ⟨.ok, .crcValue r⟩) := by decide +kernel

/-- CV13 to CV17: `CRC.CHK`; a mismatch sets no flag. -/
theorem test_crcChk :
    [pat24, pat24.set 9 0x01, [0, 0, 0], [0xFF, 0xFF, 0xFF, 0xFF], [0, 0, 0, 0]].map
      (fun d => (after (.crcChk d) State.reset 0).map fun r => (r.1, r.2.1))
      = [true, false, false, true, false].map fun r => some (some ⟨.ok, .crcCheck r⟩, 0) := by decide +kernel

/-- H1: nodes 1, 2, 3 are created; the last entry of DICT1 gives the trie of section 3. -/
theorem test_hufIns :
    (hufInsert testParams [0x41] (bits [false, true, false]) State.reset).trie
      = [⟨none, some 1, none⟩, ⟨none, none, some 2⟩, ⟨none, some 3, none⟩, ⟨some [0x41], none, none⟩]
    ∧ (hufInsert testParams [0x74, 0x68, 0x65] (bits [true, true, false])
        { State.reset with trie := (dict1.take 8).modify 6 fun n => { n with oneChild := none } }).trie = dict1 := by decide

/-- H22, H23, H24: ill-formed, exhausted, sealed. -/
theorem test_hufIns_errors :
    hufInsert testParams [] (bits [false]) State.reset = State.reset.error .hufDict .eFormat
    ∧ hufInsert { testParams with nodeCap := 3 } [0x42] (bits [false, true, false])
        { State.reset with trie := [⟨none, some 1, none⟩, ⟨none, some 2, none⟩, ⟨some [0x41], none, none⟩] }
      = { State.reset with
          trie := [⟨none, some 1, none⟩, ⟨none, some 2, none⟩, ⟨some [0x41], none, none⟩], fatal := true,
          errflags := 0x0100, replies := [⟨.eCapacity, .noFields⟩] }
    ∧ (hufInsert testParams [0x51] (bits [true]) { State.reset with hufSealed := true }).replies
      = [⟨.eSealed, .noFields⟩] := by decide

/-- H2 to H7. -/
theorem test_hufVfy :
    [([0x41], [false, true, false]), ([0x74, 0x68, 0x65], [true, true, false]), ([0x58], [false, true, false]),
        ([0x41], [false, true, false, true]), ([0x41], [false, true]), ([0x5A], [true, true, true])].map
      (fun c : List Byte × List Bool =>
        let t := hufVerify testParams c.1 (bits c.2) { State.reset with trie := dict1 }
        (t.replies.map Reply.status, t.errflags))
      = [([.vfyMatch], 0), ([.vfyMatch], 0), ([.vfyMismatch], 0x0080), ([.vfyMissing], 0x0080), ([.vfyMismatch], 0x0080),
          ([.vfyMissing], 0x0080)] := by decide

/-- H9, H10, H12, H13, H15, H17: text and trace. -/
theorem test_hufDec :
    [[0x14, 0xC0], [0xD4, 0xC0], [0x13], [0x11], [0x17], [0x13, 0xE0]].map
      (fun d => let r := hufDecode testParams dict1 d; (r.text, r.trace))
      = [([0x41, 0x20, 0x42, 0x43, 0x43, 0x43], []), ([0x41, 0x20, 0x42, 0x43, 0x43, 0x43], []), ([0x41, 0x42], []),
          ([0x41, 0x43], []), ([0x41, 0x3C, 0x3F, 0x3E], [0x30, 0x31, 0x30, 0x31, 0x31, 0x31]),
          ([0x41, 0x42, 0x3C, 0x3F, 0x3E],
            [0x30, 0x31, 0x31, 0x31, 0x31, 0x31, 0x30, 0x30, 0x30, 0x30, 0x30])] := by decide +kernel

/-- H15's other rewind point; H25 and H26: the text capacity; H27: the input capacity. -/
theorem test_hufDec_limits :
    (hufDecode { testParams with resync := .failedUnitStart } dict1 [0x17]).trace = [0x31, 0x31, 0x31]
    ∧ (hufDecode { testParams with textCap := 4 } dict1 [0x30, 0x80]).result
      = ⟨[0x74, 0x68, 0x65, 0x43], [], false, true⟩
    ∧ (hufDecode { testParams with textCap := 3 } dict1 [0x17]).result = ⟨[0x41], [], false, true⟩
    ∧ hufRunDecode testParams (List.replicate 65 0) State.reset = State.reset.answer .eOperand := by decide +kernel

/-- The rows on packets whose header they match: class and status of each (R70; T11 for `TS.ECM`, T10 for `TS.NONE`). -/
theorem test_rows :
    [Instr.tsPat ⟨false, true, false, 0, 1, 0⟩ (rest [0x00]), .tsCat ⟨false, false, false, 0, 1, 0⟩ (rest [0x00]),
        .tsSdt11 ⟨false, true, false, 0, 1, 0⟩ (rest [0xB8]), .tsSdt12 ⟨false, false, false, 0, 2, 0⟩ (rest [0x00]),
        .tsEpg30 0 ⟨false, false, false, 1, 1, 0⟩ (rest []), .tsEpg40 31 ⟨false, true, false, 0, 1, 0⟩ (rest [0x00]),
        .tsEpg60 1 ⟨true, false, false, 0, 1, 0⟩ (rest []), .tsPmt 0x0100 ⟨false, true, false, 0, 1, 0⟩ (rest [0x00]),
        .tsEcm 0x01FF ⟨false, true, false, 0, 1, 3⟩ (rest []), .tsNone 0x0101 ⟨false, false, false, 0, 1, 0⟩ (rest [])].map
      (fun i =>
        (after i ((withEntry 0x0100 { PidEntry.reset with ty := .pmt }).setEntry 0x01FF { PidEntry.reset with ty := .caEcm })
          0).map fun r => r.1)
      = [some (some ⟨.fed, .feed ⟨0x0000, .sec .pat, false, some 4, false⟩⟩),
          some (some ⟨.ignoredWaiting, .feed ⟨0x0001, .sec .cat, false, some 4, false⟩⟩),
          some (some ⟨.errBounds, .feed ⟨0x0011, .sec .sdt, false, some 4, false⟩⟩),
          some (some ⟨.noPayload, .feed ⟨0x0012, .sec .sdt, false, some 5, false⟩⟩),
          some (some ⟨.droppedScrambled, .feed ⟨0x0030, .sec .epg, false, none, false⟩⟩),
          some (some ⟨.fed, .feed ⟨0x005F, .sec .epg, false, some 4, false⟩⟩), some (some ⟨.errTei, .noFields⟩),
          some (some ⟨.fed, .feed ⟨0x0100, .sec .pmt, false, some 4, false⟩⟩),
          some (some ⟨.ecmPassthrough, .feed ⟨0x01FF, .ecm, false, some 4, false⟩⟩),
          some (some ⟨.unrouted, .feed ⟨0x0101, .none, false, some 4, false⟩⟩)] := by decide +kernel

/-! ### Witnesses

For each obligation with hypotheses: a concrete state and operands that meet them together, clause by clause. -/

/-- The state after an instruction. -/
def nextState : Host.Outcome State Fault Refusal → State
  | .next t => t
  | .fault _ => State.reset
  | .refused _ => State.reset

/-- Whether an outcome is a next state. -/
def isNext : Host.Outcome State Fault Refusal → Bool
  | .next _ => true
  | .fault _ => false
  | .refused _ => false

theorem next_of_isNext {o : Host.Outcome State Fault Refusal} (h : isNext o = true) : o = .next (nextState o) := by
  cases o with
  | next t => rfl
  | fault r => cases h
  | refused r => cases h

theorem unlessFatal_isNext (s : State) (k : State → State) : isNext (s.unlessFatal k) = true := by
  unfold State.unlessFatal
  split <;> rfl

theorem tsFeed_runs (p : Packet) (s : State) : isNext (exec (.tsFeed p) s) = true := by
  rw [exec, execTsFeed, feedAs]; exact unlessFatal_isNext s _
theorem secTake_runs (pid : Word16) (s : State) : isNext (exec (.secTake pid) s) = true := by
  rw [exec, execSecTake]; exact unlessFatal_isNext s _
theorem hufIns_runs (symbol code : List Byte) (s : State) : isNext (exec (.hufIns symbol code) s) = true :=
  unlessFatal_isNext s _
theorem hufDec_runs (data : List Byte) (s : State) : isNext (exec (.hufDec data) s) = true := unlessFatal_isNext s _

/-- An instruction whose outcome is a next state has one. -/
theorem ran {i : Instr} {s : State} (h : isNext (exec i s) = true) : ∃ t, exec i s = .next t := ⟨_, next_of_isNext h⟩

theorem accepting_reset : State.reset.Accepting := ⟨rfl, rfl⟩

/-- A state that holds a completed section of PID 0x0011. -/
def pendingState : State := withEntry 0x0011 (seenEntry .none ⟨[0xFF], 0, pat24⟩)

/-- The `FATAL` state. -/
def fatalState : State := { State.reset with fatal := true, errflags := 0x0100 }

/-- A store with every node used and none linked. -/
def fullStore : State := { State.reset with trie := List.replicate Config.huf.nodeCap TrieNode.empty }

/-- A store of one node whose path `0` leads back to it, so that an insertion at `0` needs no node. -/
def loopStore : State := { State.reset with trie := [⟨none, some 0, none⟩] }

theorem accepted_one_bit : entryAccepted Config.huf [0x41] [0x30] = true := by
  by_contra h
  have := (entryAccepted_eq_false_iff Config.huf [0x41] [0x30]).1 (by simpa using h)
  simp [Config.huf] at this

theorem nodeCap_pos : 1 ≤ Config.huf.nodeCap := by simp [Config.huf]

theorem fullStore_lacks : missingNodes fullStore.trie 0 (codeBits [0x30]) = 1 := by
  have : childOf fullStore.trie 0 false = none := by
    unfold childOf fullStore
    by_cases h : 0 < Config.huf.nodeCap <;> simp [h, TrieNode.child, TrieNode.empty]
  show missingNodes fullStore.trie 0 [false] = 1
  simp [missingNodes, this]

theorem witness_DispatchFollowsMatchAndMask :
    ∀ pid ∈ [(0x0000 : Pid), 0x0001, 0x0002, 0x0011, 0x0012, 0x0013, 0x002F, 0x0030, 0x003F, 0x0040, 0x005F, 0x0060, 0x0061,
      0x0062, 0x1FFF], ∃ p : Packet, p.sync = 0x47 ∧ p.pid = pid :=
  fun pid _ => ⟨mkPacket pid ⟨false, false, false, 0, 1, 0⟩ (rest []), rfl, mkPacket_pid _ _ _⟩

theorem witness_DecodeOfEncode :
    ∀ i ∈ [Instr.reset, .statGet, .pidSetType 0x1FFF 12, .pidGet 0x1FFF, .pidSetLink 0x1FFF 0xFFFF 1, .tsFeed (pkt []),
        .secTake 0x1FFF, .crcCalc 0xFFFFFFFF [], .crcChk [], .hufIns [0x3D] [0x30], .hufVfy [0x3D] [0x31], .hufDec [],
        .tsPat ⟨true, true, true, 3, 3, 15⟩ (rest []), .tsCat ⟨false, false, false, 0, 0, 0⟩ (rest []),
        .tsSdt11 ⟨false, false, false, 0, 0, 0⟩ (rest []), .tsSdt12 ⟨false, false, false, 0, 0, 0⟩ (rest []),
        .tsEpg30 15 ⟨false, false, false, 0, 0, 0⟩ (rest []), .tsEpg40 31 ⟨false, false, false, 0, 0, 0⟩ (rest []),
        .tsEpg60 1 ⟨false, false, false, 0, 0, 0⟩ (rest []), .tsPmt 0x0100 ⟨false, false, false, 0, 0, 0⟩ (rest []),
        .tsEcm 0x01FF ⟨false, false, false, 0, 0, 0⟩ (rest []), .tsNone 0x0062 ⟨false, false, false, 0, 0, 0⟩ (rest [])],
      i.wellFormed = true
        ∧ i.tableCondition (fun p => if p = 0x0100 then .pmt else if p = 0x01FF then .caEcm else .none) = true := by
  decide

theorem witness_EncodeOfDecode :
    (decoded [0x11, 0x1F, 0xFF] = .instr (.pidGet 0x1FFF) ∧ (Instr.pidGet 0x1FFF).wellFormed = true)
    ∧ dispatched [0x47, 0x00, 0x62] = .instr (.tsNone 0x0062 ⟨false, false, false, 3, 3, 15⟩ (rest []))
    ∧ (Instr.tsNone 0x0062 ⟨false, false, false, 3, 3, 15⟩ (rest [])).wellFormed = true
    ∧ (pkt [0x47, 0x00, 0x62]).val.head? = some 0x47 := by decide +kernel

theorem witness_StepRunsDecodedInstruction :
    ({ State.reset with requests := [⟨.command, [0x02]⟩] }).requests = ⟨.command, [0x02]⟩ :: []
    ∧ decode State.reset.types ⟨.command, [0x02]⟩ = .instr .statGet := by decide

theorem witness_StepWithoutRequestWaits : State.reset.requests = [] := rfl

theorem witness_IllegalRequestsAreRefused :
    let queued (r : Request) : State := { State.reset with requests := [r] }
    ((∀ op : OpCode, op.toByte ≠ 0x7F) ∧ (queued ⟨.command, [0x7F]⟩).requests = ⟨.command, 0x7F :: []⟩ :: [])
    ∧ (queued ⟨.command, []⟩).requests = ⟨.command, []⟩ :: []
    ∧ (WrongLength [(0 : Byte)].length .pidGet
        ∧ (queued ⟨.command, [0x11, 0]⟩).requests = ⟨.command, OpCode.pidGet.toByte :: [0]⟩ :: [])
    ∧ (WrongLength [(0 : Byte), 0, 0].length .crcCalc
        ∧ { fatalState with requests := [⟨.command, [0x30, 0, 0, 0]⟩] }.requests
          = ⟨.command, OpCode.crcCalc.toByte :: [0, 0, 0]⟩ :: [])
    ∧ (WrongLength (List.replicate 187 (0 : Byte)).length .tsFeed ∧ (List.replicate 189 (0x47 : Byte)).length ≠ 188
        ∧ (queued ⟨.packet, List.replicate 189 0x47⟩).requests = ⟨.packet, List.replicate 189 0x47⟩ :: [])
    ∧ 0x1FFF < (0x2000 : Word16).toNat ∧ 12 < (13 : Byte).toNat
    ∧ Config.huf.inMax < (List.replicate (Config.huf.inMax + 1) (0 : Byte)).length :=
  ⟨⟨fun op => by cases op <;> decide, rfl⟩, rfl, ⟨by simp [WrongLength], rfl⟩, ⟨by simp [WrongLength], rfl⟩,
    ⟨by show (List.replicate 187 (0 : Byte)).length ≠ 188; rw [List.length_replicate]; decide,
      by rw [List.length_replicate]; decide, rfl⟩, by decide, by decide, by rw [List.length_replicate]; omega⟩

/-- R207, log entry 4: a request of the wrong length is answered after `REFUSED_FATAL` where its operation is refused in
the `FATAL` state. -/
theorem test_wrong_length_replies :
    [(State.reset, Request.mk .command [0x11, 0]), (fatalState, ⟨.command, [0x11, 0]⟩), (State.reset, ⟨.command, [0x30]⟩),
        (fatalState, ⟨.command, [0x30]⟩), (fatalState, ⟨.command, []⟩), (fatalState, ⟨.packet, [0x47]⟩)].map (fun c =>
      (nextState (step { c.1 with requests := [c.2] })).replies.map Reply.status)
      = [[.eOperand], [.eOperand], [.eOperand], [.refusedFatal], [.eOperand], [.refusedFatal]] := by decide

theorem witness_ResetAloneClears :
    let s : State := { pendingState with fatal := true, hufSealed := true, errflags := 0x03FF }
    Instr.statGet ≠ .reset ∧ exec .statGet s = .next (nextState (exec .statGet s)) ∧ s.fatal = true ∧ s.hufSealed = true
      ∧ s.errflags.getLsbD 9 = true ∧ (s.entry 0x0011).present = true ∧ (s.entry 0x0011).ccValid = true
      ∧ ((withEntry 0x0011 { PidEntry.reset with scramblingControl := 3 }).entry 0x0011).scramblingControl ≠ 0 :=
  ⟨by decide, rfl, rfl, rfl, by decide, by decide, by decide, by decide⟩

theorem witness_StatGetReports : State.reset.pidtab.wf ∧ pendingState.pidtab.wf := by decide

theorem witness_PidSetTypeWritesType :
    fatalState.fatal = true ∧ (State.reset.fatal = false ∧ 12 < (13 : Byte).toNat)
    ∧ (pendingState.fatal = false ∧ (12 : Byte).toNat ≤ 12 ∧ (pendingState.entry 0x0011).acc.size ≠ 0)
    ∧ (pendingState.entry 0x0012).acc.size = 0 := by decide

theorem witness_PidSetLinkWritesLinks : fatalState.fatal = true ∧ pendingState.fatal = false := by decide

theorem witness_FatalStateRefuses :
    (fullStore.fatal = false ∧ ∃ t, exec (.hufIns [0x41] [0x30]) fullStore = .next t ∧ t.fatal = true)
    ∧ fatalState.fatal = true ∧ Instr.secTake 0 ≠ .reset ∧ Instr.secTake 0 ≠ .statGet ∧ ∀ pid, Instr.secTake 0 ≠ .pidGet pid := by
  refine ⟨⟨rfl, hufInsert Config.huf [0x41] [0x30] fullStore, fullStore.unlessFatal_of_live rfl, ?_⟩, rfl, by decide, by decide, fun _ h => by cases h⟩
  have hl : fullStore.trie.length = Config.huf.nodeCap := List.length_replicate
  rcases hufInsert_cases Config.huf [0x41] [0x30] fullStore with ⟨h, _⟩ | ⟨_, h, _⟩ | ⟨_, _, _, h⟩ | ⟨_, _, h, _⟩
  · cases h
  · rw [accepted_one_bit] at h; cases h
  · rw [h]; rfl
  · rw [fullStore_lacks, hl] at h; omega

theorem witness_CrcCalcReturnsCrc : fatalState.fatal = true ∧ State.reset.fatal = false := by decide

theorem witness_CrcChkChecksTrailer :
    State.reset.fatal = false ∧ crcValid pat24 = true ∧ pat24 = pat24.take 20 ++ [0xEC, 0x0A, 0xFE, 0xBC]
      ∧ crc32 (pat24.take 20) 0xFFFFFFFF = (0xEC : Byte) ++ (0x0A : Byte) ++ (0xFE : Byte) ++ (0xBC : Byte) := by
  decide +kernel

theorem witness_CrcValidIffResidueZero : 4 ≤ pat24.length ∧ 4 ≤ [(0 : Byte), 0, 0, 0].length := by decide

theorem witness_CrcIsLinear : pat24.length = (List.replicate 24 (0 : Byte)).length := by decide

theorem witness_SingleBitFlipIsDetected : 0 < pat24.length ∧ 23 < pat24.length ∧ crcValid pat24 = true := by decide +kernel

theorem witness_HufInsOutcome :
    fatalState.fatal = true
    ∧ ({ State.reset with hufSealed := true }).hufSealed = true
    ∧ ([0x30, 0x32].any fun c : Byte => c != 0x30 && c != 0x31) = true
    ∧ Config.huf.nodeCap < fullStore.trie.length + missingNodes fullStore.trie 0 (codeBits [0x30])
    ∧ (loopStore.fatal = false ∧ loopStore.hufSealed = false ∧ entryAccepted Config.huf [0x41] [0x30] = true
      ∧ loopStore.trie.length + missingNodes loopStore.trie 0 (codeBits [0x30]) ≤ Config.huf.nodeCap) := by
  have hl : fullStore.trie.length = Config.huf.nodeCap := List.length_replicate
  refine ⟨rfl, rfl, by decide, by rw [fullStore_lacks, hl]; omega, rfl, rfl, accepted_one_bit, ?_⟩
  have : loopStore.trie.length + missingNodes loopStore.trie 0 (codeBits [0x30]) = 1 := by decide
  rw [this]
  exact nodeCap_pos

/-- The empty dictionary is sound under any parameters. -/
theorem emptyDictionary_sound {P : Config.HufParams} (h : 1 ≤ P.nodeCap) : Trie.emptyDictionary.Sound P := by
  have hc : ∀ n b, childOf Trie.emptyDictionary n b = none := by
    intro n b
    cases n with
    | zero => cases b <;> rfl
    | succ n => rfl
  have hv : ∀ n, valueOf Trie.emptyDictionary n = none := by
    intro n
    cases n <;> rfl
  refine ⟨Nat.le_refl 1, h, hv 0, fun n b m hm => ?_, fun n b n' b' m hm => ?_, fun m h1 h2 => ?_, fun n v hn => ?_⟩
  · rw [hc] at hm; cases hm
  · rw [hc] at hm; cases hm
  · have : Trie.emptyDictionary.length = 1 := rfl
    omega
  · rw [hv] at hn; cases hn

theorem witness_HufInsThenVfyMatches :
    State.reset.trie.Sound testParams
    ∧ (hufInsert testParams [0x41] [0x30, 0x31, 0x30] State.reset).replies.head? = some ⟨.ok, .noFields⟩
    ∧ State.reset.fatal = false := ⟨emptyDictionary_sound (by decide), by decide, rfl⟩

theorem witness_HufInsKeepsOtherPaths :
    State.reset.trie.Sound testParams ∧ [false] ≠ codeBits [0x30, 0x31, 0x30] ∧ (walkFrom State.reset.trie 0 []).isSome = true :=
  ⟨emptyDictionary_sound (by decide), by decide, by decide⟩

theorem witness_HufDecOutcome :
    fatalState.fatal = true
    ∧ State.reset.fatal = false ∧ (List.replicate Config.huf.inMax (0 : Byte)).length ≤ Config.huf.inMax :=
  ⟨rfl, rfl, Nat.le_of_eq List.length_replicate⟩

theorem witness_HufDecIgnoresTopBits : (0x14 : Byte) &&& 0x3F = 0xD4 &&& 0x3F := by decide

theorem witness_HufDecIsIdempotent :
    ∃ t u, exec (.hufDec []) State.reset = .next t ∧ exec (.hufDec []) t = .next u :=
  ⟨_, _, next_of_isNext (hufDec_runs [] State.reset), next_of_isNext (hufDec_runs [] _)⟩

theorem witness_HufDecOnEmptyTrie : [(0xA5 : Byte)] ≠ [] := by decide

theorem witness_TsFeedRefusals :
    fatalState.fatal = true ∧ pendingState.fatal = false ∧ ∃ q, (pendingState.entry q).acc.size ≠ 0 :=
  ⟨rfl, rfl, 0x0011, by decide⟩

theorem witness_TsFeedFramingErrors :
    State.reset.Accepting ∧ (pkt [0x46]).byte 0 ≠ 0x47 ∧ (pkt [0x47, 0x80]).byte 0 = 0x47
      ∧ ((pkt [0x47, 0x80]).byte 1).getLsbD 7 = true := ⟨accepting_reset, by decide +kernel⟩

theorem witness_TsFeedContinuity :
    (withEntry 0x0011 { seenEntry .none Acc.reset with lastCc := 15 }).Accepting
    ∧ (pkt [0x47, 0x00, 0x11, 0x10]).sync = 0x47 ∧ (pkt [0x47, 0x00, 0x11, 0x10]).flags.tei = false
    ∧ (pkt [0x47, 0x00, 0x11, 0x10]).pid = 0x0011 := ⟨⟨rfl, by decide⟩, by decide +kernel⟩

/-- Scrambled; a start of 189; a start of 188 without payload; class `NONE`; class `ECM`. -/
theorem witness_TsFeedPathsWithoutPayload :
    let s := withEntry 0x01FF { PidEntry.reset with ty := .caEcm }
    s.Accepting
    ∧ (∀ p ∈ [pkt [0x47, 0x01, 0x00, 0x50], pkt [0x47, 0x00, 0x00, 0x20, 0xB8], pkt [0x47, 0x00, 0x00, 0x20, 0xB7],
          pkt [0x47, 0x01, 0x01, 0x10], pkt [0x47, 0x41, 0xFF, 0x13]], p.sync = 0x47 ∧ p.flags.tei = false)
    ∧ (pkt [0x47, 0x01, 0x00, 0x50]).flags.sc ≠ 0
    ∧ payloadStartOf (pkt [0x47, 0x00, 0x00, 0x20, 0xB8]) = 189 ∧ payloadStartOf (pkt [0x47, 0x00, 0x00, 0x20, 0xB7]) = 188
    ∧ (pkt [0x47, 0x00, 0x00, 0x20, 0xB7]).flags.afc.getLsbD 0 = false
    ∧ s.classOf (pkt [0x47, 0x01, 0x01, 0x10]).pid = .none ∧ s.classOf (pkt [0x47, 0x41, 0xFF, 0x13]).pid = .ecm :=
  ⟨⟨rfl, by decide⟩, by decide +kernel⟩

theorem witness_TsFeedTouchesOnlyItsPid :
    ∃ t, exec (.tsFeed (pkt [0x47, 0x40, 0x00, 0x10, 0x00])) State.reset = .next t := ran (tsFeed_runs _ _)

theorem witness_SetTypeSteersNextFeed :
    [((0x0062 : Pid), (2 : Byte), false), (0x1FFF, 3, false), (0x0002, 12, false), (0x0061, 2, true)].map (fun c =>
        let o := exec (.pidSetType (c.1.setWidth 16) c.2.1) State.reset
        let q := mkPacket c.1 ⟨false, true, false, 0, 1, 0⟩ (rest [])
        isNext o && (nextState o).replies.head? == some ⟨.ok, .noFields⟩ && hasFixedRole c.1 == c.2.2
          && !(nextState o).fatal && (nextState o).pendingPid?.isNone
          && q.pid == c.1 && q.sync == 0x47 && !q.flags.tei)
      = [true, true, true, true] := by decide +kernel

/-- R51 (a): the packet fed after a `PID.SETTYPE` to `CA_ECM` is reported under class `ECM`. -/
theorem test_settype_then_feed :
    let s := nextState (exec (.pidSetType 0x0100 3) State.reset)
    (nextState (exec (.tsFeed (mkPacket 0x0100 ⟨false, true, false, 0, 1, 0⟩ (rest []))) s)).replies.head?
      = some ⟨.ecmPassthrough, .feed ⟨0x0100, .ecm, false, some 4, false⟩⟩ := by decide +kernel

theorem witness_RowIsFeedOfItsPacket :
    (Instr.tsEpg60 1 ⟨false, true, false, 0, 1, 0⟩ (rest [])).rowPacket?
      = some (mkPacket 0x0061 ⟨false, true, false, 0, 1, 0⟩ (rest [])) := by decide +kernel

theorem witness_ReassembledRowsStartSection :
    let s := withEntry 0x0062 { PidEntry.reset with ty := .pmt }
    let f : TsFlags := ⟨false, true, false, 0, 1, 0⟩
    s.Accepting ∧ f.tei = false ∧ f.pusi = true ∧ f.sc = 0 ∧ f.afc = 1 ∧ ((rest [0xB7]).val.getD 0 0).toNat ≤ 183 ∧ hasFixedRole 0x0062 = false ∧ (s.entry 0x0062).ty = .pmt :=
  ⟨⟨rfl, by decide⟩, by decide +kernel⟩

theorem witness_UnreassembledRowsPassThrough :
    let s := withEntry 0x0062 { PidEntry.reset with ty := .caEcm }
    let f : TsFlags := ⟨false, true, false, 0, 1, 0⟩
    s.Accepting ∧ f.tei = false ∧ f.sc = 0 ∧ f.afc = 1 ∧ hasFixedRole 0x0062 = false ∧ (s.entry 0x0062).ty = .caEcm ∧ hasFixedRole 0x1FFF = false
      ∧ (s.entry 0x1FFF).ty ≠ .caEcm ∧ (s.entry 0x1FFF).ty ≠ .pmt := ⟨⟨rfl, by decide⟩, by decide +kernel⟩

/-- A start of 188; a section that would start at 189; one that starts at 188. -/
theorem witness_TsFeedStartsSection :
    State.reset.Accepting
    ∧ (∀ p ∈ [pkt [0x47, 0x40, 0x00, 0x30, 0xB7], pkt [0x47, 0x40, 0x00, 0x10, 0xB8], pkt [0x47, 0x40, 0x00, 0x10, 0xB7]],
        CarriesPayload p ∧ p.flags.pusi = true ∧ State.reset.classOf p.pid = .sec .pat)
    ∧ payloadStartOf (pkt [0x47, 0x40, 0x00, 0x30, 0xB7]) = 188 := by
  refine ⟨accepting_reset, fun p hp => ?_, by decide +kernel⟩
  simp only [List.mem_cons, List.not_mem_nil, or_false] at hp
  rcases hp with rfl | rfl | rfl <;>
    exact ⟨⟨by decide +kernel, by decide +kernel, by decide +kernel, by decide +kernel, by decide +kernel⟩, by decide +kernel,
      by decide +kernel⟩

/-- A gap; nothing buffered; 4169 bytes buffered, one too many; 4168. -/
theorem witness_TsFeedContinuesSection :
    let p := pkt [0x47, 0x00, 0x11, 0x11]
    CarriesPayload p ∧ p.flags.pusi = false ∧ p.pid = 0x0011 ∧ payloadStartOf p = 4
    ∧ discontinuityOf { seenEntry .none Acc.reset with lastCc := 1 } p.flags.cc = true
    ∧ ∀ buffer ∈ [[], List.replicate 4169 0, List.replicate 4168 0],
        (withEntry 0x0011 (seenEntry .none ⟨buffer, 0, []⟩)).Accepting
        ∧ (withEntry 0x0011 (seenEntry .none ⟨buffer, 0, []⟩)).classOf 0x0011 = .sec .sdt := by
  refine ⟨⟨by decide +kernel, by decide +kernel, by decide +kernel, by decide +kernel, by decide +kernel⟩, by decide +kernel,
    by decide +kernel, by decide +kernel, by decide +kernel, fun buffer _ => ⟨⟨rfl, ?_⟩, rfl⟩⟩
  have h : seenEntry .none ⟨buffer, 0, []⟩ ≠ PidEntry.reset := fun h => by
    have := congrArg PidEntry.present h
    cases this
  unfold withEntry State.setEntry State.pendingPid? PidTab.set
  rw [if_neg h]
  rfl

theorem witness_SecTakeHandsOver :
    fatalState.fatal = true ∧ pendingState.fatal = false ∧ (pendingState.entry 0x0012).acc.wholeSection = []
      ∧ (pendingState.entry 0x0011).acc.wholeSection ≠ [] := by decide

theorem witness_SecTakeTwiceNotReady :
    pendingState.fatal = false ∧ ∃ t, exec (.secTake ((0x0011 : Pid).setWidth 16)) pendingState = .next t :=
  ⟨rfl, ran (secTake_runs _ _)⟩

theorem witness_KnownTargetNeverOverflows :
    let a : Machine.Acc := ⟨List.replicate 0x1001 0, 0x1002, []⟩
    a.InRange ∧ a.bufferTarget ≠ 0 ∧ 4 ≤ payloadStartOf (pkt [0x47, 0x00, 0x11, 0x10]) := by
  have h : (List.replicate 0x1001 (0 : Byte)).length = 0x1001 := List.length_replicate
  refine ⟨⟨?_, fun _ => ⟨by decide, by decide, ?_⟩, fun h => absurd rfl h⟩, by decide, by decide +kernel⟩
  · show (List.replicate 0x1001 (0 : Byte)).length ≤ bufCap
    rw [h]; decide
  · show (List.replicate 0x1001 (0 : Byte)).length < 0x1002
    rw [h]; decide

/-- A feed that runs, one that is refused; each drop; a bounds error; PUSI 1 and 0; a take of a complete PID. -/
theorem witness_AccumulatorTransitions :
    (∃ t, exec (.tsFeed (pkt [0x47, 0x40, 0x00, 0x10, 0xB7])) State.reset = .next t)
    ∧ (pendingState.entry 0x0011).acc.state = .complete
    ∧ (pkt [0x46]).sync ≠ 0x47 ∧ (pkt [0x47, 0x80]).flags.tei = true ∧ (pkt [0x47, 0x01, 0x00, 0x50]).flags.sc ≠ 0
    ∧ (payloadStartOf (pkt [0x47, 0, 0, 0x20, 0xB7]) ≤ 188 ∧ (pkt [0x47, 0, 0, 0x20, 0xB7]).flags.afc.getLsbD 0 = false)
    ∧ 188 < payloadStartOf (pkt [0x47, 0, 0, 0x20, 0xB8])
    ∧ (pkt [0x47, 0x40, 0x00, 0x10, 0xB7]).flags.pusi = true ∧ (pkt [0x47, 0x00, 0x11, 0x11]).flags.pusi = false
    ∧ (pendingState.fatal = false ∧ ∃ t, exec (.secTake ((0x0011 : Pid).setWidth 16)) pendingState = .next t)
    ∧ (Instr.statGet ≠ .reset ∧ Instr.statGet.rowPacket? = none) :=
  ⟨ran (tsFeed_runs _ _), by decide, by decide +kernel, by decide +kernel, by decide +kernel, by decide +kernel,
    by decide +kernel, by decide +kernel, by decide +kernel, ⟨rfl, ran (secTake_runs _ _)⟩, by decide, rfl⟩

/-- PAT24 in two packets: its first byte behind an adaptation field, its other 23 and 161 stuffing bytes. -/
theorem witness_SplitSectionReassembles :
    let first := pkt ([0x47, 0x40, 0x00, 0x30, 0xB5] ++ List.replicate 181 0xFF ++ [0x00, 0x00])
    let second := pkt ([0x47, 0x00, 0x00, 0x11] ++ pat24.tail)
    State.reset.Accepting ∧ State.reset.classOf 0 = .sec .pat
    ∧ (∀ p ∈ [first, second], p.pid = 0 ∧ CarriesPayload p)
    ∧ first.flags.pusi = true ∧ second.flags.pusi = false ∧ second.flags.cc = first.flags.cc + 1
    ∧ 12 ≤ pat24.length ∧ sectionTotal .pat pat24 = pat24.length
    ∧ (payloadOf first).head? = some 0 ∧ 2 ≤ (payloadOf first).length
    ∧ (payloadOf first).tail ++ [payloadOf second].flatten = pat24 ++ List.replicate 161 0xFF
    ∧ ((payloadOf first).tail ++ ([second].dropLast.map payloadOf).flatten).length < pat24.length := by
  refine ⟨accepting_reset, rfl, fun p hp => ?_, by decide +kernel⟩
  simp only [List.mem_cons, List.not_mem_nil, or_false] at hp
  rcases hp with rfl | rfl <;>
    exact ⟨by decide +kernel, by decide +kernel, by decide +kernel, by decide +kernel, by decide +kernel, by decide +kernel⟩

theorem witness_FeedsOfDifferentPidsCommute :
    let p := pkt [0x47, 0x40, 0x00, 0x10, 0x00]
    let q := pkt [0x47, 0x40, 0x11, 0x10, 0x00]
    let a := nextState (exec (.tsFeed p) State.reset)
    let a' := nextState (exec (.tsFeed q) State.reset)
    State.reset.pidtab.wf ∧ State.reset.Accepting ∧ p.pid ≠ q.pid ∧ a.pendingPid? = none ∧ a'.pendingPid? = none
    ∧ isNext (exec (.tsFeed p) State.reset) = true ∧ isNext (exec (.tsFeed q) a) = true
    ∧ isNext (exec (.tsFeed q) State.reset) = true ∧ isNext (exec (.tsFeed p) a') = true :=
  ⟨PidTab.wf_nil, accepting_reset, by decide +kernel⟩

/-- A table with a pending section and a request to take it. -/
theorem witness_StepKeepsTableSound :
    let s : State := { pendingState with requests := [⟨.command, [0x21, 0x00, 0x11]⟩] }
    s.TableSound ∧ step s = .next (nextState (step s)) := by
  have he : ∀ q, pendingState.entry q = if q = 0x0011 then seenEntry .none ⟨[0xFF], 0, pat24⟩ else PidEntry.reset := by
    intro q
    split
    · rename_i h; subst h; exact State.setEntry_entry_self State.reset _ _
    · rename_i h; exact State.setEntry_entry_other State.reset _ h
  have hw : pendingState.pidtab.wf := by decide
  refine ⟨⟨hw, fun q => ?_, fun p q => ?_⟩, next_of_isNext (by decide +kernel)⟩
  · show (pendingState.entry q).Sound q
    rw [he]
    split
    · rename_i h
      subst h
      exact ⟨⟨by decide, by decide, by decide⟩, rfl, by decide, by decide, fun _ => ⟨.sdt, rfl⟩⟩
    · exact ⟨⟨by decide, by decide, by decide⟩, rfl, fun _ => rfl, fun _ => ⟨rfl, rfl⟩, fun h => absurd rfl h⟩
  · show (pendingState.entry p).acc.size ≠ 0 → (pendingState.entry q).acc.size ≠ 0 → p = q
    rw [he, he]
    intro hp hq
    split at hp
    · split at hq
      · rename_i h1 h2; rw [h1, h2]
      · exact absurd rfl hq
    · exact absurd rfl hp

theorem witness_StepKeepsTrieSound :
    let s : State := { State.reset with requests := [⟨.command, [0x40, 0x41, 0x3D, 0x30]⟩] }
    s.trie.Sound Config.huf ∧ ∃ t, step s = .next t :=
  ⟨emptyDictionary_sound nodeCap_pos, ran (hufIns_runs [0x41] [0x30] _)⟩

theorem witness_StepKeepsFlagsSound :
    let s : State := { fatalState with hufSealed := true, errflags := 0x0340, requests := [⟨.command, [0x01]⟩] }
    s.FlagsSound ∧ step s = .next (nextState (step s)) := by
  refine ⟨⟨fun k hk => ?_, by decide, fun _ => rfl⟩, next_of_isNext (by decide +kernel)⟩
  by_cases h : k < 16
  · interval_cases k <;> rfl
  · exact BitVec.getLsbD_of_ge _ _ (by omega)

theorem witness_SealedTrieIsReadOnly :
    let s : State := { State.reset with hufSealed := true }
    s.hufSealed = true ∧ Instr.hufIns [0x41] [0x30] ≠ .reset ∧ ∃ t, exec (.hufIns [0x41] [0x30]) s = .next t :=
  ⟨rfl, by decide, ran (hufIns_runs _ _ _)⟩

end Sys2Proof.Tests
end

section
/-! PROOFS. What every instruction can do to the state, said once over all instructions, and how an invariant of the block
is carried from an instruction to a step (spec/20_memory.md R48, spec/44_host_ops.md R207). -/

namespace Sys2Proof.Machine

variable {s t : State} {i : Instr} {p : Packet} {cls : PidClass}

/-! ### Dispatch rows are feeds (spec/30_encoding.md R70; log entry 5) -/

/-- A feed under the class that the dispatch gives is the `TS.FEED` of the packet. -/
theorem feedAs_eq_exec_tsFeed (h : cls = s.classOf p.pid) : feedAs cls p s = exec (.tsFeed p) s := by
  subst h; rfl

theorem exec_of_rowPacket (h : i.rowPacket? = some p) (s : State) : exec i s = exec (.tsFeed p) s := by
  cases i with
  | tsPat | tsCat | tsSdt11 | tsSdt12 => cases h; exact feedAs_eq_exec_tsFeed (by simp [State.classOf, classOf])
  | tsEpg30 low => cases h; exact feedAs_eq_exec_tsFeed (by simp [State.classOf, classOf_epg30])
  | tsEpg40 low => cases h; exact feedAs_eq_exec_tsFeed (by simp [State.classOf, classOf_epg40])
  | tsEpg60 low => cases h; exact feedAs_eq_exec_tsFeed (by simp [State.classOf, classOf_epg60])
  | tsPmt | tsEcm | tsNone =>
    cases h
    refine feedAs_eq_exec_tsFeed (.trans (rowClass_eq fun hfree hty => ?_) (by rw [mkPacket_pid]))
    rw [State.classOf, classOf_of_not_fixed hfree]
    simp_all
  | _ => cases h

/-! ### The effect of an instruction -/

/-- Every way an instruction can change the block, as the state after it, with the guards of each write. What a reply says
beyond that is left open: the `exec_*_cases` lemmas give it per instruction. -/
inductive InstrEffect (s : State) : Instr → State → Prop
  /-- `RESET` (R205). -/
  | clears : InstrEffect s .reset ({ State.reset with requests := s.requests, replies := s.replies }.answer .ok)
  /-- A refusal, or an operation that only reports. -/
  | replies {i : Instr} (st : Status) (r : Result) : i ≠ .reset → InstrEffect s i (s.reply st r)
  /-- An error without a write but its flag (R142, R143, R113, R115). -/
  | errs {i : Instr} (f : ErrFlag) (st : Status) : i ≠ .reset → f = .sync ∨ f = .tei ∨ f = .hufDict →
      InstrEffect s i (s.error f st)
  /-- `PID.SETTYPE` of a PID without a pending section (R201). -/
  | setsType (pid : Word16) (code : Byte) (p : Pid) (ty : PidType) : s.fatal = false → (s.entry p).acc.size = 0 →
      InstrEffect s (.pidSetType pid code) ((s.setEntry p { s.entry p with ty := ty }).answer .ok)
  /-- `PID.SETLINK` (R202). -/
  | setsLink (pid count ecm : Word16) (p : Pid) : s.fatal = false →
      InstrEffect s (.pidSetLink pid count ecm)
        ((s.setEntry p { s.entry p with programCount := count, pidForEcm := ecm }).answer .ok)
  /-- `SEC.TAKE` of a pending section (R177). -/
  | takes (pid : Word16) (p : Pid) (r : Result) : s.fatal = false → (s.entry p).acc.size ≠ 0 →
      InstrEffect s (.secTake pid)
        (((s.setEntry p { s.entry p with acc := accTaken (s.classOf p).singleShot (s.entry p).acc }).raise
          (ErrFlag.crc.maskIf (!crcValid (s.entry p).acc.wholeSection))).reply .ok r)
  /-- `HUF.INS` that finds the store exhausted (R113). -/
  | exhausts (symbol code : List Byte) : s.fatal = false → s.hufSealed = false →
      Config.huf.nodeCap < s.trie.length + missingNodes s.trie 0 (codeBits code) →
      InstrEffect s (.hufIns symbol code) ({ s with fatal := true }.error .capacity .eCapacity)
  /-- `HUF.INS` that inserts (R113). -/
  | inserts (symbol code : List Byte) : s.fatal = false → s.hufSealed = false →
      entryAccepted Config.huf symbol code = true →
      s.trie.length + missingNodes s.trie 0 (codeBits code) ≤ Config.huf.nodeCap →
      InstrEffect s (.hufIns symbol code) ({ s with trie := insertFrom symbol s.trie 0 (codeBits code) }.answer .ok)
  /-- `HUF.DEC` that runs (R117). -/
  | decodes (data : List Byte) (st : Status) (r : Result) : s.fatal = false →
      InstrEffect s (.hufDec data)
        (({ s with hufSealed := true }.raise (hufFlags (hufDecode Config.huf s.trie data))).reply st r)
  /-- `TS.FEED`, or a dispatch row, of a packet that passes steps 0 to 2 (R152). -/
  | feeds {i : Instr} (p : Packet) : i = .tsFeed p ∨ i.rowPacket? = some p → s.Accepting →
      InstrEffect s i (feedAccepted (s.classOf p.pid) p s)

theorem tsFeed_effect (hi : i = .tsFeed p ∨ i.rowPacket? = some p) (h : exec (.tsFeed p) s = .next t) :
    InstrEffect s i t := by
  have hne : i ≠ .reset := by rintro rfl; rcases hi with hi | hi <;> cases hi
  rcases exec_tsFeed_cases h with ⟨_, rfl⟩ | ⟨_, _, rfl⟩ | ⟨_, _, rfl⟩ | ⟨_, _, _, rfl⟩ | ⟨ha, _, _, rfl⟩
  · exact .replies _ _ hne
  · exact .replies _ _ hne
  · exact .errs _ _ hne (.inl rfl)
  · exact .errs _ _ hne (.inr (.inl rfl))
  · exact .feeds p hi ha

/-- What an instruction can do: proofs over all instructions split this, not the meanings. -/
theorem exec_effect (h : exec i s = .next t) : InstrEffect s i t := by
  rcases rowPacket_cases i with ⟨p, hp⟩ | hn
  · exact tsFeed_effect (.inr hp) (exec_of_rowPacket hp s ▸ h)
  cases i with
  | reset => exact exec_reset_cases h ▸ .clears
  | statGet =>
    obtain ⟨r, rfl⟩ := exec_statGet_cases h
    exact .replies _ _ nofun
  | pidSetType =>
    rcases exec_pidSetType_cases h with ⟨st, rfl, _⟩ | ⟨p, ty, hf, _, _, hz, rfl⟩
    · exact .replies _ _ nofun
    · exact .setsType _ _ p ty hf hz
  | pidGet =>
    obtain ⟨st, r, rfl⟩ := exec_pidGet_cases h
    exact .replies _ _ nofun
  | pidSetLink =>
    rcases exec_pidSetLink_cases h with ⟨st, rfl, _⟩ | ⟨p, hf, _, rfl⟩
    · exact .replies _ _ nofun
    · exact .setsLink _ _ _ p hf
  | tsFeed p => exact tsFeed_effect (.inl rfl) h
  | secTake pid =>
    rcases execSecTake_cases (pid := pid) h with ⟨_, rfl⟩ | ⟨_, _, rfl⟩ | ⟨p, hf, _, ⟨_, rfl⟩ | ⟨hz, rfl⟩⟩
    · exact .replies _ _ nofun
    · exact .replies _ _ nofun
    · exact .replies _ _ nofun
    · exact .takes _ p _ hf hz
  | crcCalc =>
    obtain ⟨st, r, rfl⟩ := exec_crcCalc_cases h
    exact .replies _ _ nofun
  | crcChk =>
    obtain ⟨st, r, rfl⟩ := exec_crcChk_cases h
    exact .replies _ _ nofun
  | hufIns symbol code =>
    rcases exec_hufIns_cases h with ⟨st, rfl, _⟩ | rfl | ⟨hf, hs, hc, rfl⟩ | ⟨hf, hs, ha, hc, rfl⟩
    · exact .replies _ _ nofun
    · exact .errs _ _ nofun (.inr (.inr rfl))
    · exact .exhausts symbol code hf hs hc
    · exact .inserts symbol code hf hs ha hc
  | hufVfy =>
    rcases exec_hufVfy_cases h with ⟨st, rfl, _⟩ | ⟨st, rfl, _⟩
    · exact .replies _ _ nofun
    · exact .errs _ _ nofun (.inr (.inr rfl))
  | hufDec =>
    rcases exec_hufDec_cases h with ⟨st, rfl, _⟩ | ⟨hf, _, rfl⟩
    · exact .replies _ _ nofun
    · exact .decodes _ _ _ hf
  | _ => cases hn

/-- An invariant that neither the queue nor a reply touches, and that every instruction's effect keeps, is kept by every
step. -/
theorem step_keeps {I : State → Prop} (htake : ∀ {s}, I s → I s.take)
    (heffect : ∀ {s i t}, I s → InstrEffect s i t → I t) (hs : I s) (h : step s = .next t) : I t := by
  rcases step_cases h with ⟨_, rfl⟩ | ⟨_, _, i, _, _, hx⟩ | ⟨_, _, e, _, _, rfl⟩
  · exact hs
  · exact heffect (htake hs) (exec_effect hx)
  · exact heffect (htake hs) (.replies (i := .statGet) (rejectStatus e s.fatal) .noFields nofun)

/-- Every instruction but `RESET`, `STAT.GET` and `PID.GET` tests `FATAL` before anything else (R254). -/
theorem exec_of_fatal (hf : s.fatal = true) (hreset : i ≠ .reset) (hstat : i ≠ .statGet)
    (hget : ∀ pid, i ≠ .pidGet pid) : exec i s = .next (s.answer .refusedFatal) := by
  cases i with
  | reset => exact absurd rfl hreset
  | statGet => exact absurd rfl hstat
  | pidGet pid => exact absurd rfl (hget pid)
  | _ => exact if_pos hf

end Sys2Proof.Machine
end

section
/-! PROOFS. `FATAL` and `HUF_SEALED` over all instructions (spec/10_state.md R24, R26; spec/60_exceptions.md R254). -/

namespace Sys2Proof.Machine

variable {s t : State} {i : Instr}

/-- `FATAL` comes up only in a `HUF.INS` that lacks nodes (R26, R113). -/
theorem InstrEffect.exhausted_of_fatal (h : InstrEffect s i t) (hs : s.fatal = false) (ht : t.fatal = true) :
    ∃ symbol code, i = .hufIns symbol code
      ∧ Config.huf.nodeCap < s.trie.length + missingNodes s.trie 0 (codeBits code) := by
  cases h with
  | exhausts symbol code _ _ hcap => exact ⟨symbol, code, rfl, hcap⟩
  | clears => cases ht
  | _ => cases hs.symm.trans ht

/-- `FATAL` stays until `RESET` (R26). -/
theorem InstrEffect.fatal_stays (h : InstrEffect s i t) (hi : i ≠ .reset) (hs : s.fatal = true) : t.fatal = true := by
  cases h with
  | clears => exact absurd rfl hi
  | exhausts => rfl
  | _ => exact hs

/-- Only `RESET` and a `HUF.INS` before the seal write the trie (R24, R113). -/
theorem InstrEffect.trie_of_sealed (h : InstrEffect s i t) (hi : i ≠ .reset) (hs : s.hufSealed = true) :
    t.trie = s.trie := by
  cases h with
  | clears => exact absurd rfl hi
  | inserts _ _ _ hopen => cases hopen.symm.trans hs
  | _ => rfl

end Sys2Proof.Machine

open Sys2Proof Sys2Proof.Machine

/-- Settles O17: set, kept and cleared as `InstrEffect` says; refused before any other test. -/
theorem fatalStateRefuses : Obligations.FatalStateRefuses :=
  ⟨rfl, fun _ _ _ hx => (exec_effect hx).exhausted_of_fatal,
    fun _ _ _ hx hf hi => (exec_effect hx).fatal_stays hi hf, fun _ _ => exec_of_fatal⟩

/-- Settles O59: the only effects that write the trie are `RESET` and an insertion into an unsealed one. -/
theorem sealedTrieIsReadOnly : Obligations.SealedTrieIsReadOnly :=
  fun _ _ _ hs hi hx => (exec_effect hx).trie_of_sealed hi hs
end

section
/-! PROOFS. The flags' invariant (spec/10_state.md R25, spec/60_exceptions.md R247, R254): which masks the operations
raise, and that raising them keeps it. -/

namespace Sys2Proof.Machine

variable {s t : State} {i : Instr} {v w : Word16} {p : Packet} {cls : PidClass}

/-! ### Masks bit by bit -/

@[simp] theorem ErrFlag.getLsbD_mask (f : ErrFlag) (k : Nat) : f.mask.getLsbD k = decide (k = f.bit) := by
  have hf : f.bit < 16 := by cases f <;> decide
  rw [ErrFlag.mask, BitVec.getLsbD_shiftLeft, BitVec.getLsbD_one]
  by_cases hk : k = f.bit
  · simp [hk, hf]
  · simp [hk]
    omega

@[simp] theorem ErrFlag.getLsbD_maskIf (f : ErrFlag) (c : Bool) (k : Nat) :
    (f.maskIf c).getLsbD k = (c && decide (k = f.bit)) := by
  cases c <;> simp [ErrFlag.maskIf]

@[simp] theorem State.raise_flag (s : State) (w : Word16) (f : ErrFlag) :
    (s.raise w).flag f = (s.flag f || w.getLsbD f.bit) := BitVec.getLsbD_or

theorem State.raise_mask_flag_other (s : State) {f g : ErrFlag} (h : f.bit ≠ g.bit) :
    (s.raise g.mask).flag f = s.flag f := by
  rw [State.raise_flag, ErrFlag.getLsbD_mask, decide_eq_false h, Bool.or_false]

/-! ### Flags that no other state goes with -/

/-- The mask's flags are defined ones that go with neither `FATAL` nor `HUF_SEALED`: `SYNC` to `CRC`, and `HUF_DICT`. -/
def FlagsAlone (w : Word16) : Prop := ∀ k, w.getLsbD k = true → k ≤ 5 ∨ k = 7

theorem flagsAlone_zero : FlagsAlone 0 := fun k h => by simp at h

theorem FlagsAlone.or (hv : FlagsAlone v) (hw : FlagsAlone w) : FlagsAlone (v ||| w) := fun k h => by
  rw [BitVec.getLsbD_or, Bool.or_eq_true] at h
  exact h.elim (hv k) (hw k)

theorem ErrFlag.mask_alone {f : ErrFlag} (hf : f.bit ≤ 5 ∨ f.bit = 7) : FlagsAlone f.mask := fun k h => by
  rw [ErrFlag.getLsbD_mask, decide_eq_true_eq] at h
  exact h ▸ hf

theorem ErrFlag.maskIf_alone {f : ErrFlag} (hf : f.bit ≤ 5 ∨ f.bit = 7) (c : Bool) : FlagsAlone (f.maskIf c) := by
  cases c with
  | false => exact flagsAlone_zero
  | true => exact ErrFlag.mask_alone hf

/-- The reassembler raises `BOUNDS` or `OVERFLOW` or nothing (R171, R172, R173). -/
theorem secFeed_flagsAlone (c : SecClass) (p : Packet) (start : Nat) (disc : Bool) (a : Acc) :
    FlagsAlone (secFeed c p start disc a).flags := by
  unfold secFeed
  split
  · rcases secStart_cases c p.val start a with ⟨_, h⟩ | ⟨_, _, h⟩ <;> rw [h]
    · exact ErrFlag.mask_alone (.inl (by decide))
    · exact flagsAlone_zero
  · rcases secCont_cases c p.val start disc a with ⟨_, h⟩ | ⟨_, _, h⟩ | ⟨_, _, _, h⟩ | ⟨_, _, _, h⟩ <;> rw [h]
    · exact flagsAlone_zero
    · exact flagsAlone_zero
    · exact ErrFlag.mask_alone (.inl (by decide))
    · exact flagsAlone_zero

/-- Steps 3 to 7 raise `DISC` and what the bounds test or the reassembler raises (R145, R148, R152). -/
theorem feedEntry_flagsAlone (cls : PidClass) (p : Packet) (e : PidEntry) : FlagsAlone (feedEntry cls p e).flags := by
  have hdisc : FlagsAlone (ErrFlag.disc.maskIf (discontinuityOf e p.flags.cc)) :=
    ErrFlag.maskIf_alone (.inl (by decide)) _
  rcases feedEntry_cases cls p e with ⟨_, h⟩ | ⟨_, _, h⟩ | ⟨_, _, _, h⟩ | ⟨_, _, _, _, h⟩ | ⟨_, _, _, _, h⟩ |
    ⟨c, r, _, _, _, _, rfl, h⟩ <;> rw [h]
  · exact hdisc
  · exact hdisc.or (ErrFlag.mask_alone (.inl (by decide)))
  · exact hdisc
  · exact hdisc
  · exact hdisc
  · exact hdisc.or (secFeed_flagsAlone _ _ _ _ _)

/-- A decode raises `HUF_CORRUPT` and `HUF_OVERFLOW` only (R120, R125). -/
theorem getLsbD_hufFlags {d : HufRun} {k : Nat} (h : (hufFlags d).getLsbD k = true) : k = 6 ∨ k = 9 := by
  simp only [hufFlags, BitVec.getLsbD_or, ErrFlag.getLsbD_maskIf, Bool.or_eq_true, Bool.and_eq_true,
    decide_eq_true_eq] at h
  exact h.imp (fun hc => hc.2) fun ho => ho.2

/-! ### The invariant -/

/-- The invariant speaks of the flags, `FATAL` and the seal only. -/
theorem State.FlagsSound.congr (h : s.FlagsSound) (hw : t.errflags = s.errflags) (hf : t.fatal = s.fatal)
    (hs : t.hufSealed = s.hufSealed) : t.FlagsSound where
  reserved := hw ▸ h.reserved
  fatal := by rw [hf, h.fatal, State.flag, State.flag, hw]
  decoded := by simpa only [State.flag, hw, hs] using h.decoded

theorem State.reset_flagsSound : State.reset.FlagsSound where
  reserved := fun k _ => by simp
  fatal := rfl
  decoded := by rintro (h | h) <;> cases h

theorem State.FlagsSound.raise (h : s.FlagsSound) (hw : FlagsAlone w) : (s.raise w).FlagsSound := by
  have hoff : ∀ {k}, ¬ (k ≤ 5 ∨ k = 7) → w.getLsbD k = false := fun hk => by simpa using mt (hw _) hk
  refine ⟨fun k hk => ?_, ?_, ?_⟩
  · rw [State.raise_errflags, BitVec.getLsbD_or, h.reserved k hk, hoff (by omega)]; rfl
  · rw [State.raise_flag, hoff (by decide), Bool.or_false]; exact h.fatal
  · rw [State.raise_flag, State.raise_flag, hoff (by decide), hoff (by decide), Bool.or_false, Bool.or_false]
    exact h.decoded

/-- Exhaustion sets `FATAL` and `CAPACITY` together (R254). -/
theorem State.FlagsSound.exhaust (h : s.FlagsSound) :
    ({ s with fatal := true }.raise ErrFlag.capacity.mask).FlagsSound where
  reserved := fun k hk => by
    have hk8 : k ≠ ErrFlag.capacity.bit := fun hh => absurd (hh ▸ hk) (by decide)
    simpa [hk8] using h.reserved k hk
  fatal := by simp
  decoded := by
    rw [State.raise_mask_flag_other _ (by decide), State.raise_mask_flag_other _ (by decide)]
    exact h.decoded

/-- A decode seals the trie, so its flags may come up (R247). -/
theorem State.FlagsSound.decode (h : s.FlagsSound) (d : HufRun) :
    ({ s with hufSealed := true }.raise (hufFlags d)).FlagsSound := by
  have hoff : ∀ {k}, ¬ (k = 6 ∨ k = 9) → (hufFlags d).getLsbD k = false := fun hk => by
    simpa using mt getLsbD_hufFlags hk
  refine ⟨fun k hk => ?_, ?_, fun _ => rfl⟩
  · rw [State.raise_errflags, BitVec.getLsbD_or, h.reserved k hk, hoff (by omega)]; rfl
  · rw [State.raise_flag, hoff (by decide), Bool.or_false]; exact h.fatal

theorem State.FlagsSound.effect (h : s.FlagsSound) (hx : InstrEffect s i t) : t.FlagsSound := by
  cases hx with
  | clears => exact State.reset_flagsSound.congr rfl rfl rfl
  | replies => exact h.congr rfl rfl rfl
  | errs f st _ hf =>
    exact (h.raise (ErrFlag.mask_alone (f := f) (by rcases hf with rfl | rfl | rfl <;> decide))).congr rfl rfl rfl
  | setsType => exact h.congr rfl rfl rfl
  | setsLink => exact h.congr rfl rfl rfl
  | takes => exact (h.raise (ErrFlag.maskIf_alone (f := .crc) (.inl (by decide)) _)).congr rfl rfl rfl
  | exhausts => exact h.exhaust.congr rfl rfl rfl
  | inserts => exact h.congr rfl rfl rfl
  | decodes => exact (h.decode _).congr rfl rfl rfl
  | feeds p => exact (h.raise (feedEntry_flagsAlone _ p _)).congr rfl rfl rfl

end Sys2Proof.Machine

open Sys2Proof Sys2Proof.Machine

/-- Settles O58: `State.FlagsSound` is carried through every effect. -/
theorem stepKeepsFlagsSound : Obligations.StepKeepsFlagsSound :=
  fun _ _ => step_keeps (fun h => h.congr rfl rfl rfl) State.FlagsSound.effect
end

section
/-! PROOFS. The trie's invariant (spec/10_state.md R23): the empty dictionary meets it, and adding a child, setting a value
and so the insertion of R113 keep it. -/

namespace Sys2Proof.Machine

variable {s s' : State} {i : Instr} {P : Config.HufParams} {t : Trie} {n : Nat} {b : Bool}
  {symbol : List Byte}

@[simp] theorem childOf_emptyDictionary (n : Nat) (b : Bool) : childOf Trie.emptyDictionary n b = none := by
  cases n with
  | zero => cases b <;> rfl
  | succ => rfl

@[simp] theorem valueOf_emptyDictionary (n : Nat) : valueOf Trie.emptyDictionary n = none := by cases n <;> rfl

/-- The empty dictionary is sound in every store that holds a node. -/
theorem Trie.sound_emptyDictionary (h : 1 ≤ P.nodeCap) : Trie.emptyDictionary.Sound P where
  rootExists := Nat.le_refl 1
  capacity := h
  rootValue := rfl
  children := by simp
  oneParent := by simp
  parents := fun m h1 h2 => absurd h2 (Nat.not_lt.2 h1)
  values := by simp

/-- A new leaf keeps the tree: its parent is the node it was made for, and no other link changes. -/
theorem Trie.Sound.addChild (h : t.Sound P) (hn : n < t.length) (hfree : childOf t n b = none)
    (hcap : t.length < P.nodeCap) : (addChild t n b).Sound P where
  rootExists := by rw [length_addChild]; omega
  capacity := by rw [length_addChild]; omega
  rootValue := by rw [valueOf_addChild, h.rootValue]
  children := fun k c m hm => by
    rw [childOf_addChild hn] at hm
    rw [length_addChild]
    split at hm
    · next hk => cases hm; omega
    · have := h.children k c m hm; omega
  oneParent := fun k c k' c' m hm hm' => by
    rw [childOf_addChild hn] at hm hm'
    split at hm <;> split at hm'
    · next hk hk' => exact ⟨hk.1.trans hk'.1.symm, hk.2.trans hk'.2.symm⟩
    · cases hm; exact absurd (h.inUse _ _ _ hm') (Nat.lt_irrefl _)
    · cases hm'; exact absurd (h.inUse _ _ _ hm) (Nat.lt_irrefl _)
    · exact h.oneParent k c k' c' m hm hm'
  parents := fun m h1 h2 => by
    rw [length_addChild] at h2
    rcases Nat.lt_succ_iff_lt_or_eq.1 h2 with hlt | rfl
    · obtain ⟨k, c, hk⟩ := h.parents m h1 hlt
      refine ⟨k, c, ?_⟩
      rw [childOf_addChild hn, if_neg, hk]
      rintro ⟨rfl, rfl⟩
      cases hfree.symm.trans hk
    · exact ⟨n, b, by rw [childOf_addChild hn, if_pos ⟨rfl, rfl⟩]⟩
  values := fun k v hv => h.values k v (by rwa [valueOf_addChild] at hv)

/-- A value of a legal length at a node other than the root keeps the tree. -/
theorem Trie.Sound.setValue (h : t.Sound P) (hn : n < t.length) (h0 : n ≠ 0) (hpos : 1 ≤ symbol.length)
    (hmax : symbol.length ≤ P.symMax) :
    Trie.Sound P (t.modify n fun nd => { nd with value := some symbol }) where
  rootExists := by simpa using h.rootExists
  capacity := by simpa using h.capacity
  rootValue := by rw [valueOf_setValue hn, if_neg h0.symm, h.rootValue]
  children := by simpa using h.children
  oneParent := by simpa using h.oneParent
  parents := by simpa using h.parents
  values := fun k v hv => by
    rw [valueOf_setValue hn] at hv
    split at hv
    · cases hv; exact ⟨hpos, hmax⟩
    · exact h.values k v hv

/-- The insertion loop keeps the trie sound where the store has room for what the path lacks (R113). The loop never ends at
the root: it starts at another node or has a bit left, and no link leads to the root. -/
theorem Trie.Sound.insertFrom (h : t.Sound P) (hn : n < t.length) {bits : List Bool} (hend : n ≠ 0 ∨ bits ≠ [])
    (hpos : 1 ≤ symbol.length) (hmax : symbol.length ≤ P.symMax)
    (hcap : t.length + missingNodes t n bits ≤ P.nodeCap) : (insertFrom symbol t n bits).Sound P := by
  induction bits generalizing t n with
  | nil => exact h.setValue hn (hend.resolve_right (not_not.2 rfl)) hpos hmax
  | cons b bits ih =>
    rw [Machine.insertFrom]
    rw [missingNodes] at hcap
    cases hc : childOf t n b with
    | some m =>
      obtain ⟨hlt, huse⟩ := h.children n b m hc
      exact ih h huse (.inl (by omega)) (by simpa [hc] using hcap)
    | none =>
      have hroom : t.length + (bits.length + 1) ≤ P.nodeCap := by simpa [hc] using hcap
      refine ih (h.addChild hn hc (by omega)) (by simp) (.inl (by omega)) ?_
      rw [missingNodes_of_leaf (childOf_addChild_new t n b), length_addChild]
      omega

/-- What `HUF.INS` accepts is a symbol of a legal length with a code of at least one bit (R113). -/
theorem entry_of_accepted {code : List Byte} (h : entryAccepted P symbol code = true) :
    1 ≤ symbol.length ∧ symbol.length ≤ P.symMax ∧ codeBits code ≠ [] := by
  have hn := mt (entryAccepted_eq_false_iff P symbol code).2 (by simp [h])
  simp only [not_or] at hn
  obtain ⟨hsym, hmax, hcode, _⟩ := hn
  exact ⟨by omega, by omega, fun hnil => hcode (by simpa [codeBits] using hnil)⟩

theorem hufNodeCap_pos : 1 ≤ Config.huf.nodeCap := Nat.le_add_left 1 _

/-- Every effect but `RESET`'s and the insertion's leaves the trie. -/
theorem Trie.Sound.effect (h : s.trie.Sound Config.huf) (hx : InstrEffect s i s') : s'.trie.Sound Config.huf := by
  cases hx with
  | clears => exact Trie.sound_emptyDictionary hufNodeCap_pos
  | inserts symbol code _ _ haccepted hroom =>
    obtain ⟨hpos, hmax, hbits⟩ := entry_of_accepted haccepted
    exact h.insertFrom h.rootExists (.inr hbits) hpos hmax hroom
  | _ => exact h

end Sys2Proof.Machine

open Sys2Proof Sys2Proof.Machine

/-- Settles O57: every effect keeps the trie sound, the insertion by induction on the code's bits. -/
theorem stepKeepsTrieSound : Obligations.StepKeepsTrieSound :=
  fun _ _ => step_keeps (I := fun s => s.trie.Sound Config.huf) (fun h => h) Trie.Sound.effect
end

section
/-! PROOFS. The PID table's invariant (spec/10_state.md R13 to R21): the stages of the reassembler keep an accumulator in
range, steps 3 to 7 keep an entry sound, and every write keeps the table sound. -/

namespace Sys2Proof.Machine

variable {s t : State} {i : Instr} {c : SecClass} {a : Acc} {p : Pid} {e : PidEntry} {cls : PidClass}

/-! ### Accumulators (R18, R19, R20) -/

theorem secAbort_inRange : secAbort.InRange :=
  ⟨Nat.zero_le _, fun h => absurd rfl h, fun h => absurd rfl h⟩

/-- A known target has a section's range, whether it was known or is read from the length field (R174). -/
theorem evalTarget_range (ht : a.bufferTarget ≠ 0 → 3 ≤ a.bufferTarget ∧ a.bufferTarget ≤ 0x1002)
    (h : evalTarget c a ≠ 0) : 3 ≤ evalTarget c a ∧ evalTarget c a ≤ 0x1002 := by
  unfold evalTarget at h ⊢
  split
  · exact sectionTotal_range c a.buffer
  · next hknown => exact ht (by rwa [if_neg hknown] at h)

/-- `SEC.EVAL` gives an accumulator in range when nothing is pending and the buffer is within its capacity, even where the
buffer has already passed the target (R174, R175). -/
theorem secAccept_inRange (hz : a.size = 0) (hp : a.bufferProgress ≤ bufCap)
    (ht : a.bufferTarget ≠ 0 → 3 ≤ a.bufferTarget ∧ a.bufferTarget ≤ 0x1002) : (secAccept c a).acc.InRange := by
  rw [secAccept]
  rcases secEval_cases c a with ⟨hne, hle, h⟩ | ⟨hlt, h⟩ <;> rw [h]
  · obtain ⟨hlow, hhigh⟩ := evalTarget_range ht hne
    have hsize : (a.buffer.take (evalTarget c a)).length = evalTarget c a :=
      List.length_take_of_le hle
    have hprogress : (a.buffer.drop (evalTarget c a)).length ≤ bufCap := by
      rw [List.length_drop]; exact (Nat.sub_le ..).trans hp
    exact ⟨hprogress, fun h0 => absurd rfl h0, fun _ => ⟨hlow.trans_eq hsize.symm, hsize.trans_le hhigh, rfl⟩⟩
  · refine ⟨hp, fun hne => ?_, fun hs => absurd hz hs⟩
    obtain ⟨hlow, hhigh⟩ := evalTarget_range ht hne
    exact ⟨hlow, hhigh, hlt hne⟩

/-- Step 7 keeps an accumulator without a pending section in range (R171, R172, R173). -/
theorem secFeed_inRange (ha : a.InRange) (hz : a.size = 0) (c : SecClass) (pkt : Packet) (start : Nat) (disc : Bool) :
    (secFeed c pkt start disc a).acc.InRange := by
  unfold secFeed
  split
  · rcases secStart_cases c pkt.val start a with ⟨_, h⟩ | ⟨_, _, h⟩ <;> rw [h]
    · exact secAbort_inRange
    · refine secAccept_inRange hz ?_ fun h0 => absurd rfl h0
      have := pkt.property
      simp only [Acc.bufferProgress, List.length_drop, bufCap]
      omega
  · rcases secCont_cases c pkt.val start disc a with ⟨_, h⟩ | ⟨_, _, h⟩ | ⟨_, _, _, h⟩ | ⟨_, _, hroom, h⟩ <;> rw [h]
    · exact secAbort_inRange
    · exact ha
    · exact secAbort_inRange
    · refine secAccept_inRange hz ?_ fun h0 => ?_
      · rwa [Acc.bufferProgress, List.length_append]
      · obtain ⟨hlow, hhigh, _⟩ := ha.target h0
        exact ⟨hlow, hhigh⟩

/-- `SEC.TAKE` leaves no pending section and keeps the tail or drops it (R177, R178). -/
theorem accTaken_inRange (ha : a.InRange) (singleShot : Bool) : (accTaken singleShot a).InRange := by
  cases singleShot with
  | true => exact secAbort_inRange
  | false => exact ⟨ha.progress, ha.target, fun h => absurd rfl h⟩

@[simp] theorem size_accTaken (singleShot : Bool) (a : Acc) : (accTaken singleShot a).size = 0 := by
  cases singleShot <;> rfl

/-! ### Entries (R13, R16, R17) -/

theorem PidEntry.reset_sound (p : Pid) : PidEntry.reset.Sound p :=
  ⟨secAbort_inRange, rfl, fun _ => rfl, fun _ => ⟨rfl, rfl⟩, fun h => absurd rfl h⟩

/-- What steps 3 to 7 can do with the accumulator: leave it, abort it, or run step 7 of the packet's class. -/
theorem feedEntry_acc_cases (cls : PidClass) (pkt : Packet) (e : PidEntry) :
    (feedEntry cls pkt e).entry.acc = e.acc
    ∨ (feedEntry cls pkt e).entry.acc = secAbort
    ∨ ∃ c, cls = .sec c ∧ (feedEntry cls pkt e).entry.acc
        = (secFeed c pkt (payloadStartOf pkt) (discontinuityOf e pkt.flags.cc) e.acc).acc := by
  rcases feedEntry_cases cls pkt e with ⟨_, h⟩ | ⟨_, _, h⟩ | ⟨_, _, _, h⟩ | ⟨_, _, _, _, h⟩ | ⟨_, _, _, _, h⟩ |
    ⟨c, r, _, _, _, hcls, rfl, h⟩ <;> rw [h]
  · exact .inl rfl
  · exact .inr (.inl rfl)
  · exact .inl rfl
  · exact .inl rfl
  · exact .inl rfl
  · exact .inr (.inr ⟨c, hcls, rfl⟩)

/-- A packet under the class that the dispatch gives keeps the entry of its PID sound, where nothing is pending there. -/
theorem feedEntry_sound {pkt : Packet} (he : e.Sound p) (hz : e.acc.size = 0) :
    (feedEntry (classOf p e.ty) pkt e).entry.Sound p := by
  obtain ⟨hty, _, _, hpresent, hvalid, _, _⟩ := feedEntry_fixed (classOf p e.ty) pkt e
  refine ⟨?_, hpresent.trans hvalid.symm, fun h => ?_, fun h => ?_, fun hs => ?_⟩
  · rcases feedEntry_acc_cases (classOf p e.ty) pkt e with h | h | ⟨c, _, h⟩ <;> rw [h]
    · exact he.acc
    · exact secAbort_inRange
    · exact secFeed_inRange he.acc hz ..
  · cases hvalid.symm.trans h
  · cases hpresent.symm.trans h
  · rw [hty]
    rcases feedEntry_acc_cases (classOf p e.ty) pkt e with h | h | ⟨c, hcls, _⟩
    · exact absurd (h ▸ hz) hs
    · exact absurd (h ▸ rfl) hs
    · exact ⟨c, hcls⟩

/-- Writing the type of an entry without a pending section (R201). -/
theorem PidEntry.Sound.withType (he : e.Sound p) (hz : e.acc.size = 0) (ty : PidType) :
    PidEntry.Sound p { e with ty := ty } :=
  ⟨he.acc, he.seen, he.counter, he.unseen, fun h => absurd hz h⟩

/-- Writing the link words (R202). -/
theorem PidEntry.Sound.withLinks (he : e.Sound p) (count ecm : Word16) :
    PidEntry.Sound p { e with programCount := count, pidForEcm := ecm } :=
  ⟨he.acc, he.seen, he.counter, he.unseen, he.pendingClass⟩

/-- Taking the pending section; a PID that has one was seen (R177). -/
theorem PidEntry.Sound.taken (he : e.Sound p) (hz : e.acc.size ≠ 0) (singleShot : Bool) :
    PidEntry.Sound p { e with acc := accTaken singleShot e.acc } where
  acc := accTaken_inRange he.acc singleShot
  seen := he.seen
  counter := he.counter
  unseen := fun h => by
    obtain ⟨hreset, _⟩ := he.unseen h
    exact absurd (hreset ▸ rfl) hz
  pendingClass := fun h => absurd (size_accTaken ..) h

/-! ### The table -/

/-- The invariant speaks of the PID table only. -/
theorem State.TableSound.congr (h : s.TableSound) (ht : t.pidtab = s.pidtab) : t.TableSound := by
  have hentry : ∀ q, t.entry q = s.entry q := fun q => congrArg (PidTab.get · q) ht
  exact ⟨ht ▸ h.canonical, fun q => hentry q ▸ h.entries q, fun p q => by rw [hentry, hentry]; exact h.onePending p q⟩

theorem State.reset_tableSound : State.reset.TableSound :=
  ⟨State.reset_table_wf, fun p => PidEntry.reset_sound p, fun _ _ h => absurd rfl h⟩

/-- Writing a sound entry keeps the table sound, if it holds no section or no other PID does (R20 (a)). -/
theorem State.TableSound.setEntry (h : s.TableSound) (he : e.Sound p)
    (hone : e.acc.size ≠ 0 → ∀ q, (s.entry q).acc.size ≠ 0 → q = p) : (s.setEntry p e).TableSound := by
  have hother : ∀ {q}, q ≠ p → (s.setEntry p e).entry q = s.entry q := State.setEntry_entry_other s e
  have hself : (s.setEntry p e).entry p = e := State.setEntry_entry_self s p e
  refine ⟨PidTab.set_wf h.canonical p e, fun q => ?_, fun q r hq hr => ?_⟩
  · by_cases hqp : q = p
    · rw [hqp, hself]; exact he
    · rw [hother hqp]; exact h.entries q
  · by_cases hqp : q = p <;> by_cases hrp : r = p
    · rw [hqp, hrp]
    · rw [hqp, hself] at hq
      rw [hother hrp] at hr
      exact absurd (hone hq r hr) hrp
    · rw [hrp, hself] at hr
      rw [hother hqp] at hq
      exact absurd (hone hr q hq) hqp
    · rw [hother hqp] at hq
      rw [hother hrp] at hr
      exact h.onePending q r hq hr

/-- A block that accepts a packet holds no completed section (R141). -/
theorem State.Accepting.size_eq_zero (h : s.Accepting) (q : Pid) : (s.entry q).acc.size = 0 := by
  by_contra hq
  simpa [h.2] using State.pendingPid_isSome_of_size hq

theorem State.TableSound.effect (h : s.TableSound) (hx : InstrEffect s i t) : t.TableSound := by
  cases hx with
  | clears => exact State.reset_tableSound.congr rfl
  | setsType _ _ p ty _ hz =>
    exact (h.setEntry ((h.entries p).withType hz ty) fun hs => absurd hz hs).congr rfl
  | setsLink _ count ecm p =>
    exact (h.setEntry ((h.entries p).withLinks count ecm) fun hs q hq => h.onePending q p hq hs).congr rfl
  | takes _ p _ _ hz =>
    exact (h.setEntry ((h.entries p).taken hz _) fun hs => absurd (size_accTaken ..) hs).congr rfl
  | feeds pkt _ ha =>
    exact (h.setEntry (feedEntry_sound (h.entries pkt.pid) (ha.size_eq_zero _))
      fun _ q hq => absurd (ha.size_eq_zero q) hq).congr rfl
  | _ => exact h.congr rfl

end Sys2Proof.Machine

open Sys2Proof Sys2Proof.Machine

/-- Settles O56: `State.TableSound` is carried through every effect. -/
theorem stepKeepsTableSound : Obligations.StepKeepsTableSound :=
  fun _ _ => step_keeps (fun h => h.congr rfl) State.TableSound.effect
end

section
/-! PROOFS. The reset state value by value (spec/10_state.md R30), and that it meets every invariant. -/

namespace Sys2Proof.Machine

/-- The ROM's list is the recurrence of R90 at 0 to 255. -/
theorem crcTable_eq_map : crcTable = (List.range 256).map fun k => crcTableEntry (BitVec.ofNat 8 k) := by
  decide +kernel

theorem crcTable_getElem? (i : Byte) : crcTable[i.toNat]? = some (crcTableEntry i) := by
  rw [crcTable_eq_map, List.getElem?_map, List.getElem?_range i.isLt, Option.map_some, BitVec.ofNat_toNat,
    BitVec.setWidth_eq]

theorem State.reset_sound : State.reset.Sound where
  table := State.reset_tableSound
  trie := Trie.sound_emptyDictionary hufNodeCap_pos
  flags := State.reset_flagsSound

end Sys2Proof.Machine

open Sys2Proof Sys2Proof.Machine

/-- Settles O11: every entry reads as the reset entry, and the ROM by `crcTable_eq_map`. -/
theorem resetStateValues : Obligations.ResetStateValues :=
  ⟨fun _ => ⟨rfl, rfl, rfl, rfl, rfl, rfl, rfl, rfl, rfl, rfl⟩, rfl, valueOf_emptyDictionary 0,
    childOf_emptyDictionary 0, rfl, rfl, rfl, State.reset_table_wf, crcTable_getElem?⟩

/-- Settles O55: the base case of O56, O57 and O58. -/
theorem resetMeetsInvariants : Obligations.ResetMeetsInvariants := State.reset_sound
end

section
/-! PROOFS. The step's two outcomes that the queue alone decides (spec/20_memory.md R47, R48; log entry 1). -/

open Sys2Proof Sys2Proof.Machine

/-- Settles O7: the step on a queue with an oldest request. -/
theorem stepRunsDecodedInstruction : Obligations.StepRunsDecodedInstruction := by
  intro s r rest i hq hd
  simp only [step, hq, hd, State.take, List.tail_cons]

/-- Settles O8: the step on an empty queue. -/
theorem stepWithoutRequestWaits : Obligations.StepWithoutRequestWaits := by
  intro s hq
  simp only [step, hq]
end

section
/-! PROOFS. `TS.FEED` touches the entry of its packet's PID only (spec/20_memory.md R49 (a)), and two feeds of different
PIDs can be swapped (R49 (b)): what an accepted feed writes is a function of the packet and of that one entry, and two
such writes at different PIDs commute. -/

namespace Sys2Proof.Machine

variable {s t : State} {p q : Pid} {pkt : Packet} {e e' : PidEntry}

/-! ### The frame of a feed -/

theorem State.sameButEntry_answer (s : State) (p : Pid) (st : Status) : s.SameButEntry (s.answer st) p :=
  ⟨fun _ _ => rfl, rfl, rfl, rfl, rfl⟩

theorem State.sameButEntry_error (s : State) (p : Pid) (f : ErrFlag) (st : Status) : s.SameButEntry (s.error f st) p :=
  ⟨fun _ _ => rfl, rfl, rfl, rfl, rfl⟩

/-- What `TS.FEED` never writes of its own PID's entry (R152). -/
def PidEntry.SameTypeAndLinks (e e' : PidEntry) : Prop :=
  e'.ty = e.ty ∧ e'.programCount = e.programCount ∧ e'.pidForEcm = e.pidForEcm

theorem feedEntry_sameTypeAndLinks (cls : PidClass) (pkt : Packet) (e : PidEntry) :
    e.SameTypeAndLinks (feedEntry cls pkt e).entry := by
  obtain ⟨hty, hcount, hecm, _⟩ := feedEntry_fixed cls pkt e
  exact ⟨hty, hcount, hecm⟩

theorem exec_tsFeed_frame (h : exec (.tsFeed pkt) s = .next t) :
    s.SameButEntry t pkt.pid ∧ (s.entry pkt.pid).SameTypeAndLinks (t.entry pkt.pid) := by
  rcases exec_tsFeed_cases h with ⟨_, rfl⟩ | ⟨_, _, rfl⟩ | ⟨_, _, rfl⟩ | ⟨_, _, _, rfl⟩ | ⟨_, _, _, rfl⟩
  · exact ⟨s.sameButEntry_answer _ _, rfl, rfl, rfl⟩
  · exact ⟨s.sameButEntry_answer _ _, rfl, rfl, rfl⟩
  · exact ⟨s.sameButEntry_error _ _ _, rfl, rfl, rfl⟩
  · exact ⟨s.sameButEntry_error _ _ _, rfl, rfl, rfl⟩
  · have hfed := feedAccepted_fedTo (s.classOf pkt.pid) pkt s
    exact ⟨hfed.rest, hfed.entry ▸ feedEntry_sameTypeAndLinks ..⟩

/-! ### Writes of a canonical table -/

theorem PidTab.set_get_self {tab : PidTab} (h : tab.wf) (p : Pid) : tab.set p (tab.get p) = tab :=
  PidTab.ext_get (PidTab.set_wf h _ _) h fun q => by
    by_cases hq : q = p
    · rw [hq, PidTab.get_set_self]
    · rw [PidTab.get_set_other _ _ hq]

theorem PidTab.set_comm {tab : PidTab} (h : tab.wf) (hpq : p ≠ q) (e e' : PidEntry) :
    (tab.set p e).set q e' = (tab.set q e').set p e := by
  refine PidTab.ext_get (PidTab.set_wf (PidTab.set_wf h _ _) _ _) (PidTab.set_wf (PidTab.set_wf h _ _) _ _) fun r => ?_
  by_cases hp : r = p
  · rw [hp, PidTab.get_set_other _ _ hpq, PidTab.get_set_self, PidTab.get_set_self]
  · by_cases hq : r = q
    · rw [hq, PidTab.get_set_self, PidTab.get_set_other _ _ hpq.symm, PidTab.get_set_self]
    · rw [PidTab.get_set_other _ _ hq, PidTab.get_set_other _ _ hp, PidTab.get_set_other _ _ hp,
        PidTab.get_set_other _ _ hq]

/-! ### A feed as one write -/

/-- One entry, some flags and one reply: all that a feed writes. -/
def State.writeFeed (s : State) (p : Pid) (e : PidEntry) (w : Word16) (r : Reply) : State :=
  ((s.setEntry p e).raise w).reply r.status r.result

/-- The reply to a packet that passes steps 0 to 2, by its class and the entry of its PID (R140). -/
def feedReply (cls : PidClass) (pkt : Packet) (e : PidEntry) : Reply where
  status := (feedEntry cls pkt e).status
  result := .feed
    { pid := pkt.pid
      cls := cls
      discontinuity := (feedEntry cls pkt e).discontinuity
      payloadStart := (feedEntry cls pkt e).payloadStart
      sectionReady := (feedEntry cls pkt e).entry.acc.size != 0 }

theorem feedAccepted_eq_writeFeed (cls : PidClass) (pkt : Packet) (s : State) :
    feedAccepted cls pkt s = s.writeFeed pkt.pid (feedEntry cls pkt (s.entry pkt.pid)).entry
      (feedEntry cls pkt (s.entry pkt.pid)).flags (feedReply cls pkt (s.entry pkt.pid)) := rfl

/-- An error at step 1 or 2 rewrites the entry of its PID with itself, which a canonical table does not show. -/
theorem State.error_eq_writeFeed (h : s.pidtab.wf) (p : Pid) (f : ErrFlag) (st : Status) :
    s.error f st = s.writeFeed p (s.entry p) f.mask ⟨st, .noFields⟩ := by
  have hself : s.setEntry p (s.entry p) = s := by
    rw [State.setEntry, State.entry, PidTab.set_get_self h]
  rw [State.writeFeed, hself]
  rfl

theorem exec_tsFeed_of_badSync (ha : s.Accepting) (hs : pkt.sync ≠ 0x47) :
    exec (.tsFeed pkt) s = .next (s.error .sync .errSync) := by
  obtain ⟨hlive, hnone⟩ := ha
  simp only [exec, execTsFeed, feedAs, s.unlessFatal_of_live hlive, hnone, Option.isSome_none, Bool.false_eq_true,
    if_false, if_pos hs]

theorem exec_tsFeed_of_tei (ha : s.Accepting) (hs : pkt.sync = 0x47) (ht : pkt.flags.tei = true) :
    exec (.tsFeed pkt) s = .next (s.error .tei .errTei) := by
  obtain ⟨hlive, hnone⟩ := ha
  simp only [exec, execTsFeed, feedAs, s.unlessFatal_of_live hlive, hnone, Option.isSome_none, Bool.false_eq_true,
    if_false, hs, ht, ne_eq, not_true_eq_false, if_true]

/-- What a feed writes that is not refused depends on the packet and the entry of its PID alone. -/
theorem exec_tsFeed_local (pkt : Packet) (e : PidEntry) : ∃ e' w r, ∀ {s : State}, s.Accepting → s.pidtab.wf →
    s.entry pkt.pid = e → exec (.tsFeed pkt) s = .next (s.writeFeed pkt.pid e' w r) := by
  by_cases hs : pkt.sync = 0x47
  · cases ht : pkt.flags.tei with
    | true => exact ⟨e, _, _, fun ha hwf he =>
        (exec_tsFeed_of_tei ha hs ht).trans (he ▸ congrArg _ (State.error_eq_writeFeed hwf ..))⟩
    | false =>
      refine ⟨(feedEntry (classOf pkt.pid e.ty) pkt e).entry, (feedEntry (classOf pkt.pid e.ty) pkt e).flags,
        feedReply (classOf pkt.pid e.ty) pkt e, fun ha _ he => ?_⟩
      subst he
      exact (feedAs_accepted ha hs ht).trans (congrArg _ (feedAccepted_eq_writeFeed ..))
  · exact ⟨e, _, _, fun ha hwf he =>
      (exec_tsFeed_of_badSync ha hs).trans (he ▸ congrArg _ (State.error_eq_writeFeed hwf ..))⟩

/-- Writes at different PIDs commute but for the order of their replies. -/
theorem State.writeFeed_comm (h : s.pidtab.wf) (hpq : p ≠ q) (e e' : PidEntry) (v w : Word16) (x y : Reply) :
    (s.writeFeed q e' w y).writeFeed p e v x
      = { (s.writeFeed p e v x).writeFeed q e' w y with replies := x :: y :: s.replies } := by
  simp only [State.writeFeed, State.setEntry, State.raise, State.reply, PidTab.set_comm h hpq, BitVec.or_assoc,
    BitVec.or_comm v w]

end Sys2Proof.Machine

open Sys2Proof Sys2Proof.Machine

/-- Settles O41: by the cases of a feed, and of an accepted one by what steps 3 to 7 leave (R152). -/
theorem tsFeedTouchesOnlyItsPid : Obligations.TsFeedTouchesOnlyItsPid := fun _ _ _ => exec_tsFeed_frame

/-- Settles O54: each feed makes the same write first and second, since the other leaves its PID's entry. -/
theorem feedsOfDifferentPidsCommute : Obligations.FeedsOfDifferentPidsCommute := by
  intro s a b a' b' p q hwf ha hpq hpa hqb hqa hpb hna hna'
  obtain ⟨e, v, x, hp⟩ := exec_tsFeed_local p (s.entry p.pid)
  obtain ⟨e', w, y, hq⟩ := exec_tsFeed_local q (s.entry q.pid)
  obtain rfl : s.writeFeed p.pid e v x = a := by simpa [hp ha hwf rfl] using hpa
  obtain rfl : s.writeFeed q.pid e' w y = a' := by simpa [hq ha hwf rfl] using hqa
  have hqSecond := hq (s := s.writeFeed p.pid e v x) ⟨ha.1, hna⟩ (PidTab.set_wf hwf _ _)
    (s.setEntry_entry_other e hpq.symm)
  have hpSecond := hp (s := s.writeFeed q.pid e' w y) ⟨ha.1, hna'⟩ (PidTab.set_wf hwf _ _)
    (s.setEntry_entry_other e' hpq)
  obtain rfl : (s.writeFeed p.pid e v x).writeFeed q.pid e' w y = b := by simpa [hqSecond] using hqb
  obtain rfl : (s.writeFeed q.pid e' w y).writeFeed p.pid e v x = b' := by simpa [hpSecond] using hpb
  exact ⟨State.writeFeed_comm hwf hpq e e' v w x y, x, y, rfl, rfl⟩
end

section
/-! PROOFS. The two ends of a PID's traffic that the host steers: the type it registers decides the class of the next
feed (spec/20_memory.md R51 (a), spec/30_encoding.md R70), and a taken section is gone (R46). -/

namespace Sys2Proof.Machine

variable {s t : State} {p : Pid} {pkt : Packet} {code : Byte} {ty : PidType}

/-! ### The registered type -/

theorem typeCode_of_typeOperand (h : typeOperand code = some ty) : (typeCode ty).setWidth 8 = code := by
  simpa using List.find?_some h

theorem typeOperand_pmt_iff (h : typeOperand code = some ty) : ty = .pmt ↔ code = 2 := by
  rw [← typeCode_of_typeOperand h]
  cases ty <;> decide

theorem typeOperand_caEcm_iff (h : typeOperand code = some ty) : ty = .caEcm ↔ code = 3 := by
  rw [← typeCode_of_typeOperand h]
  cases ty <;> decide

/-- The class of a PID after its type was written, by the code that the host sent (R70). -/
theorem classOf_of_typeOperand (h : typeOperand code = some ty) (p : Pid) (old : PidType) :
    classOf p ty = if hasFixedRole p then classOf p old
      else if code = 2 then .sec .pmt else if code = 3 then .ecm else .none := by
  split
  · next hfixed => exact classOf_of_fixed hfixed ty old
  · next hfree =>
    simp only [classOf_of_not_fixed (by simpa using hfree), typeOperand_pmt_iff h, typeOperand_caEcm_iff h]

/-- A `PID.SETTYPE` that answers `OK` wrote the type (R201). -/
theorem exec_pidSetType_of_ok (h : exec (.pidSetType (p.setWidth 16) code) s = .next t)
    (hok : t.replies.head? = some ⟨.ok, .noFields⟩) :
    ∃ ty, typeOperand code = some ty ∧ (t.entry p).ty = ty := by
  rcases exec_pidSetType_cases h with ⟨st, rfl, hst⟩ | ⟨p', ty, _, hp', hty, _, rfl⟩
  · obtain rfl : st = .ok := by simpa using hok
    simp at hst
  · obtain rfl : p = p' := by simpa using hp'
    exact ⟨ty, hty, congrArg PidEntry.ty (s.setEntry_entry_self p _)⟩

/-- A packet that passes steps 0 to 2 is answered with its PID and the class of the dispatch (R140). -/
theorem exec_tsFeed_reports_class (ha : s.Accepting) (hs : pkt.sync = 0x47) (ht : pkt.flags.tei = false) :
    ∃ u st r, exec (.tsFeed pkt) s = .next u ∧ u.replies = ⟨st, .feed r⟩ :: s.replies
      ∧ r.pid = pkt.pid ∧ r.cls = s.classOf pkt.pid :=
  ⟨_, _, _, feedAs_accepted ha hs ht, (feedAccepted_fedTo _ pkt s).reply, rfl, rfl⟩

/-! ### The destructive read -/

theorem exec_secTake_of_empty (hf : s.fatal = false) (hz : (s.entry p).acc.size = 0) :
    exec (.secTake (p.setWidth 16)) s = .next (s.answer .notReady) := by
  simp only [exec, execSecTake, s.unlessFatal_of_live hf, pidOperand_setWidth, hz, if_true]

/-- A `SEC.TAKE` leaves no completed section of its PID, whatever it answers (R46, R177). -/
theorem exec_secTake_empties (hf : s.fatal = false) (h : exec (.secTake (p.setWidth 16)) s = .next t) :
    t.fatal = false ∧ (t.entry p).acc.size = 0 := by
  rcases execSecTake_cases h with ⟨hfatal, _⟩ | ⟨_, hp, _⟩ | ⟨p', _, hp, hcase⟩
  · cases hf.symm.trans hfatal
  · simp at hp
  · obtain rfl : p = p' := by simpa using hp
    rcases hcase with ⟨hz, rfl⟩ | ⟨_, rfl⟩
    · exact ⟨hf, hz⟩
    · refine ⟨hf, ?_⟩
      rw [State.reply_entry, State.raise_entry, State.setEntry_entry_self, size_accTaken]

end Sys2Proof.Machine

open Sys2Proof Sys2Proof.Machine

/-- Settles O42: the class after the write is the one that the sent code gives, and the feed reads it. -/
theorem setTypeSteersNextFeed : Obligations.SetTypeSteersNextFeed := by
  intro s t p code h hok c
  obtain ⟨ty, hcode, hty⟩ := exec_pidSetType_of_ok h hok
  have hclass : t.classOf p = c := by
    rw [State.classOf, hty]
    exact classOf_of_typeOperand hcode p (s.entry p).ty
  refine ⟨hclass, fun q hq => ?_⟩
  subst hq
  exact ⟨(feedAs_eq_exec_tsFeed hclass.symm).symm, fun ha hs ht => hclass ▸ exec_tsFeed_reports_class ha hs ht⟩

/-- Settles O50: whatever the first take answers, nothing is left to take. -/
theorem secTakeTwiceNotReady : Obligations.SecTakeTwiceNotReady := by
  intro s t p hf h
  obtain ⟨hlive, hempty⟩ := exec_secTake_empties hf h
  exact exec_secTake_of_empty hlive hempty
end

section
/-! PROOFS. The dispatch rows as sets of PIDs (spec/30_encoding.md R70): the rows of the EPG PIDs are fixed by the upper bits
of the PID, and which row handles a packet built from its header fields. -/

namespace Sys2Proof

open Sys2Proof.Machine

variable {pid : Pid} {ty : PidType} {f : TsFlags} {body : PacketBody}

/-! ### Rows of more than one PID -/

/-- The words with given upper bits are an interval. -/
theorem upperBits_eq_iff {n k : Nat} (x : BitVec (n + k)) (v : BitVec n) :
    x.extractLsb' k n = v ↔ v.toNat * 2 ^ k ≤ x.toNat ∧ x.toNat < (v.toNat + 1) * 2 ^ k := by
  have hpos : 0 < 2 ^ k := Nat.two_pow_pos k
  have hlt : x.toNat / 2 ^ k < 2 ^ n :=
    Nat.div_lt_of_lt_mul (x.isLt.trans_eq (by rw [Nat.pow_add, Nat.mul_comm]))
  rw [← BitVec.toNat_inj, BitVec.extractLsb'_toNat, Nat.shiftRight_eq_div_pow, Nat.mod_eq_of_lt hlt,
    Nat.div_eq_iff hpos, Nat.succ_mul]
  omega

theorem epg30_iff_range : pid.extractLsb' 4 9 = 0x003 ↔ 0x0030 ≤ pid.toNat ∧ pid.toNat < 0x0040 :=
  upperBits_eq_iff (n := 9) (k := 4) pid 0x003

theorem epg40_iff_range : pid.extractLsb' 5 8 = 0x02 ↔ 0x0040 ≤ pid.toNat ∧ pid.toNat < 0x0060 :=
  upperBits_eq_iff (n := 8) (k := 5) pid 0x02

theorem epg60_iff_range : pid.extractLsb' 1 12 = 0x030 ↔ 0x0060 ≤ pid.toNat ∧ pid.toNat < 0x0062 :=
  upperBits_eq_iff (n := 12) (k := 1) pid 0x030

/-- The three EPG rows cover the PIDs 0x0030 to 0x0061. -/
theorem epgRange_iff : (0x0030 ≤ pid.toNat ∧ pid.toNat < 0x0062) ↔
    pid.extractLsb' 4 9 = 0x003 ∨ pid.extractLsb' 5 8 = 0x02 ∨ pid.extractLsb' 1 12 = 0x030 := by
  rw [epg30_iff_range, epg40_iff_range, epg60_iff_range]
  omega

/-- The dispatch with one test per row of R70. -/
theorem classOf_eq_rows (pid : Pid) (ty : PidType) : classOf pid ty =
    if pid = 0x0000 then .sec .pat
    else if pid = 0x0001 then .sec .cat
    else if pid = 0x0011 then .sec .sdt
    else if pid = 0x0012 then .sec .sdt
    else if pid.extractLsb' 4 9 = 0x003 then .sec .epg
    else if pid.extractLsb' 5 8 = 0x02 then .sec .epg
    else if pid.extractLsb' 1 12 = 0x030 then .sec .epg
    else if ty = .pmt then .sec .pmt
    else if ty = .caEcm then .ecm
    else .none := by
  simp only [classOf, epgRange_iff, ite_or]

/-! ### The row of a packet -/

theorem epg30Pid_low (h : pid.extractLsb' 4 9 = 0x003) : epg30Pid (pid.extractLsb' 0 4) = pid := by
  rw [epg30Pid, ← h]
  exact BitVec.extractLsb'_append_extractLsb' (w := 9)

theorem epg40Pid_low (h : pid.extractLsb' 5 8 = 0x02) : epg40Pid (pid.extractLsb' 0 5) = pid := by
  rw [epg40Pid, ← h]
  exact BitVec.extractLsb'_append_extractLsb' (w := 8)

theorem epg60Pid_low (h : pid.extractLsb' 1 12 = 0x030) : epg60Pid (pid.extractLsb' 0 1) = pid := by
  rw [epg60Pid, ← h]
  exact BitVec.extractLsb'_append_extractLsb' (w := 12)

/-- The row that handles a packet keeps its PID, its flags and its body. -/
theorem rowPacket?_rowOf (ty : PidType) (p : Packet) :
    (rowOf ty p).rowPacket? = some (mkPacket p.pid p.flags p.body) := by
  unfold rowOf
  split
  · next h => rw [h]; rfl
  split
  · next h => rw [h]; rfl
  split
  · next h => rw [h]; rfl
  split
  · next h => rw [h]; rfl
  split
  · next h => simp only [Instr.rowPacket?, epg30Pid_low h]
  split
  · next h => simp only [Instr.rowPacket?, epg40Pid_low h]
  split
  · next h => simp only [Instr.rowPacket?, epg60Pid_low h]
  split
  · rfl
  split <;> rfl

theorem epg30Pid_not_single : ∀ low, epg30Pid low ≠ 0x0000 ∧ epg30Pid low ≠ 0x0001 ∧ epg30Pid low ≠ 0x0011
    ∧ epg30Pid low ≠ 0x0012 := by decide

theorem epg40Pid_not_earlier : ∀ low, epg40Pid low ≠ 0x0000 ∧ epg40Pid low ≠ 0x0001 ∧ epg40Pid low ≠ 0x0011
    ∧ epg40Pid low ≠ 0x0012 ∧ (epg40Pid low).extractLsb' 4 9 ≠ 0x003 := by decide

theorem epg60Pid_not_earlier : ∀ low, epg60Pid low ≠ 0x0000 ∧ epg60Pid low ≠ 0x0001 ∧ epg60Pid low ≠ 0x0011
    ∧ epg60Pid low ≠ 0x0012 ∧ (epg60Pid low).extractLsb' 4 9 ≠ 0x003 ∧ (epg60Pid low).extractLsb' 5 8 ≠ 0x02 := by decide

theorem rowOf_epg30 (low : BitVec 4) : rowOf ty (mkPacket (epg30Pid low) f body) = .tsEpg30 low f body := by
  obtain ⟨hpat, hcat, h11, h12⟩ := epg30Pid_not_single low
  have hhigh : (epg30Pid low).extractLsb' 4 9 = 0x003 := BitVec.extractLsb'_append_eq_left
  have hlow : (epg30Pid low).extractLsb' 0 4 = low := BitVec.extractLsb'_append_eq_right
  simp only [rowOf, mkPacket_pid, mkPacket_flags, mkPacket_body, if_neg hpat, if_neg hcat, if_neg h11, if_neg h12,
    if_pos hhigh, hlow]

theorem rowOf_epg40 (low : BitVec 5) : rowOf ty (mkPacket (epg40Pid low) f body) = .tsEpg40 low f body := by
  obtain ⟨hpat, hcat, h11, h12, h30⟩ := epg40Pid_not_earlier low
  have hhigh : (epg40Pid low).extractLsb' 5 8 = 0x02 := BitVec.extractLsb'_append_eq_left
  have hlow : (epg40Pid low).extractLsb' 0 5 = low := BitVec.extractLsb'_append_eq_right
  simp only [rowOf, mkPacket_pid, mkPacket_flags, mkPacket_body, if_neg hpat, if_neg hcat, if_neg h11, if_neg h12,
    if_neg h30, if_pos hhigh, hlow]

theorem rowOf_epg60 (low : BitVec 1) : rowOf ty (mkPacket (epg60Pid low) f body) = .tsEpg60 low f body := by
  obtain ⟨hpat, hcat, h11, h12, h30, h40⟩ := epg60Pid_not_earlier low
  have hhigh : (epg60Pid low).extractLsb' 1 12 = 0x030 := BitVec.extractLsb'_append_eq_left
  have hlow : (epg60Pid low).extractLsb' 0 1 = low := BitVec.extractLsb'_append_eq_right
  simp only [rowOf, mkPacket_pid, mkPacket_flags, mkPacket_body, if_neg hpat, if_neg hcat, if_neg h11, if_neg h12,
    if_neg h30, if_neg h40, if_pos hhigh, hlow]

/-- A packet of a PID without a fixed role is handled by the row of the registered type (R70, rows 5 to 7). -/
theorem rowOf_of_not_fixed (h : hasFixedRole pid = false) : rowOf ty (mkPacket pid f body) =
    if ty = .pmt then .tsPmt pid f body else if ty = .caEcm then .tsEcm pid f body else .tsNone pid f body := by
  simp only [hasFixedRole, ← Bool.decide_and, epgRange_iff, Bool.or_eq_false_iff, beq_eq_false_iff_ne,
    decide_eq_false_iff_not, not_or] at h
  obtain ⟨⟨⟨⟨hpat, hcat⟩, h11⟩, h12⟩, h30, h40, h60⟩ := h
  simp only [rowOf, mkPacket_pid, mkPacket_flags, mkPacket_body, if_neg hpat, if_neg hcat, if_neg h11, if_neg h12,
    if_neg h30, if_neg h40, if_neg h60]

end Sys2Proof
end

section
/-! PROOFS. Decoder and encoder are inverse (spec/30_encoding.md R61, R62, R70, R75, R77; log entries 3 and 5): on the
operations by their operand layouts, on the dispatch rows by the packet a row stands for. -/

namespace Sys2Proof

open Sys2Proof.Machine

variable {types : Pid → PidType} {i : Instr} {p : Packet} {op : OpCode} {bytes : List Byte}

/-! ### Packets and dictionary entries as operands -/

@[simp] theorem packet?_val (p : Packet) : packet? p.val = some p := dif_pos p.property

theorem packet?_eq_some (h : packet? bytes = some p) : p.val = bytes := by
  unfold packet? at h
  split at h
  · cases h; rfl
  · cases h

/-- The parts of an entry join to it again unless the code is empty, as it is in an entry without `=`. -/
theorem joinEntry_splitEntry {entry : List Byte}
    (h : entryWellFormed (splitEntry entry).1 (splitEntry entry).2 = true) :
    joinEntry (splitEntry entry).1 (splitEntry entry).2 = entry := by
  cases hs : splitAtLast entry with
  | none => simp [splitEntry, hs, entryWellFormed] at h
  | some parts => simpa [splitEntry, hs] using joinEntry_of_splitAtLast hs

/-! ### The operations -/

theorem toByte_of_ofByte? {code : Byte} (h : OpCode.ofByte? code = some op) : op.toByte = code := by
  simpa using List.find?_some h

theorem decode_command (types : Pid → PidType) (h : operands? op bytes = some i) :
    decode types (command op bytes) = .instr i := by
  simp only [decode, command, decodeCommand, ofByte?_toByte, h]

/-- An operation's request decodes to the operation. -/
theorem decode_encode_operation (types : Pid → PidType) (hop : i.rowPacket? = none) (hwf : i.wellFormed = true) :
    decode types (encode i) = .instr i := by
  cases i with
  | reset | statGet | crcChk | hufDec => exact decode_command types rfl
  | pidSetType | pidGet | pidSetLink | secTake =>
    exact decode_command types (by simp only [bytes16, List.cons_append, List.nil_append, operands?, be16_bytes16])
  | crcCalc =>
    exact decode_command types (by simp only [bytes32, List.cons_append, List.nil_append, operands?, be32_bytes32])
  | tsFeed p => exact decode_command types (by simp only [operands?, packet?_val, Option.map_some])
  | hufIns | hufVfy => exact decode_command types (by simp only [operands?, splitEntry_joinEntry hwf])
  | _ => cases hop

/-- Operands read from bytes are written as the same bytes. -/
theorem encode_of_operands? (h : operands? op bytes = some i) (hwf : i.wellFormed = true) :
    encode i = command op bytes := by
  -- one goal per equation of `operands?`, in its order
  unfold operands? at h
  split at h
  · cases h; rfl
  · cases h; rfl
  · cases h; simp only [encode, bytes16_be16, List.cons_append, List.nil_append]
  · cases h; simp only [encode, bytes16_be16]
  · cases h; simp only [encode, bytes16_be16, List.cons_append, List.nil_append]
  · obtain ⟨p, hp, rfl⟩ := Option.map_eq_some_iff.1 h
    rw [encode, packet?_eq_some hp]
  · cases h; simp only [encode, bytes16_be16]
  · cases h; simp only [encode, bytes32_be32, List.cons_append, List.nil_append]
  · cases h; rfl
  · cases h; rw [encode, joinEntry_splitEntry hwf]
  · cases h; rw [encode, joinEntry_splitEntry hwf]
  · cases h; rfl
  · cases h

/-- A request at the command port that decodes begins with the code of the operation its operands belong to. -/
theorem decodeCommand_eq_instr (h : decodeCommand bytes = .instr i) :
    ∃ op operands, bytes = op.toByte :: operands ∧ operands? op operands = some i := by
  cases bytes with
  | nil => cases h
  | cons code operands =>
    simp only [decodeCommand] at h
    split at h
    · cases h
    · next op hop =>
      split at h <;> cases h
      next hi => exact ⟨op, operands, by rw [toByte_of_ofByte? hop], hi⟩

/-! ### The dispatch rows -/

/-- The packet of a row's instruction is built with the right sync byte. -/
theorem sync_of_rowPacket? (h : i.rowPacket? = some p) : p.sync = 0x47 := by
  cases i <;> cases h <;> rfl

theorem encode_of_rowPacket? (h : i.rowPacket? = some p) : encode i = packetRequest p := by
  cases i <;> cases h <;> rfl

theorem decode_packetRequest (types : Pid → PidType) (h : p.sync = 0x47) :
    decode types (packetRequest p) = .instr (rowOf (types p.pid) p) := by
  simp only [decode, packetRequest, decodePacket, packet?_val, if_pos h]

/-- A well-formed row whose table condition holds is the row that handles its packet. -/
theorem rowOf_rowPacket? (h : i.rowPacket? = some p) (hwf : i.wellFormed = true)
    (htypes : i.tableCondition types = true) : rowOf (types p.pid) p = i := by
  cases i with
  | tsPat | tsCat | tsSdt11 | tsSdt12 => cases h; simp [rowOf]
  | tsEpg30 low => cases h; exact rowOf_epg30 low
  | tsEpg40 low => cases h; exact rowOf_epg40 low
  | tsEpg60 low => cases h; exact rowOf_epg60 low
  | tsPmt | tsEcm | tsNone =>
    cases h
    simp only [Instr.wellFormed, Bool.not_eq_true'] at hwf
    simp only [Instr.tableCondition, beq_iff_eq, bne_iff_ne, Bool.and_eq_true] at htypes
    rw [mkPacket_pid, rowOf_of_not_fixed hwf]
    simp [htypes]
  | _ => cases h

theorem encode_rowOf (ty : PidType) (h : p.sync = 0x47) : encode (rowOf ty p) = packetRequest p := by
  rw [encode_of_rowPacket? (rowPacket?_rowOf ty p), mkPacket_of_fields p h]

/-- A request at the packet port with the right first byte decodes to the row of its packet. -/
theorem decodePacket_eq_instr (h : decodePacket types bytes = .instr i) (hsync : bytes.head? = some 0x47) :
    ∃ p : Packet, p.val = bytes ∧ p.sync = 0x47 ∧ i = rowOf (types p.pid) p := by
  unfold decodePacket at h
  split at h
  · cases h
  · next p hp =>
    have hval := packet?_eq_some hp
    have hp47 : p.sync = 0x47 := by
      rw [Packet.sync, Packet.byte, hval, List.getD_eq_getElem?_getD, ← List.head?_eq_getElem?, hsync]
      rfl
    rw [if_pos hp47] at h
    cases h
    exact ⟨p, hval, hp47, rfl⟩

end Sys2Proof

open Sys2Proof Sys2Proof.Machine

/-- Settles O4: an operation by its operand layout, a row by the packet it stands for. -/
theorem decodeOfEncode : Obligations.DecodeOfEncode := by
  intro types i hwf htypes
  rcases rowPacket_cases i with ⟨p, hrow⟩ | hop
  · rw [encode_of_rowPacket? hrow, decode_packetRequest types (sync_of_rowPacket? hrow),
      rowOf_rowPacket? hrow hwf htypes]
  · exact decode_encode_operation types hop hwf

/-- Settles O5: port by port. -/
theorem encodeOfDecode : Obligations.EncodeOfDecode := by
  rintro types ⟨port, bytes⟩ i h hwf hsync
  cases port with
  | command =>
    obtain ⟨op, operands, rfl, hi⟩ := decodeCommand_eq_instr h
    exact encode_of_operands? hi hwf
  | packet =>
    obtain ⟨p, rfl, hp47, rfl⟩ := decodePacket_eq_instr h (hsync rfl)
    exact encode_rowOf (types p.pid) hp47
end

section
/-! PROOFS. The header word (spec/30_encoding.md R62, R63): its slices, and the match and mask columns of R70 as conditions
on the PID; and that `TS.FEED` reads every header field but `transport_priority`. -/

namespace Sys2Proof

open Sys2Proof.Machine

variable (p : Packet)

/-! ### Slices of the header word -/

theorem header_eq_be32 : p.header = be32 (p.byte 0) (p.byte 1) (p.byte 2) (p.byte 3) := rfl

theorem toNat_append_eq_add {n k : Nat} (x : BitVec n) (y : BitVec k) :
    (x ++ y).toNat = x.toNat * 2 ^ k + y.toNat := by
  rw [BitVec.toNat_append, ← Nat.shiftLeft_add_eq_or_of_lt y.isLt, Nat.shiftLeft_eq]

theorem pid_toNat : p.pid.toNat = (p.byte 1).toNat % 32 * 256 + (p.byte 2).toNat := by
  rw [Packet.pid, toNat_append_eq_add, BitVec.extractLsb'_toNat, Nat.shiftRight_zero]
  rfl

/-- The header word field by field: sync byte, the three flags of byte 1, PID, byte 3. -/
theorem header_eq_fields : p.header = p.sync ++ (p.byte 1).extractLsb' 5 3 ++ p.pid ++ p.byte 3 := by
  have hbyte1 := (p.byte 1).isLt
  apply BitVec.eq_of_toNat_eq
  rw [header_eq_be32, be32_toNat, toNat_append_eq_add, toNat_append_eq_add, toNat_append_eq_add, pid_toNat,
    BitVec.extractLsb'_toNat, Nat.shiftRight_eq_div_pow, Packet.sync]
  omega

theorem header_sync : p.header.extractLsb' 24 8 = p.sync := by
  rw [header_eq_fields, BitVec.extractLsb'_append_eq_of_le (by decide), BitVec.extractLsb'_append_eq_of_le (by decide)]
  exact BitVec.extractLsb'_append_eq_left

theorem header_pid : p.header.extractLsb' 8 13 = p.pid := by
  rw [header_eq_fields, BitVec.extractLsb'_append_eq_of_le (Nat.le_refl 8)]
  exact BitVec.extractLsb'_append_eq_right

/-- Bits 16 to 23 of the header word are byte 1. -/
theorem header_getLsbD_byte1 {k : Nat} (h : k < 8) : p.header.getLsbD (16 + k) = (p.byte 1).getLsbD k := by
  have hbyte : p.header.extractLsb' 16 8 = p.byte 1 := by
    rw [header_eq_be32, be32, BitVec.extractLsb'_append_eq_of_le (by decide),
      BitVec.extractLsb'_append_eq_of_le (by decide)]
    exact BitVec.extractLsb'_append_eq_right
  rw [← hbyte, BitVec.getLsbD_extractLsb', decide_eq_true h, Bool.true_and]

/-- A slice of the lowest eight bits of the header word is a slice of byte 3. -/
theorem header_extract_byte3 {start len : Nat} (h : start + len ≤ 8) :
    p.header.extractLsb' start len = (p.byte 3).extractLsb' start len :=
  BitVec.extractLsb'_append_eq_of_add_le h

/-! ### Match and mask -/

/-- A header word with every other field 0: the form of the match column of R70, and of the mask column. -/
def headerWord (sync : Byte) (pid : Pid) : Word32 := sync ++ (0 : BitVec 3) ++ pid ++ (0 : BitVec 8)

theorem header_and_headerWord (mask : Pid) :
    p.header &&& headerWord 0xFF mask = headerWord p.sync (p.pid &&& mask) := by
  have hsync : p.sync &&& 0xFF = p.sync := BitVec.and_allOnes
  have hflags : (p.byte 1).extractLsb' 5 3 &&& 0 = 0 := BitVec.and_zero
  have hbyte3 : p.byte 3 &&& 0 = 0 := BitVec.and_zero
  rw [header_eq_fields, headerWord, headerWord, BitVec.and_append, BitVec.and_append, BitVec.and_append, hsync,
    hflags, hbyte3]

variable {p}

/-- On a packet with the right sync byte, a row's match and mask test the PID alone. -/
theorem header_matches_iff (h : p.sync = 0x47) (mask value : Pid) :
    p.header &&& headerWord 0xFF mask = headerWord 0x47 value ↔ p.pid &&& mask = value := by
  rw [header_and_headerWord, h, headerWord, headerWord, BitVec.append_left_inj, BitVec.append_right_inj]

/-- A row whose mask covers the whole PID. -/
theorem header_matches_pid (h : p.sync = 0x47) (value : Pid) :
    p.header &&& 0xFF1FFF00 = headerWord 0x47 value ↔ p.pid = value := by
  have hmask : p.pid &&& 0x1FFF = p.pid := BitVec.and_allOnes
  exact (header_matches_iff h 0x1FFF value).trans (by rw [hmask])

theorem and_upperBits_eq_iff {n k : Nat} (x : BitVec (n + k)) (v : BitVec n) :
    x &&& (BitVec.allOnes n ++ 0#k) = v ++ 0#k ↔ x.extractLsb' k n = v := by
  have hsplit : x = x.extractLsb' k n ++ x.extractLsb' 0 k := BitVec.extractLsb'_append_extractLsb'.symm
  conv_lhs => rw [hsplit, BitVec.and_append, BitVec.and_allOnes, BitVec.and_zero, BitVec.append_left_inj]

theorem header_matches_epg30 (h : p.sync = 0x47) :
    p.header &&& 0xFF1FF000 = 0x47003000 ↔ p.pid.extractLsb' 4 9 = 0x003 :=
  (header_matches_iff h 0x1FF0 0x0030).trans (and_upperBits_eq_iff (n := 9) (k := 4) p.pid 0x003)

theorem header_matches_epg40 (h : p.sync = 0x47) :
    p.header &&& 0xFF1FE000 = 0x47004000 ↔ p.pid.extractLsb' 5 8 = 0x02 :=
  (header_matches_iff h 0x1FE0 0x0040).trans (and_upperBits_eq_iff (n := 8) (k := 5) p.pid 0x02)

theorem header_matches_epg60 (h : p.sync = 0x47) :
    p.header &&& 0xFF1FFE00 = 0x47006000 ↔ p.pid.extractLsb' 1 12 = 0x030 :=
  (header_matches_iff h 0x1FFE 0x0060).trans (and_upperBits_eq_iff (n := 12) (k := 1) p.pid 0x030)

/-! ### The priority bit -/

section
variable (pid : Pid) (f : TsFlags) (tp : Bool) (body : PacketBody)

theorem mkPacket_drop_of_le {k : Nat} (h : 4 ≤ k) : (mkPacket pid f body).val.drop k = body.val.drop (k - 4) := by
  obtain ⟨n, rfl⟩ := Nat.exists_eq_add_of_le' h
  rw [mkPacket_val_drop, Nat.add_sub_cancel]

theorem mkPacket_getD_of_le {k : Nat} (h : 4 ≤ k) : (mkPacket pid f body).val.getD k 0 = body.val.getD (k - 4) 0 := by
  obtain ⟨n, rfl⟩ := Nat.exists_eq_add_of_le' h
  rw [Nat.add_sub_cancel]
  exact mkPacket_byte_body pid f body n

theorem payloadStartOf_mkPacket : payloadStartOf (mkPacket pid f body) =
    if f.afc.getLsbD 1 then 5 + (body.val.getD 0 0).toNat else 4 := by
  rw [payloadStartOf, mkPacket_flags]
  rfl

theorem four_le_payloadStartOf (p : Packet) : 4 ≤ payloadStartOf p := by
  unfold payloadStartOf
  split <;> omega

/-- The reassembler reads no byte before the payload. -/
theorem secFeed_tp (c : SecClass) {start : Nat} (h : 4 ≤ start) (disc : Bool) (a : Machine.Acc) :
    secFeed c (mkPacket pid { f with tp := tp } body) start disc a = secFeed c (mkPacket pid f body) start disc a := by
  have hdrop (k : Nat) (hk : 4 ≤ k) :
      (mkPacket pid { f with tp := tp } body).val.drop k = (mkPacket pid f body).val.drop k := by
    rw [mkPacket_drop_of_le _ _ _ hk, mkPacket_drop_of_le _ _ _ hk]
  have hbyte : (mkPacket pid { f with tp := tp } body).val.getD start 0 = (mkPacket pid f body).val.getD start 0 := by
    rw [mkPacket_getD_of_le _ _ _ h, mkPacket_getD_of_le _ _ _ h]
  have hsection (pointer : Nat) := hdrop (start + 1 + pointer) (by omega)
  simp only [secFeed, mkPacket_flags, secStart, secCont, hbyte, hdrop start h, hsection]

theorem feedEntry_tp (cls : PidClass) (e : PidEntry) :
    feedEntry cls (mkPacket pid { f with tp := tp } body) e = feedEntry cls (mkPacket pid f body) e := by
  have hstart : payloadStartOf (mkPacket pid { f with tp := tp } body) = payloadStartOf (mkPacket pid f body) := by
    rw [payloadStartOf_mkPacket, payloadStartOf_mkPacket]
  simp only [feedEntry, mkPacket_flags, hstart, secFeed_tp pid f tp body _ (four_le_payloadStartOf _)]

theorem exec_tsFeed_tp (s : State) :
    exec (.tsFeed (mkPacket pid { f with tp := tp } body)) s = exec (.tsFeed (mkPacket pid f body)) s := by
  simp only [exec, execTsFeed, feedAs, mkPacket_pid, mkPacket_sync, mkPacket_flags, feedAccepted, feedEntry_tp]

end

end Sys2Proof

open Sys2Proof Sys2Proof.Machine

/-- Settles O2: the slices of the header word, and `transport_priority` by `exec_tsFeed_tp`. -/
theorem headerFieldsAreSlices : Obligations.HeaderFieldsAreSlices := by
  refine ⟨fun p => ⟨(header_sync p).symm, (header_getLsbD_byte1 p (k := 7) ?_).symm,
    (header_getLsbD_byte1 p (k := 6) ?_).symm, (header_getLsbD_byte1 p (k := 5) ?_).symm, (header_pid p).symm,
    (header_extract_byte3 p ?_).symm, (header_extract_byte3 p ?_).symm, (header_extract_byte3 p ?_).symm,
    be32_toNat .., pid_toNat p⟩, exec_tsFeed_tp⟩ <;> decide

/-- Settles O3: each row's match and mask as its condition on the PID, in the order of `classOf_eq_rows`. -/
theorem dispatchFollowsMatchAndMask : Obligations.DispatchFollowsMatchAndMask := by
  intro p ty h
  have hpat : p.header &&& 0xFF1FFF00 = 0x47000000 ↔ p.pid = 0x0000 := header_matches_pid h 0x0000
  have hcat : p.header &&& 0xFF1FFF00 = 0x47000100 ↔ p.pid = 0x0001 := header_matches_pid h 0x0001
  have h11 : p.header &&& 0xFF1FFF00 = 0x47001100 ↔ p.pid = 0x0011 := header_matches_pid h 0x0011
  have h12 : p.header &&& 0xFF1FFF00 = 0x47001200 ↔ p.pid = 0x0012 := header_matches_pid h 0x0012
  simp only [hpat, hcat, h11, h12, header_matches_epg30 h, header_matches_epg40 h, header_matches_epg60 h]
  exact classOf_eq_rows p.pid ty
end

section
/-! PROOFS. The dispatch rows as operations (spec/30_encoding.md R70, R150, R151; log entry 5): each is the `TS.FEED` of its
packet, and what an accepted one leaves is what steps 3 to 7 do under the row's class. -/

namespace Sys2Proof.Machine

variable {s : State} {i : Instr} {pid : Pid} {f : TsFlags} {body : PacketBody} {cls : PidClass} {c : SecClass}

/-- What an accepted row leaves, by the class that the dispatch gives its PID. -/
theorem exec_row_fedTo (hrow : i.rowPacket? = some (mkPacket pid f body)) (hcls : s.classOf pid = cls)
    (ha : s.Accepting) (htei : f.tei = false) :
    let r := feedEntry cls (mkPacket pid f body) (s.entry pid)
    ∃ t, exec i s = .next t ∧ FedTo s (mkPacket pid f body) cls r.entry r.flags r.status r.payloadStart t := by
  have hfed := feedAccepted_fedTo cls (mkPacket pid f body) s
  rw [mkPacket_pid] at hfed
  refine ⟨_, ?_, hfed⟩
  rw [exec_of_rowPacket hrow, ← feedAs_eq_exec_tsFeed (cls := cls) (by rw [mkPacket_pid, hcls])]
  exact feedAs_accepted ha rfl (by rw [mkPacket_flags, htei])

/-! ### A clear packet with its payload at byte 4 -/

theorem payloadStartOf_of_payloadOnly (hafc : f.afc = 1) : payloadStartOf (mkPacket pid f body) = 4 := by
  rw [payloadStartOf_mkPacket, hafc]
  rfl

theorem maskIf_disc (b : Bool) : ErrFlag.disc.maskIf b = if b then 0x0008 else 0 := rfl

/-- Step 7 under `ECM` (R150). -/
theorem feedEntry_ecm (hsc : f.sc = 0) (hafc : f.afc = 1) (e : PidEntry) :
    feedEntry .ecm (mkPacket pid f body) e = ⟨entrySeen e f.cc, ErrFlag.disc.maskIf (discontinuityOf e f.cc),
      .ecmPassthrough, discontinuityOf e f.cc, some 4⟩ := by
  simp [feedEntry, payloadStartOf_of_payloadOnly hafc, hsc, hafc]

/-- Step 7 under `NONE` (R150). -/
theorem feedEntry_none (hsc : f.sc = 0) (hafc : f.afc = 1) (e : PidEntry) :
    feedEntry .none (mkPacket pid f body) e = ⟨entrySeen e f.cc, ErrFlag.disc.maskIf (discontinuityOf e f.cc),
      .unrouted, discontinuityOf e f.cc, some 4⟩ := by
  simp [feedEntry, payloadStartOf_of_payloadOnly hafc, hsc, hafc]

/-- Step 7 under a reassembled class (R151). -/
theorem feedEntry_sec (hsc : f.sc = 0) (hafc : f.afc = 1) (e : PidEntry) :
    let r := secFeed c (mkPacket pid f body) 4 (discontinuityOf e f.cc) e.acc
    feedEntry (.sec c) (mkPacket pid f body) e = ⟨{ entrySeen e f.cc with acc := r.acc },
      ErrFlag.disc.maskIf (discontinuityOf e f.cc) ||| r.flags, r.status, discontinuityOf e f.cc, some 4⟩ := by
  simp [feedEntry, payloadStartOf_of_payloadOnly hafc, hsc, hafc, entrySeen]

/-- `SEC.START` behind a `pointer_field` within the packet evaluates the bytes after it (R171). -/
theorem secFeed_of_pusi (hpusi : f.pusi = true) (hptr : (body.val.getD 0 0).toNat ≤ 183) (disc : Bool) (a : Acc) :
    secFeed c (mkPacket pid f body) 4 disc a
      = secAccept c ⟨body.val.drop (1 + (body.val.getD 0 0).toNat), 0, a.wholeSection⟩ := by
  have hbyte : (mkPacket pid f body).val.getD 4 0 = body.val.getD 0 0 := mkPacket_getD_of_le pid f body (Nat.le_refl 4)
  have hdrop : (mkPacket pid f body).val.drop (4 + 1 + (body.val.getD 0 0).toNat)
      = body.val.drop (1 + (body.val.getD 0 0).toNat) := by
    rw [mkPacket_drop_of_le _ _ _ (by omega)]
    congr 1
    omega
  rw [secFeed, mkPacket_flags, hpusi, if_pos rfl]
  rcases secStart_cases c (mkPacket pid f body).val 4 a with ⟨hout, _⟩ | ⟨_, _, hstart⟩
  · rw [hbyte] at hout
    omega
  · rw [hstart, hbyte, hdrop]

/-- A row of a reassembled class that starts a section (R151, R171). -/
theorem exec_row_startsSection (hcls : s.classOf pid = .sec c) (hrow : i.rowPacket? = some (mkPacket pid f body))
    (ha : s.Accepting) (htei : f.tei = false) (hpusi : f.pusi = true) (hsc : f.sc = 0) (hafc : f.afc = 1)
    (hptr : (body.val.getD 0 0).toNat ≤ 183) :
    let e := s.entry pid
    let r := secEval c ⟨body.val.drop (1 + (body.val.getD 0 0).toNat), 0, e.acc.wholeSection⟩
    ∃ t, exec i s = .next t
      ∧ FedTo s (mkPacket pid f body) (.sec c)
          { e with present := true, ccValid := true, lastCc := f.cc, acc := r.1 }
          (if discontinuityOf e f.cc then 0x0008 else 0) r.2 (some 4) t := by
  have h := exec_row_fedTo hrow hcls ha htei
  have hflags (w : Word16) : w ||| 0 = w := BitVec.or_zero
  simpa only [feedEntry_sec hsc hafc, secFeed_of_pusi hpusi hptr, secAccept, entrySeen, maskIf_disc, hflags] using h

/-! ### The PIDs of the EPG rows as sums -/

theorem epg30Pid_eq_add : ∀ low, 0x0030 + low.setWidth 13 = epg30Pid low := by decide
theorem epg40Pid_eq_add : ∀ low, 0x0040 + low.setWidth 13 = epg40Pid low := by decide
theorem epg60Pid_eq_add : ∀ low, 0x0060 + low.setWidth 13 = epg60Pid low := by decide

end Sys2Proof.Machine

open Sys2Proof Sys2Proof.Machine

/-- Settles O43: row by row in `exec_of_rowPacket`. -/
theorem rowIsFeedOfItsPacket : Obligations.RowIsFeedOfItsPacket := fun _ _ s h => exec_of_rowPacket h s

/-- Settles O44: one argument for the eight rows, which differ in PID and class. -/
theorem reassembledRowsStartSection : Obligations.ReassembledRowsStartSection := by
  intro s f body ha htei hpusi hsc hafc hptr
  refine ⟨exec_row_startsSection rfl rfl ha htei hpusi hsc hafc hptr,
    exec_row_startsSection rfl rfl ha htei hpusi hsc hafc hptr,
    exec_row_startsSection rfl rfl ha htei hpusi hsc hafc hptr,
    exec_row_startsSection rfl rfl ha htei hpusi hsc hafc hptr, fun low => ?_, fun low => ?_, fun low => ?_,
    fun pid hfree hty => ?_⟩
  · rw [epg30Pid_eq_add]
    exact exec_row_startsSection (classOf_epg30 low _) rfl ha htei hpusi hsc hafc hptr
  · rw [epg40Pid_eq_add]
    exact exec_row_startsSection (classOf_epg40 low _) rfl ha htei hpusi hsc hafc hptr
  · rw [epg60Pid_eq_add]
    exact exec_row_startsSection (classOf_epg60 low _) rfl ha htei hpusi hsc hafc hptr
  · exact exec_row_startsSection (by rw [State.classOf, classOf_of_not_fixed hfree, if_pos hty]) rfl ha htei hpusi hsc
      hafc hptr

/-- Settles O45: step 7 under `ECM` and under `NONE`. -/
theorem unreassembledRowsPassThrough : Obligations.UnreassembledRowsPassThrough := by
  intro s pid f body ha htei hsc hafc hfree
  refine ⟨fun hecm => ?_, fun hecm hpmt => ?_⟩
  · have hcls : s.classOf pid = .ecm := by
      rw [State.classOf, classOf_of_not_fixed hfree, hecm]
      rfl
    have h := exec_row_fedTo (i := .tsEcm pid f body) rfl hcls ha htei
    rwa [feedEntry_ecm hsc hafc] at h
  · have hcls : s.classOf pid = .none := by
      rw [State.classOf, classOf_of_not_fixed hfree, if_neg hpmt, if_neg hecm]
    have h := exec_row_fedTo (i := .tsNone pid f body) rfl hcls ha htei
    rwa [feedEntry_none hsc hafc] at h
end

section
/-! PROOFS. The codes of the tables (spec/30_encoding.md R78, R79; spec/10_state.md R14), and sample words of R77 and R62
decoded. -/

namespace Sys2Proof.Machine

/-! ### Codes -/

/-- The statuses in the order of R78. -/
def Status.all : List Status :=
  [.ok, .refusedFatal, .refusedPending, .eOperand, .fed, .fedComplete, .ignoredWaiting, .abortedDiscontinuity,
    .noPayload, .droppedScrambled, .unrouted, .ecmPassthrough, .errSync, .errTei, .errBounds, .errOverflow, .notReady,
    .hufCorrupt, .hufOverflow, .eSealed, .eFormat, .eCapacity, .vfyMatch, .vfyMismatch, .vfyMissing]

theorem Status.mem_all (a : Status) : a ∈ Status.all := by
  cases a <;> decide

/-- No two statuses share a code: along the table no code comes twice. -/
theorem Status.code_injective : Function.Injective Status.code :=
  fun a b => List.inj_on_of_nodup_map (l := Status.all) (by decide) a.mem_all b.mem_all

/-- The classes in the order of R79. -/
def PidClass.all : List PidClass := [.none, .sec .pat, .sec .cat, .sec .sdt, .sec .epg, .sec .pmt, .ecm]

theorem PidClass.mem_all (a : PidClass) : a ∈ PidClass.all := by
  rcases a with _ | c | _
  · decide
  · cases c <;> decide
  · decide

theorem PidClass.code_injective : Function.Injective PidClass.code :=
  fun a b => List.inj_on_of_nodup_map (l := PidClass.all) (by decide) a.mem_all b.mem_all

theorem typeCode_le (t : PidType) : (typeCode t).toNat ≤ 12 := by
  cases t <;> decide

theorem typeOperand_of_gt {code : Byte} (h : 12 < code.toNat) : typeOperand code = none := by
  cases ht : typeOperand code with
  | none => rfl
  | some t =>
    have hle := typeCode_le t
    rw [← typeCode_of_typeOperand ht, BitVec.toNat_setWidth] at h
    omega

end Sys2Proof.Machine

open Sys2Proof Sys2Proof.Machine

/-- Settles O1: each word evaluated by the decoder. -/
theorem sampleWordsDecode : Obligations.SampleWordsDecode :=
  ⟨by decide, by decide, by decide, by decide, by decide, by decide +kernel, by decide +kernel, by decide⟩

/-- Settles O6: the tables row by row; injectivity and the bound by the lemmas above. -/
theorem resultCodes : Obligations.ResultCodes :=
  ⟨rfl, rfl, rfl, rfl, fun _ _ h => Status.code_injective h, fun _ _ h => PidClass.code_injective h, by decide,
    fun _ => typeOperand_of_gt⟩
end

section
/-! PROOFS. The bit-serial update of R92 (spec/40_crc.md): it is linear over GF(2), loses nothing of the register, and
only shifts when the data are the register's own top bits. The loop of R90 makes the same turns, hence the table-driven
update is the bit-serial one. -/

namespace Sys2Proof.Machine

variable (c d : Word32) (a b : Byte) (x y : Bool)

/-! ### One data bit -/

theorem crcBit_xor : crcBit (c ^^^ d) (x ^^ y) = crcBit c x ^^^ crcBit d y := by
  have shift : (c ^^^ d) <<< 1 = c <<< 1 ^^^ d <<< 1 := BitVec.shiftLeft_xor_distrib ..
  have top : ((c ^^^ d).getLsbD 31 ^^ (x ^^ y)) = ((c.getLsbD 31 ^^ x) ^^ (d.getLsbD 31 ^^ y)) := by
    simp only [BitVec.getLsbD_xor, Bool.xor_assoc, Bool.xor_left_comm]
  have feedback (p q : Bool) : (if p ^^ q then crcPoly else 0)
      = (if p then crcPoly else 0) ^^^ (if q then crcPoly else 0) := by
    cases p <;> cases q <;> simp
  rw [crcBit, shift, top, feedback, crcBit, crcBit]
  ac_rfl

/-- A data bit equal to the register's top bit cancels the feedback. -/
theorem crcBit_of_topBit {c : Word32} {x : Bool} (h : c.getLsbD 31 = x) : crcBit c x = c <<< 1 := by
  rw [crcBit, h, Bool.xor_self, if_neg Bool.false_ne_true]
  exact BitVec.xor_zero

/-- The polynomial's lowest bit, which a shift leaves 0, would show a feedback; so there was a shift alone. -/
theorem eq_zero_of_crcBit_false {c : Word32} (h : crcBit c false = 0) : c = 0 := by
  have top : c.getLsbD 31 = false := by
    cases ht : c.getLsbD 31 with
    | false => rfl
    | true => simpa [crcBit, ht, crcPoly] using congrArg (·.getLsbD 0) h
  rw [crcBit_of_topBit top] at h
  apply BitVec.eq_of_getLsbD_eq
  intro i hi
  obtain rfl | hlt : i = 31 ∨ i + 1 < 32 := by omega
  · simpa using top
  · simpa [hlt, hi] using congrArg (·.getLsbD (i + 1)) h

theorem crcBit_inj {c d : Word32} : crcBit c x = crcBit d x ↔ c = d := by
  refine ⟨fun h => ?_, fun h => h ▸ rfl⟩
  have hz : crcBit (c ^^^ d) false = 0 := by
    rw [← Bool.xor_self x, crcBit_xor, h, BitVec.xor_self]
    rfl
  exact BitVec.xor_eq_zero_iff.mp (eq_zero_of_crcBit_false hz)

/-! ### One byte -/

theorem crcStepSerial_xor : crcStepSerial (c ^^^ d) (a ^^^ b) = crcStepSerial c a ^^^ crcStepSerial d b := by
  simp only [crcStepSerial, List.foldl_cons, List.foldl_nil, BitVec.getLsbD_xor, crcBit_xor]

theorem crcStepSerial_inj {c d : Word32} : crcStepSerial c b = crcStepSerial d b ↔ c = d := by
  simp only [crcStepSerial, List.foldl_cons, List.foldl_nil, crcBit_inj]

/-- The register's own top byte cancels all feedback: bit `7 - n` is the top bit after `n` shifts. -/
theorem crcStepSerial_topByte : crcStepSerial c (c.extractLsb' 24 8) = c <<< 8 := by
  simp only [crcStepSerial, List.foldl_cons, List.foldl_nil]
  simp [crcBit_of_topBit, ← BitVec.shiftLeft_add]

/-! ### The table -/

theorem crcTableTurn_eq (k j : Word32) : crcTableTurn (k, j) = (crcBit k (j.getLsbD 31), j <<< 1) := by
  simp [crcTableTurn, crcBit]

/-- The recurrence of R90 is the bit-serial update of an empty register: before turn `n` the top bit of `j` is bit `7 - n`
of the index. -/
theorem crcTableEntry_eq_crcStepSerial : crcTableEntry b = crcStepSerial 0 b := by
  simp only [crcTableEntry, Nat.repeat, crcTableTurn_eq, crcStepSerial, List.foldl_cons, List.foldl_nil]
  simp [← BitVec.shiftLeft_add]

theorem crcTable_getD : crcTable.getD b.toNat 0 = crcTableEntry b := by
  rw [List.getD_eq_getElem?_getD, crcTable_getElem?, Option.getD_some]

/-- The register is its shifted part, which its own top byte yields, and the table entry at what that byte and the data
differ in. -/
theorem crcStep_eq_crcStepSerial : crcStep c b = crcStepSerial c b := by
  let top := c.extractLsb' 24 8
  calc crcStep c b
    _ = c <<< 8 ^^^ crcTableEntry (top ^^^ b) := by rw [crcStep, crcTable_getD]
    _ = crcStepSerial c top ^^^ crcStepSerial 0 (top ^^^ b) := by
        rw [crcStepSerial_topByte, crcTableEntry_eq_crcStepSerial]
    _ = crcStepSerial (c ^^^ 0) (top ^^^ (top ^^^ b)) := (crcStepSerial_xor ..).symm
    _ = crcStepSerial c b := by
        rw [show c ^^^ 0 = c from BitVec.xor_zero, ← BitVec.xor_assoc, BitVec.xor_self, BitVec.zero_xor]

theorem crcStep_eq_getD_shiftRight :
    crcStep c b = (c <<< 8) ^^^ crcTable.getD ((c >>> 24).toNat ^^^ b.toNat) 0 := by
  have top : (c.extractLsb' 24 8).toNat = (c >>> 24).toNat := by
    have := c.isLt
    simp only [BitVec.extractLsb'_toNat, BitVec.toNat_ushiftRight, Nat.shiftRight_eq_div_pow]
    omega
  rw [crcStep, BitVec.toNat_xor, top]

end Sys2Proof.Machine
end

section
/-! PROOFS. `crc32` (spec/40_crc.md R93): chaining, linearity over GF(2), and that neither a change of the seed nor one of
a single byte is undone by the bytes that follow (R97). -/

namespace Sys2Proof.Machine

/-! ### The update -/

theorem crcStep_xor (c d : Word32) (a b : Byte) : crcStep (c ^^^ d) (a ^^^ b) = crcStep c a ^^^ crcStep d b := by
  simp only [crcStep_eq_crcStepSerial, crcStepSerial_xor]

theorem crcStep_inj {c d : Word32} (b : Byte) : crcStep c b = crcStep d b ↔ c = d := by
  rw [crcStep_eq_crcStepSerial, crcStep_eq_crcStepSerial, crcStepSerial_inj]

theorem crcStep_topByte (c : Word32) : crcStep c (c.extractLsb' 24 8) = c <<< 8 := by
  rw [crcStep_eq_crcStepSerial, crcStepSerial_topByte]

theorem crcStep_zero (b : Byte) : crcStep 0 b = crcTableEntry b := by
  rw [crcStep_eq_crcStepSerial, crcTableEntry_eq_crcStepSerial]

/-- A byte and the register that holds it on top give the same update, so the register's injectivity is the byte's. -/
theorem eq_zero_of_crcStep_zero {b : Byte} (h : crcStep 0 b = 0) : b = 0 := by
  let r : Word32 := b.setWidth 32 <<< 24
  have top : r.extractLsb' 24 8 = b := by
    apply BitVec.eq_of_getLsbD_eq
    intro i hi
    simp [r, hi, show 24 + i < 32 by omega]
  have hr : crcStep r b = 0 := by
    rw [← top, crcStep_topByte, ← BitVec.shiftLeft_add]
    exact BitVec.shiftLeft_eq_zero (Nat.le_refl 32)
  have hz : r = 0 := (crcStep_inj b).mp (hr.trans h.symm)
  rw [← top, hz]
  rfl

theorem crcStep_byte_inj {c : Word32} {a b : Byte} : crcStep c a = crcStep c b ↔ a = b := by
  refine ⟨fun h => ?_, fun h => h ▸ rfl⟩
  have hz : crcStep (c ^^^ c) (a ^^^ b) = 0 := by
    rw [crcStep_xor, h, BitVec.xor_self]
    rfl
  rw [BitVec.xor_self] at hz
  exact BitVec.xor_eq_zero_iff.mp (eq_zero_of_crcStep_zero hz)

/-! ### The function -/

@[simp] theorem crc32_nil (seed : Word32) : crc32 [] seed = seed := rfl

@[simp] theorem crc32_cons (b : Byte) (data : List Byte) (seed : Word32) :
    crc32 (b :: data) seed = crc32 data (crcStep seed b) := rfl

theorem crc32_append (a b : List Byte) (seed : Word32) : crc32 (a ++ b) seed = crc32 b (crc32 a seed) :=
  List.foldl_append

theorem crc32_xor {a b : List Byte} (h : a.length = b.length) (x y : Word32) :
    crc32 (List.zipWith (· ^^^ ·) a b) (x ^^^ y) = crc32 a x ^^^ crc32 b y := by
  induction a generalizing b x y with
  | nil =>
    obtain rfl := List.length_eq_zero_iff.mp h.symm
    rfl
  | cons c a ih =>
    cases b with
    | nil => cases h
    | cons d b =>
      rw [List.zipWith_cons_cons, crc32_cons, crc32_cons, crc32_cons, crcStep_xor, ih (Nat.succ.inj h)]

theorem crc32_zeros (n : Nat) : crc32 (List.replicate n 0) 0 = 0 := by
  induction n with
  | zero => rfl
  | succ n ih =>
    have hz : crcStep 0 0 = 0 := (crcStep_zero 0).trans rfl
    rw [List.replicate_succ, crc32_cons, hz, ih]

theorem crc32_singleton_zero (b : Byte) : crc32 [b] 0 = crcTableEntry b := crcStep_zero b

theorem crc32_inj (data : List Byte) {x y : Word32} : crc32 data x = crc32 data y ↔ x = y := by
  induction data generalizing x y with
  | nil => rfl
  | cons b data ih => rw [crc32_cons, crc32_cons, ih, crcStep_inj]

/-- The updates before the changed byte agree, its own differs, and those after it keep the difference. -/
theorem crc32_set_inj {data : List Byte} {k : Nat} (hk : k < data.length) (seed : Word32) {a b : Byte} :
    crc32 (data.set k a) seed = crc32 (data.set k b) seed ↔ a = b := by
  rw [List.set_eq_take_append_cons_drop, List.set_eq_take_append_cons_drop, if_pos hk, if_pos hk, crc32_append,
    crc32_append, crc32_cons, crc32_cons, crc32_inj, crcStep_byte_inj]

end Sys2Proof.Machine
end

section
/-! PROOFS. The section check (spec/40_crc.md R95, R97 (e)): the trailer shifts out exactly the register that it holds, so a
section is valid when nothing is left; and the claims about the CRC unit. -/

namespace Sys2Proof.Machine

/-! ### The trailer -/

/-- After `n` shifts the register's top byte is the one that stood `n` bits lower. -/
theorem crcStep_shiftLeft (v : Word32) {n : Nat} (hn : n ≤ 24) :
    crcStep (v <<< n) (v.extractLsb' (24 - n) 8) = v <<< (n + 8) := by
  have top : (v <<< n).extractLsb' 24 8 = v.extractLsb' (24 - n) 8 := by
    apply BitVec.eq_of_getLsbD_eq
    intro i hi
    have hlow : 24 - n + i < 32 := by omega
    simp [hi, hlow, show 24 + i < 32 by omega, show ¬24 + i < n by omega,
      show 24 + i - n = 24 - n + i by omega]
  rw [← top, crcStep_topByte, BitVec.shiftLeft_add]

/-- Each byte of the register meets its own top byte, so the register is shifted out. -/
theorem crc32_bytes32_self (v : Word32) : crc32 (bytes32 v) v = 0 := by
  calc crc32 (bytes32 v) v
    _ = crc32 (bytes32 v) (v <<< 0) := by rw [BitVec.shiftLeft_zero]
    _ = v <<< 32 := by
        simp only [bytes32, crc32_cons, crc32_nil]
        rw [crcStep_shiftLeft v (n := 0) (by decide), crcStep_shiftLeft v (n := 8) (by decide),
          crcStep_shiftLeft v (n := 16) (by decide), crcStep_shiftLeft v (n := 24) (by decide)]
    _ = 0 := BitVec.shiftLeft_eq_zero (Nat.le_refl 32)

theorem crc32_bytes32_eq_zero_iff {v r : Word32} : crc32 (bytes32 v) r = 0 ↔ r = v := by
  rw [← crc32_bytes32_self v, crc32_inj]

theorem be32Of_bytes32 (v : Word32) : be32Of (bytes32 v) = v := be32_bytes32 v

theorem crcValid_append_bytes32 (body : List Byte) (v : Word32) :
    crcValid (body ++ bytes32 v) = true ↔ crc32 body crcSeed = v := by
  have hlen : (body ++ bytes32 v).length = body.length + 4 := List.length_append
  rw [crcValid_iff, hlen, Nat.add_sub_cancel, List.take_left, List.drop_left, be32Of_bytes32]
  exact and_iff_right (Nat.le_add_left 4 _)

/-- Any four bytes are those of a word. -/
theorem exists_eq_append_bytes32 {data : List Byte} (h : 4 ≤ data.length) :
    ∃ (body : List Byte) (v : Word32), data = body ++ bytes32 v := by
  have hlen : (data.drop (data.length - 4)).length = 4 := by
    rw [List.length_drop]
    omega
  match hd : data.drop (data.length - 4), hlen with
  | [b3, b2, b1, b0], _ =>
    refine ⟨data.take (data.length - 4), be32 b3 b2 b1 b0, ?_⟩
    rw [bytes32_be32, ← hd, List.take_append_drop]

theorem crcValid_iff_exists_body {data : List Byte} :
    crcValid data = true ↔ ∃ body, data = body ++ bytes32 (crc32 body crcSeed) := by
  constructor
  · intro hv
    obtain ⟨body, v, rfl⟩ := exists_eq_append_bytes32 (crcValid_iff data |>.mp hv).1
    exact ⟨body, by rw [(crcValid_append_bytes32 body v).mp hv]⟩
  · rintro ⟨body, hdata⟩
    rw [hdata, crcValid_append_bytes32]

theorem crcValid_iff_residue_zero {data : List Byte} (h : 4 ≤ data.length) :
    crcValid data = true ↔ crc32 data crcSeed = 0 := by
  obtain ⟨body, v, rfl⟩ := exists_eq_append_bytes32 h
  rw [crcValid_append_bytes32, crc32_append, crc32_bytes32_eq_zero_iff]

/-- Another byte in one place of a valid section gives another residue. -/
theorem crcValid_set_of_ne {data : List Byte} {k : Nat} {b : Byte} (hv : crcValid data = true) (hk : k < data.length)
    (hne : b ≠ data[k]) : crcValid (data.set k b) = false := by
  have hlen : 4 ≤ data.length := (crcValid_iff data |>.mp hv).1
  rw [crcValid_iff_residue_zero hlen] at hv
  rw [Bool.eq_false_iff, Ne, crcValid_iff_residue_zero (by rwa [List.length_set])]
  intro hz
  rw [← hv, ← List.set_getElem_self hk (as := data), List.set_set, crc32_set_inj hk] at hz
  exact hne hz

/-! ### The operations (R94, R96) -/

theorem exec_crcCalc (seed : Word32) (data : List Byte) (s : State) :
    exec (.crcCalc seed data) s = s.unlessFatal (·.reply .ok (.crcValue (crc32 data seed))) := rfl

theorem exec_crcChk (data : List Byte) (s : State) :
    exec (.crcChk data) s = s.unlessFatal (·.reply .ok (.crcCheck (crcValid data))) := rfl

end Sys2Proof.Machine

open Sys2Proof Sys2Proof.Machine

/-- Settles O19: linearity splits the register's own top byte off. -/
theorem crcStepIsBitSerial : Obligations.CrcStepIsBitSerial :=
  fun c b => ⟨crcStep_eq_getD_shiftRight c b, crcStep_eq_crcStepSerial c b⟩

/-- Settles O21: the trailer as the four bytes of a word. -/
theorem crcChkChecksTrailer : Obligations.CrcChkChecksTrailer := by
  intro s data
  rw [exec_crcChk]
  refine ⟨s.unlessFatal_of_fatal, fun hf => ⟨crcValid data, s.unlessFatal_of_live hf, ?_⟩⟩
  rw [crcValid_iff_exists_body]
  constructor
  · rintro ⟨body, hdata⟩
    exact ⟨body, _, _, _, _, hdata, (be32_bytes32 _).symm⟩
  · rintro ⟨body, b3, b2, b1, b0, hdata, hcrc⟩
    have htrailer : bytes32 (crc32 body crcSeed) = [b3, b2, b1, b0] := by
      rw [← bytes32_be32]
      exact congrArg bytes32 hcrc
    exact ⟨body, by rw [hdata, htrailer]⟩

/-- Settles O22: the trailer shifts out exactly the register that it holds. -/
theorem crcValidIffResidueZero : Obligations.CrcValidIffResidueZero :=
  fun _ h => crcValid_iff_residue_zero h

/-- Settles O23: each part a law of `crc32`. -/
theorem crcIsLinear : Obligations.CrcIsLinear :=
  ⟨crc32_nil, crc32_append, fun _ _ x y h => crc32_xor h x y, crc32_zeros,
    fun i => by rw [crcTable_getElem?, crc32_singleton_zero]⟩

/-- Settles O24: a flipped bit makes another byte, and a single other byte another residue. -/
theorem singleBitFlipIsDetected : Obligations.SingleBitFlipIsDetected := by
  intro data k bit hk hv
  have hmask : 1#8 <<< bit.val ≠ 0#8 := by
    revert bit
    decide
  refine crcValid_set_of_ne hv hk fun heq => hmask ?_
  rw [List.getD_eq_getElem _ _ hk] at heq
  simpa using heq

/-- Settles O18: the ROM's list against the recurrence, entry by entry. -/
theorem crcTableIsRecurrence : Obligations.CrcTableIsRecurrence :=
  ⟨by rw [crcTable_eq_map, List.length_map, List.length_range], crcTable_getElem?⟩

/-- Settles O20: the operation's two branches, and the recursion of R93. -/
theorem crcCalcReturnsCrc : Obligations.CrcCalcReturnsCrc := by
  refine ⟨fun s seed data => ?_, crc32_nil, fun c b _ => by rw [crc32_cons, crcStep_eq_getD_shiftRight]⟩
  rw [exec_crcCalc]
  exact ⟨s.unlessFatal_of_fatal, s.unlessFatal_of_live⟩
end

section
/-! PROOFS. The insertion of R113 seen from the root (spec/41_huffman.md R113, R114): it sets the value of one node and
makes links to new nodes only; and in a sound trie no two paths from the root meet, so no other path has a new value.
`HUF.VFY` is the walk along the same path (R115). -/

namespace Sys2Proof.Machine

variable {P : Config.HufParams} {t : Trie} {n k m : Nat} {c : Bool} {s : State} {symbol code : List Byte}

/-! ### What the insertion loop changes -/

/-- A link is an old one, or leads to a new node. -/
theorem childOf_insertFrom (hn : n < t.length) (ht : t.InUse) {bits : List Bool}
    (hm : childOf (insertFrom symbol t n bits) k c = some m) : childOf t k c = some m ∨ t.length ≤ m := by
  induction bits generalizing t n with
  | nil => exact .inl (by simpa [insertFrom] using hm)
  | cons b bits ih =>
    rw [insertFrom] at hm
    cases hc : childOf t n b with
    | some j => exact ih (ht _ _ _ hc) ht (by simpa [hc] using hm)
    | none =>
      rcases ih (t := addChild t n b) (n := t.length) (by simp) (ht.addChild hn) (by simpa [hc] using hm) with hold | hnew
      · rw [childOf_addChild hn] at hold
        split at hold
        · exact .inr (Nat.le_of_eq (Option.some.inj hold))
        · exact .inl hold
      · rw [length_addChild] at hnew
        exact .inr (by omega)

/-- Only the node at the end of the path takes a value. -/
theorem valueOf_insertFrom_of_ne (hn : n < t.length) (ht : t.InUse) {bits : List Bool}
    (hk : walkFrom (insertFrom symbol t n bits) n bits ≠ some k) :
    valueOf (insertFrom symbol t n bits) k = valueOf t k := by
  induction bits generalizing t n with
  | nil =>
    rw [insertFrom, valueOf_setValue hn, if_neg]
    rintro rfl
    exact hk rfl
  | cons b bits ih =>
    rw [walkFrom_cons] at hk
    rw [insertFrom] at hk ⊢
    cases hc : childOf t n b with
    | some j =>
      have hj := ht _ _ _ hc
      simp only [hc, childOf_insertFrom_of_some ht hj bits hc] at hk
      exact ih hj ht hk
    | none =>
      have hlink : childOf (addChild t n b) n b = some t.length := by rw [childOf_addChild hn, if_pos ⟨rfl, rfl⟩]
      have hlen : t.length < (addChild t n b).length := by simp
      simp only [hc, childOf_insertFrom_of_some (ht.addChild hn) hlen bits hlink] at hk
      exact (ih hlen (ht.addChild hn) hk).trans valueOf_addChild

/-! ### Paths in a sound trie (R23) -/

/-- A walk never goes back towards the root. -/
theorem Trie.Sound.le_of_walkFrom (h : t.Sound P) {path : List Bool} (hw : walkFrom t n path = some m) : n ≤ m := by
  induction path generalizing n with
  | nil => exact Nat.le_of_eq (Option.some.inj hw)
  | cons b path ih =>
    rw [walkFrom_cons, Option.bind_eq_some_iff] at hw
    obtain ⟨j, hj, hw⟩ := hw
    exact Nat.le_trans (Nat.le_of_lt (h.children _ _ _ hj).1) (ih hw)

theorem walkFrom_concat_eq_some_iff {path : List Bool} :
    walkFrom t n (path ++ [c]) = some m ↔ ∃ j, walkFrom t n path = some j ∧ childOf t j c = some m := by
  simp [walkFrom_append, walkFrom_cons, Option.bind_eq_some_iff]

/-- No link leads to the root. -/
theorem Trie.Sound.walkFrom_concat_ne_root (h : t.Sound P) {path : List Bool} :
    walkFrom t n (path ++ [c]) ≠ some 0 := fun hw => by
  obtain ⟨j, _, hj⟩ := walkFrom_concat_eq_some_iff.1 hw
  exact absurd (h.children _ _ _ hj).1 (Nat.not_lt_zero j)

/-- No two paths from the root end at the same node. -/
theorem Trie.Sound.path_unique (h : t.Sound P) {p q : List Bool} (hp : walkFrom t 0 p = some m)
    (hq : walkFrom t 0 q = some m) : p = q := by
  induction p using List.reverseRecOn generalizing q m with
  | nil =>
    cases hp
    rcases q.eq_nil_or_concat' with rfl | ⟨q, c, rfl⟩
    · rfl
    · exact absurd hq h.walkFrom_concat_ne_root
  | append_singleton p b ih =>
    rcases q.eq_nil_or_concat' with rfl | ⟨q, c, rfl⟩
    · cases hq
      exact absurd hp h.walkFrom_concat_ne_root
    · obtain ⟨i, hpi, hi⟩ := walkFrom_concat_eq_some_iff.1 hp
      obtain ⟨j, hqj, hj⟩ := walkFrom_concat_eq_some_iff.1 hq
      obtain ⟨rfl, rfl⟩ := h.oneParent _ _ _ _ _ hi hj
      rw [ih hpi hqj]

/-- A path that the insertion made ends at a new node. -/
theorem length_le_of_new_path {bits path : List Bool} (h : t.Sound P) (h' : Trie.Sound P (insertFrom symbol t n bits))
    (hn : n < t.length) (hold : walkFrom t k path = none)
    (hnew : walkFrom (insertFrom symbol t n bits) k path = some m) : t.length ≤ m := by
  induction path generalizing k with
  | nil => cases hold
  | cons c path ih =>
    rw [walkFrom_cons, Option.bind_eq_some_iff] at hnew
    obtain ⟨j, hj, hnew⟩ := hnew
    rcases childOf_insertFrom hn h.inUse hj with hlink | hlink
    · rw [walkFrom_cons, hlink] at hold
      exact ih hold hnew
    · exact hlink.trans (h'.le_of_walkFrom hnew)

/-- The insertion changes the value of no other path, made or not (R114). -/
theorem valueAt_insertFrom_of_ne {bits path : List Bool} (h : t.Sound P)
    (h' : Trie.Sound P (insertFrom symbol t 0 bits)) (hne : path ≠ bits) :
    (walkFrom (insertFrom symbol t 0 bits) 0 path).bind (valueOf (insertFrom symbol t 0 bits))
      = (walkFrom t 0 path).bind (valueOf t) := by
  have hvalue {m} (hm : walkFrom (insertFrom symbol t 0 bits) 0 path = some m) :
      valueOf (insertFrom symbol t 0 bits) m = valueOf t m :=
    valueOf_insertFrom_of_ne h.rootExists h.inUse fun hw => hne (h'.path_unique hm hw)
  cases hold : walkFrom t 0 path with
  | some m =>
    have hm := walkFrom_insertFrom_of_some (symbol := symbol) h.inUse h.rootExists bits hold
    rw [hm]
    exact hvalue hm
  | none =>
    cases hnew : walkFrom (insertFrom symbol t 0 bits) 0 path with
    | none => rfl
    | some m =>
      exact (hvalue hnew).trans (valueOf_of_length_le (length_le_of_new_path h h' h.rootExists hold hnew))

/-! ### The operations (R113, R115) -/

/-- A `HUF.INS` that does not answer `OK` leaves the trie; one that does inserts an accepted entry, for which the store
has room (R113). -/
theorem hufInsert_trie_cases (P : Config.HufParams) (symbol code : List Byte) (s : State) :
    ((hufInsert P symbol code s).replies.head? ≠ some ⟨.ok, .noFields⟩ ∧ (hufInsert P symbol code s).trie = s.trie)
    ∨ (entryAccepted P symbol code = true
      ∧ s.trie.length + missingNodes s.trie 0 (codeBits code) ≤ P.nodeCap
      ∧ (hufInsert P symbol code s).trie = insertFrom symbol s.trie 0 (codeBits code)) := by
  rcases hufInsert_cases P symbol code s with ⟨_, h⟩ | ⟨_, _, h⟩ | ⟨_, _, _, h⟩ | ⟨_, haccepted, hroom, h⟩ <;> rw [h]
  · exact .inl ⟨by simp, rfl⟩
  · exact .inl ⟨by simp, rfl⟩
  · exact .inl ⟨by simp, rfl⟩
  · exact .inr ⟨haccepted, hroom, rfl⟩

theorem hufVerify_of_not_accepted (h : entryAccepted P symbol code = false) :
    hufVerify P symbol code s = s.error .hufDict .eFormat := if_pos h

theorem hufVerify_of_missing (h : entryAccepted P symbol code = true)
    (hw : walkFrom s.trie 0 (codeBits code) = none) : hufVerify P symbol code s = s.error .hufDict .vfyMissing := by
  simp [hufVerify, h, hw]

theorem hufVerify_of_mismatch (h : entryAccepted P symbol code = true)
    (hw : walkFrom s.trie 0 (codeBits code) = some n) (hv : valueOf s.trie n ≠ some symbol) :
    hufVerify P symbol code s = s.error .hufDict .vfyMismatch := by simp [hufVerify, h, hw, hv]

theorem hufVerify_of_match (haccepted : entryAccepted P symbol code = true)
    (hw : walkFrom s.trie 0 (codeBits code) = some n) (hv : valueOf s.trie n = some symbol) :
    hufVerify P symbol code s = s.answer .vfyMatch := by
  simp [hufVerify, haccepted, hw, hv]

end Sys2Proof.Machine

open Sys2Proof Sys2Proof.Machine

/-- Settles O26: the path that the insertion leaves is the one that the verification walks. -/
theorem hufInsThenVfyMatches : Obligations.HufInsThenVfyMatches := by
  refine ⟨?_, fun s symbol code hf => ⟨s.unlessFatal_of_live hf, s.unlessFatal_of_live hf⟩⟩
  rintro P s _ symbol code hs rfl hok
  rcases hufInsert_trie_cases P symbol code s with ⟨hno, _⟩ | ⟨haccepted, _, htrie⟩
  · exact absurd hok hno
  · obtain ⟨n, hw, hv⟩ := walkFrom_insertFrom (symbol := symbol) hs.inUse hs.rootExists (codeBits code)
    rw [← htrie] at hw hv
    exact ⟨⟨n, hw, hv⟩, hufVerify_of_match haccepted hw hv⟩

/-- Settles O27: the trie after the insertion is sound, so no other path ends where the code's does. -/
theorem hufInsKeepsOtherPaths : Obligations.HufInsKeepsOtherPaths := by
  rintro P s _ symbol code hs rfl bits
  rcases hufInsert_trie_cases P symbol code s with ⟨_, htrie⟩ | ⟨haccepted, hroom, htrie⟩ <;> rw [htrie]
  · exact ⟨fun _ => rfl, fun _ => rfl⟩
  · obtain ⟨hpos, hmax, hbits⟩ := entry_of_accepted haccepted
    refine ⟨valueAt_insertFrom_of_ne hs (hs.insertFrom hs.rootExists (.inr hbits) hpos hmax hroom), fun hpath => ?_⟩
    obtain ⟨m, hm⟩ := Option.isSome_iff_exists.1 hpath
    rw [hm, walkFrom_insertFrom_of_some hs.inUse hs.rootExists _ hm]
end

section
/-! PROOFS. The decoding loop (spec/41_huffman.md R118 to R125): it ends, and it decodes what `decodeBits` decodes, since
a turn never changes what the run comes to. -/

namespace Sys2Proof.Machine

variable {P : Config.HufParams} {t : Trie} {data : List Byte} {d : HufRun}

/-! ### The loop ends (R123, R290) -/

/-- A bound on the turns still to come: a run that is not yet corrupt may read on to the end and rewind once. -/
def turnsLeft (data : List Byte) (d : HufRun) : Nat :=
  if hufRunning data d then 8 * data.length - d.pos + (if d.corrupt then 0 else 8 * data.length) else 0

theorem turnsLeft_of_running (h : hufRunning data d = true) :
    turnsLeft data d = 8 * data.length - d.pos + (if d.corrupt then 0 else 8 * data.length) := if_pos h

theorem turnsLeft_le (data : List Byte) (d : HufRun) :
    turnsLeft data d ≤ 8 * data.length - d.pos + (if d.corrupt then 0 else 8 * data.length) := by
  unfold turnsLeft
  split
  · exact Nat.le_refl _
  · exact Nat.zero_le _

theorem turnsLeft_of_overflow (h : d.overflow = true) : turnsLeft data d = 0 := by simp [turnsLeft, hufRunning, h]

theorem turnsLeft_hufTurn_lt (h : hufRunning data d = true) :
    turnsLeft data (hufTurn P t data d) < turnsLeft data d := by
  have hpos := (hufRunning_iff.1 h).2
  have hle := turnsLeft_le data (hufTurn P t data d)
  rw [turnsLeft_of_running h]
  rcases hufTurn_cases P t data d with ⟨hc, ht⟩ | ⟨hc, _, ⟨_, ht⟩ | ⟨_, ht⟩⟩ |
    ⟨m, hc, _, ⟨_, ht⟩ | ⟨v, _, ⟨_, ht⟩ | ⟨_, ht⟩⟩⟩ <;> rw [ht] at hle ⊢
  · simp only [hc] at hle ⊢; omega
  · rw [turnsLeft_of_overflow rfl]; omega
  · simp only [hc, reduceIte, Bool.false_eq_true] at hle ⊢; omega
  · simp only [hc] at hle ⊢; omega
  · rw [turnsLeft_of_overflow rfl]; omega
  · simp only [hc] at hle ⊢; omega

theorem hufRunning_hufLoop_of_turnsLeft_le {k : Nat} (h : turnsLeft data d ≤ k) :
    hufRunning data (hufLoop P t data k d) = false := by
  induction k generalizing d with
  | zero =>
    cases hr : hufRunning data d with
    | false => exact hr
    | true =>
      have := turnsLeft_of_running hr
      have := (hufRunning_iff.1 hr).2
      omega
  | succ k ih =>
    cases hr : hufRunning data d with
    | false => rwa [hufLoop_of_ended hr]
    | true =>
      rw [hufLoop_succ_of_running hr]
      have := turnsLeft_hufTurn_lt (P := P) (t := t) hr
      exact ih (by omega)

theorem hufDecode_ended (P : Config.HufParams) (t : Trie) (data : List Byte) :
    hufRunning data (hufDecode P t data) = false := by
  have : turnsLeft data hufStart ≤ 8 * data.length - 2 + 8 * data.length := turnsLeft_le data hufStart
  exact hufRunning_hufLoop_of_turnsLeft_le (by omega)

/-! ### The stream (R76) -/

/-- All bits of an input, most significant first. -/
def inputBits (data : List Byte) : List Bool := data.flatMap fun b => [7, 6, 5, 4, 3, 2, 1, 0].map fun i => b.getLsbD i

theorem codeStream_eq (data : List Byte) : codeStream data = (inputBits data).drop 2 := rfl

theorem inputBits_cons (b : Byte) (data : List Byte) :
    inputBits (b :: data) = [7, 6, 5, 4, 3, 2, 1, 0].map (fun i => b.getLsbD i) ++ inputBits data := List.flatMap_cons

@[simp] theorem length_inputBits (data : List Byte) : (inputBits data).length = 8 * data.length := by
  induction data with
  | nil => rfl
  | cons b data ih =>
    rw [inputBits_cons, List.length_append, List.length_map, ih, List.length_cons (as := data), Nat.mul_succ]
    exact Nat.add_comm _ _

@[simp] theorem length_codeStream (data : List Byte) : (codeStream data).length = 8 * data.length - 2 := by
  rw [codeStream_eq, List.length_drop, length_inputBits]

/-- A later byte's bits are those of the input without its first byte. -/
theorem streamBit_cons_add (b : Byte) (data : List Byte) (k : Nat) :
    streamBit (b :: data) (8 + k) = streamBit data k := by
  have hdiv : (8 + k) / 8 = k / 8 + 1 := by omega
  rw [streamBit, streamBit, hdiv, List.getD_cons_succ, Nat.add_mod_left]

theorem streamBit_cons_of_lt (b : Byte) (data : List Byte) {k : Nat} (h : k < 8) :
    streamBit (b :: data) k = b.getLsbD (7 - k) := by
  rw [streamBit, Nat.div_eq_of_lt h, List.getD_cons_zero, Nat.mod_eq_of_lt h]

theorem inputBits_getElem? {k : Nat} (h : k < 8 * data.length) : (inputBits data)[k]? = some (streamBit data k) := by
  induction data generalizing k with
  | nil => cases h
  | cons b data ih =>
    rw [inputBits_cons]
    by_cases hk : k < 8
    · rw [List.getElem?_append_left (by simpa using hk), streamBit_cons_of_lt b data hk]
      interval_cases k <;> rfl
    · obtain ⟨j, rfl⟩ := Nat.exists_eq_add_of_le (Nat.not_lt.1 hk)
      rw [List.length_cons] at h
      rw [List.getElem?_append_right (by simp), streamBit_cons_add, ← ih (by omega)]
      simp

/-- The stream from a position inside the input is the bit there and the stream after it. -/
theorem drop_inputBits_of_lt {k : Nat} (h : k < 8 * data.length) :
    (inputBits data).drop k = streamBit data k :: (inputBits data).drop (k + 1) := by
  have hlen : k < (inputBits data).length := by rwa [length_inputBits]
  have hbit : (inputBits data)[k] = streamBit data k := List.getElem_eq_iff hlen |>.2 (inputBits_getElem? h)
  rw [List.drop_eq_getElem_cons hlen, hbit]

theorem drop_inputBits_of_le {k : Nat} (h : 8 * data.length ≤ k) : (inputBits data).drop k = [] := by simpa using h

/-! ### The loop decodes as `decodeBits` does (R118 to R122) -/

/-- A result with the trace written before it. -/
def DecodeResult.afterTrace (trace : List Byte) (r : DecodeResult) : DecodeResult := { r with trace := trace ++ r.trace }

@[simp] theorem DecodeResult.afterTrace_nil (r : DecodeResult) : r.afterTrace [] = r := rfl

/-- What a run comes to, said without the loop: nothing more after an overflow, the rest of the stream as trace in the
corrupt state, and `decodeBits` of the rest of the stream before. -/
def HufRun.outcome (P : Config.HufParams) (t : Trie) (data : List Byte) (d : HufRun) : DecodeResult :=
  let from_ k := (inputBits data).drop k
  if d.overflow then d.result
  else if d.corrupt then ⟨d.text, d.trace ++ (from_ d.pos).map traceDigit, true, false⟩
  else (decodeBits P t (from_ d.pos) d.node (from_ d.unitStart) (from_ d.lastOkStart) d.text).afterTrace d.trace

theorem HufRun.outcome_of_overflow (ho : d.overflow = true) : d.outcome P t data = d.result := if_pos ho

theorem HufRun.outcome_of_corrupt (ho : d.overflow = false) (hc : d.corrupt = true) : d.outcome P t data
    = ⟨d.text, d.trace ++ ((inputBits data).drop d.pos).map traceDigit, true, false⟩ := by simp [outcome, ho, hc]

theorem HufRun.outcome_of_reading (ho : d.overflow = false) (hc : d.corrupt = false) : d.outcome P t data
    = (decodeBits P t ((inputBits data).drop d.pos) d.node ((inputBits data).drop d.unitStart)
        ((inputBits data).drop d.lastOkStart) d.text).afterTrace d.trace := by simp [outcome, ho, hc]

/-- A run that has ended has come to its result. -/
theorem HufRun.outcome_of_ended (h : hufRunning data d = false) : d.outcome P t data = d.result := by
  cases ho : d.overflow with
  | true => exact outcome_of_overflow ho
  | false =>
    have hpos : 8 * data.length ≤ d.pos := by simpa [hufRunning, ho] using h
    cases hc : d.corrupt with
    | true => simp [outcome_of_corrupt ho hc, drop_inputBits_of_le hpos, result, ho, hc]
    | false =>
      simp [outcome_of_reading ho hc, drop_inputBits_of_le hpos, decodeBits, DecodeResult.afterTrace, result, ho, hc]

/-- A turn does not change what the run comes to: in the corrupt state the bit goes from the stream to the trace, and before
the turn does what `decodeBits` does at the bit. -/
theorem HufRun.outcome_hufTurn (h : hufRunning data d = true) :
    (hufTurn P t data d).outcome P t data = d.outcome P t data := by
  obtain ⟨ho, hpos⟩ := hufRunning_iff.1 h
  have hbits := drop_inputBits_of_lt hpos
  rcases hufTurn_cases P t data d with ⟨hc, ht⟩ | ⟨hc, hm, ⟨hcap, ht⟩ | ⟨hcap, ht⟩⟩ |
    ⟨m, hc, hm, ⟨hv, ht⟩ | ⟨v, hv, ⟨hcap, ht⟩ | ⟨hcap, ht⟩⟩⟩ <;> rw [ht]
  · simp [outcome_of_corrupt, ho, hc, hbits]
  · rw [outcome_of_overflow rfl, outcome_of_reading ho hc, hbits]
    simp [decodeBits, hm, hcap, result, hc, DecodeResult.afterTrace]
  · rw [outcome_of_reading ho hc, hbits]
    cases hr : P.resync <;>
      simp [outcome_of_corrupt, ho, decodeBits, hm, Nat.not_lt.2 hcap, rewindPoint, hr, DecodeResult.afterTrace]
  · simp [outcome_of_reading, ho, hc, hbits, decodeBits, hm, hv]
  · rw [outcome_of_overflow rfl, outcome_of_reading ho hc, hbits]
    simp [decodeBits, hm, hv, hcap, result, hc, DecodeResult.afterTrace]
  · simp [outcome_of_reading, ho, hc, hbits, decodeBits, hm, hv, Nat.not_lt.2 hcap]

theorem HufRun.outcome_hufLoop (k : Nat) (d : HufRun) :
    (hufLoop P t data k d).outcome P t data = d.outcome P t data := by
  induction k generalizing d with
  | zero => rfl
  | succ k ih =>
    cases hr : hufRunning data d with
    | true => rw [hufLoop_succ_of_running hr, ih, outcome_hufTurn hr]
    | false => rw [hufLoop_of_ended hr]

/-- The decode of an input without the loop: at entry the whole stream is still to be read, and is the unit's. -/
def decodeStream (P : Config.HufParams) (t : Trie) (stream : List Bool) : DecodeResult :=
  decodeBits P t stream 0 stream stream []

theorem hufDecode_result (P : Config.HufParams) (t : Trie) (data : List Byte) :
    (hufDecode P t data).result = decodeStream P t (codeStream data) := by
  rw [← HufRun.outcome_of_ended (hufDecode_ended P t data), hufDecode, HufRun.outcome_hufLoop]
  rfl

theorem hufDecode_text (P : Config.HufParams) (t : Trie) (data : List Byte) :
    (hufDecode P t data).text = (decodeStream P t (codeStream data)).text :=
  congrArg DecodeResult.text (hufDecode_result P t data)

theorem hufDecode_trace (P : Config.HufParams) (t : Trie) (data : List Byte) :
    (hufDecode P t data).trace = (decodeStream P t (codeStream data)).trace :=
  congrArg DecodeResult.trace (hufDecode_result P t data)

theorem hufDecode_corrupt (P : Config.HufParams) (t : Trie) (data : List Byte) :
    (hufDecode P t data).corrupt = (decodeStream P t (codeStream data)).corrupt :=
  congrArg DecodeResult.corrupt (hufDecode_result P t data)

end Sys2Proof.Machine

open Sys2Proof Sys2Proof.Machine

/-- Settles O31: `turnsLeft` falls with every turn. -/
theorem hufLoopEnds : Obligations.HufLoopEnds := by
  intro P t data
  have hend := hufDecode_ended P t data
  exact ⟨hend, fun k => by rw [hufLoop_add]; exact hufLoop_of_ended hend k⟩

/-- Settles O30: no turn changes what the run comes to, and the loop ends. -/
theorem hufLoopDecodesBitStream : Obligations.HufLoopDecodesBitStream := hufDecode_result
end

section
/-! PROOFS. What a decode produces (spec/41_huffman.md R125, R126): by the recursion of `decodeBits`, which the loop's
result equals. -/

namespace Sys2Proof.Machine

variable {P : Config.HufParams} {t : Trie} {data : List Byte} {bits unit lastOk : List Bool} {node : Nat}
  {text : List Byte}

/-! ### The recursion -/

/-- The text grows by values of nodes, and in a corrupt run by the token after them. -/
theorem decodeBits_text : ∃ symbols : List (List Byte), (∀ v ∈ symbols, ∃ n, valueOf t n = some v)
    ∧ (decodeBits P t bits node unit lastOk text).text
      = text ++ symbols.flatten ++ (if (decodeBits P t bits node unit lastOk text).corrupt then P.token else []) := by
  fun_induction decodeBits P t bits node unit lastOk text with
  | case1 | case2 | case3 | case5 => exact ⟨[], by simp, by simp⟩
  | case4 _ _ _ _ _ _ _ _ _ ih => exact ih
  | case6 b rest node unit lastOk text m _ v hv _ ih =>
    obtain ⟨symbols, hsymbols, htext⟩ := ih
    exact ⟨v :: symbols, List.forall_mem_cons.2 ⟨⟨m, hv⟩, hsymbols⟩, by rw [htext]; simp⟩

theorem length_decodeBits_text_le (h : text.length ≤ P.textCap) :
    (decodeBits P t bits node unit lastOk text).text.length ≤ P.textCap := by
  fun_induction decodeBits P t bits node unit lastOk text with
  | case1 | case2 | case5 => exact h
  | case3 => rw [List.length_append]; omega
  | case4 _ _ _ _ _ _ _ _ _ ih => exact ih h
  | case6 _ _ _ _ _ _ _ _ _ _ _ ih => exact ih (by rw [List.length_append]; omega)

/-- The trace is empty, or in a corrupt run the stream from a rewind point on. The bits not yet read are a tail of the
stream from the unit's start, and this one of the stream from the unit before, so the bit that failed is traced. -/
theorem decodeBits_trace {stream : List Bool} (hunit : bits <:+ unit) (hlast : unit <:+ lastOk)
    (hstream : lastOk <:+ stream) :
    let r := decodeBits P t bits node unit lastOk text
    (r.corrupt = false ∧ r.trace = [])
    ∨ (r.corrupt = true ∧ ∃ tail, tail ≠ [] ∧ tail <:+ stream ∧ r.trace = tail.map traceDigit) := by
  fun_induction decodeBits P t bits node unit lastOk text with
  | case1 | case2 | case5 => exact .inl ⟨rfl, rfl⟩
  | case3 b rest _ unit lastOk _ _ _ from_ =>
    have hfrom : from_ = lastOk ∨ from_ = unit := by
      cases hr : P.resync <;> simp [from_, hr]
    have hne : unit ≠ [] := fun h => by simp [h] at hunit
    refine .inr ⟨rfl, from_, ?_, ?_, rfl⟩
    · rcases hfrom with h | h <;> rw [h]
      · exact fun hnil => hne (List.suffix_nil.1 (hnil ▸ hlast))
      · exact hne
    · rcases hfrom with h | h <;> rw [h]
      · exact hstream
      · exact hlast.trans hstream
  | case4 _ _ _ _ _ _ _ _ _ ih => exact ih ((List.suffix_cons _ _).trans hunit) hlast hstream
  | case6 _ _ _ _ _ _ _ _ _ _ _ ih =>
    exact ih (List.suffix_refl _) ((List.suffix_cons _ _).trans hunit) (hlast.trans hstream)

/-! ### Whole decodes -/

/-- The trace of a whole decode. -/
theorem hufDecode_trace_cases (P : Config.HufParams) (t : Trie) (data : List Byte) :
    ((hufDecode P t data).corrupt = false ∧ (hufDecode P t data).trace = [])
    ∨ ((hufDecode P t data).corrupt = true
      ∧ ∃ tail, tail ≠ [] ∧ tail <:+ codeStream data ∧ (hufDecode P t data).trace = tail.map traceDigit) := by
  rw [hufDecode_corrupt, hufDecode_trace]
  exact decodeBits_trace (List.suffix_refl _) (List.suffix_refl _) (List.suffix_refl _)

/-- A dictionary without entries fails at the first bit (R126 (d)). -/
theorem decodeStream_emptyDictionary {stream : List Bool} (h : stream ≠ []) (hcap : P.token.length ≤ P.textCap) :
    decodeStream P Trie.emptyDictionary stream = ⟨P.token, stream.map traceDigit, true, false⟩ := by
  obtain ⟨b, rest, rfl⟩ := List.exists_cons_of_ne_nil h
  cases hr : P.resync <;> simp [decodeStream, decodeBits, Nat.not_lt.2 hcap, hr]

end Sys2Proof.Machine

open Sys2Proof Sys2Proof.Machine

/-- Settles O33: by the recursion of `decodeBits`. -/
theorem hufTextAndTraceShape : Obligations.HufTextAndTraceShape := by
  intro P t data d
  refine ⟨?_, ?_⟩
  · rw [hufDecode_text, hufDecode_corrupt]
    exact decodeBits_text
  · rcases hufDecode_trace_cases P t data with ⟨hc, htrace⟩ | ⟨hc, tail, hne, _, htrace⟩
    · exact ⟨fun _ => htrace, fun h => absurd (hc.symm.trans h) nofun⟩
    · exact ⟨fun h => absurd (hc.symm.trans h) nofun, fun _ => by simpa [d, htrace] using hne⟩

/-- Settles O34: the text by the recursion of `decodeBits`; the trace is a tail of the stream. -/
theorem hufOutputWithinCapacity : Obligations.HufOutputWithinCapacity := by
  intro P t data
  refine ⟨?_, ?_⟩
  · rw [hufDecode_text]
    exact length_decodeBits_text_le (Nat.zero_le _)
  · rcases hufDecode_trace_cases P t data with ⟨_, htrace⟩ | ⟨_, tail, _, htail, htrace⟩ <;> rw [htrace]
    · exact Nat.zero_le _
    · have hlen : tail.length ≤ 8 * data.length - 2 := length_codeStream data ▸ htail.length_le
      rw [List.length_map]
      omega

/-- Settles O36: the first bit meets a missing child, and `HUF_TEXT_CAP` has room for the token. -/
theorem hufDecOnEmptyTrie : Obligations.HufDecOnEmptyTrie := by
  intro data hdata
  have hlen := length_codeStream data
  have hstream : codeStream data ≠ [] := List.ne_nil_of_length_pos (by
    have := List.length_pos_of_ne_nil hdata
    omega)
  exact ⟨(hufDecode_result ..).trans (decodeStream_emptyDictionary hstream (Nat.le_add_right _ _)), hlen⟩
end

section
/-! PROOFS. The three operations of the Huffman unit as the host sees them (spec/41_huffman.md R113, R115, R117, R123,
R124, R126 (a)): what each answers, the flags it raises, and that nothing else changes. -/

namespace Sys2Proof.Machine

variable {P : Config.HufParams} {s : State} {data : List Byte}

/-! ### The operations outside the `FATAL` state -/

theorem exec_hufIns (symbol code : List Byte) (s : State) :
    exec (.hufIns symbol code) s = s.unlessFatal (hufInsert Config.huf symbol code) := rfl

theorem exec_hufVfy (symbol code : List Byte) (s : State) :
    exec (.hufVfy symbol code) s = s.unlessFatal (hufVerify Config.huf symbol code) := rfl

theorem exec_hufDec (data : List Byte) (s : State) :
    exec (.hufDec data) s = s.unlessFatal (hufRunDecode Config.huf data) := rfl

/-! ### Decoding (R117, R123) -/

theorem hufRunDecode_of_gt (h : P.inMax < data.length) : hufRunDecode P data s = s.answer .eOperand := if_pos h

theorem hufRunDecode_of_le (h : data.length ≤ P.inMax) :
    hufRunDecode P data s = { s with
      hufSealed := true
      errflags := s.errflags ||| hufFlags (hufDecode P s.trie data)
      replies := ⟨hufStatus (hufDecode P s.trie data), .decoded (hufReport (hufDecode P s.trie data))⟩ :: s.replies } :=
  if_neg (Nat.not_lt.2 h)

@[simp] theorem hufRunDecode_fatal (P : Config.HufParams) (data : List Byte) (s : State) :
    (hufRunDecode P data s).fatal = s.fatal := by
  rcases hufRunDecode_cases P data s with ⟨_, h⟩ | ⟨_, h⟩ <;> rw [h] <;> rfl

theorem hufFlags_eq (d : HufRun) :
    hufFlags d = (if d.corrupt then 0x0040 else 0) ||| (if d.overflow then 0x0200 else 0) := rfl

/-- A second decode finds the same trie, and the seal and its flags set: it gives the first one's reply once more
(R124). -/
theorem hufRunDecode_again (P : Config.HufParams) (data : List Byte) (s : State) :
    ∃ r, (hufRunDecode P data s).replies.head? = some r
      ∧ hufRunDecode P data (hufRunDecode P data s)
        = { hufRunDecode P data s with replies := r :: (hufRunDecode P data s).replies } := by
  rcases Nat.lt_or_ge P.inMax data.length with h | h
  · rw [hufRunDecode_of_gt h, hufRunDecode_of_gt h]
    exact ⟨_, rfl, rfl⟩
  · rw [hufRunDecode_of_le h, hufRunDecode_of_le h]
    exact ⟨_, rfl, by simp only [BitVec.or_assoc, BitVec.or_self]⟩

/-! ### The first two bits (R126 (a)) -/

theorem codeStream_cons (b : Byte) (data : List Byte) :
    codeStream (b :: data) = [5, 4, 3, 2, 1, 0].map (fun i => b.getLsbD i) ++ inputBits data := rfl

theorem codeStream_cons_congr {b c : Byte} (h : b &&& 0x3F = c &&& 0x3F) (data : List Byte) :
    codeStream (b :: data) = codeStream (c :: data) := by
  have hbit : ∀ i ∈ [5, 4, 3, 2, 1, 0], b.getLsbD i = c.getLsbD i := fun i hi => by
    have hmask : (0x3F : Byte).getLsbD i = true := by
      revert i
      decide
    have hand := congrArg (·.getLsbD i) h
    simpa only [BitVec.getLsbD_and, hmask, Bool.and_true] using hand
  rw [codeStream_cons, codeStream_cons, List.map_congr_left hbit]

/-- What `HUF.DEC` gives depends on its input through the length and the code stream only. -/
theorem hufRunDecode_congr {data' : List Byte} (hlen : data.length = data'.length)
    (hstream : codeStream data = codeStream data') : hufRunDecode P data s = hufRunDecode P data' s := by
  have hresult : (hufDecode P s.trie data).result = (hufDecode P s.trie data').result := by
    rw [hufDecode_result, hufDecode_result, hstream]
  simp only [HufRun.result, DecodeResult.mk.injEq] at hresult
  obtain ⟨htext, htrace, hcorrupt, hoverflow⟩ := hresult
  simp only [hufRunDecode, hufFlags, hufStatus, hufReport, hlen, htext, htrace, hcorrupt, hoverflow]

end Sys2Proof.Machine

open Sys2Proof Sys2Proof.Machine

/-- Settles O25: the four ways of `hufInsert_cases`, behind the test of `FATAL`. -/
theorem hufInsOutcome : Obligations.HufInsOutcome := by
  intro s symbol code lacking
  have hformat := entryAccepted_eq_false_iff Config.huf symbol code
  rw [exec_hufIns]
  by_cases hf : s.fatal = true
  · exact ⟨_, s.unlessFatal_of_fatal hf, by rw [if_pos hf]⟩
  · refine ⟨_, s.unlessFatal_of_live (eq_false_of_ne_true hf), ?_⟩
    rw [if_neg hf]
    rcases hufInsert_cases Config.huf symbol code s with ⟨hs, h⟩ | ⟨hs, ha, h⟩ | ⟨hs, ha, hcap, h⟩ |
      ⟨hs, ha, hroom, h⟩ <;> rw [h]
    · rw [if_pos hs]
    · rw [if_neg (by simp [hs]), if_pos (hformat.1 ha)]
      rfl
    · rw [if_neg (by simp [hs]), if_neg (mt hformat.2 (by simp [ha])), if_pos hcap]
      rfl
    · rw [if_neg (by simp [hs]), if_neg (mt hformat.2 (by simp [ha])), if_neg (Nat.not_lt.2 hroom)]
      exact ⟨length_insertFrom _ _ _, rfl⟩

/-- Settles O28: the format test, then the walk, then the value at its end. -/
theorem hufVfyComparesEntry : Obligations.HufVfyComparesEntry := by
  intro s symbol code dictError
  have hformat := entryAccepted_eq_false_iff Config.huf symbol code
  have hany : (code.any fun c => c != 0x30 && c != 0x31) = true ↔ ∃ c ∈ code, c ≠ 0x30 ∧ c ≠ 0x31 := by simp
  rw [← hany] at hformat
  rw [exec_hufVfy]
  by_cases hf : s.fatal = true
  · rw [s.unlessFatal_of_fatal hf, if_pos hf]
  rw [s.unlessFatal_of_live (eq_false_of_ne_true hf), if_neg hf]
  cases ha : entryAccepted Config.huf symbol code with
  | false =>
    rw [hufVerify_of_not_accepted ha, if_pos (hformat.1 ha)]
    rfl
  | true =>
    rw [if_neg (mt hformat.2 (by simp [ha]))]
    cases hw : walkFrom s.trie 0 (codeBits code) with
    | none =>
      rw [hufVerify_of_missing ha hw]
      rfl
    | some n =>
      by_cases hv : valueOf s.trie n = some symbol
      · rw [hufVerify_of_match ha hw hv]
        exact congrArg _ (if_pos hv).symm
      · rw [hufVerify_of_mismatch ha hw hv]
        exact congrArg _ (if_neg hv).symm

/-- Settles O29: the operation's two branches, with the flags' masks written out. -/
theorem hufDecOutcome : Obligations.HufDecOutcome := by
  intro s data
  rw [exec_hufDec]
  refine ⟨s.unlessFatal_of_fatal, fun hf hlen => ?_⟩
  rw [s.unlessFatal_of_live hf, hufRunDecode_of_le hlen, hufFlags_eq, ← BitVec.or_assoc]
  rfl

/-- Settles O32: the two inputs have one code stream. -/
theorem hufDecIgnoresTopBits : Obligations.HufDecIgnoresTopBits := by
  intro s b c rest h
  rw [exec_hufDec, exec_hufDec]
  exact congrArg s.unlessFatal (funext fun _ => hufRunDecode_congr rfl (codeStream_cons_congr h rest))

/-- Settles O35: refused twice, or run twice. -/
theorem hufDecIsIdempotent : Obligations.HufDecIsIdempotent := by
  intro s t u data ht hu
  rw [exec_hufDec] at ht hu
  rcases s.unlessFatal_cases ht with ⟨hf, rfl⟩ | ⟨hf, rfl⟩
  · rw [State.unlessFatal_of_fatal _ (by simpa using hf)] at hu
    cases hu
    exact ⟨rfl, rfl⟩
  · rw [State.unlessFatal_of_live _ (by simpa using hf)] at hu
    cases hu
    obtain ⟨r, hr, hagain⟩ := hufRunDecode_again Config.huf data s
    rw [hagain, hr]
    exact ⟨rfl, rfl⟩
end

section
/-! PROOFS. The header parser (spec/42_ts_parser.md R141 to R150): step 0 refuses, steps 1 and 2 end with their flag alone,
step 3 compares and stores the counter of every packet that reaches it, and each path of steps 4 to 7 without a payload for
the reassembler has its own equation. -/

namespace Sys2Proof.Machine

variable {s : State} {p : Packet} {cls : PidClass}

/-! ### Step 0 -/

theorem exec_tsFeed_of_fatal (hf : s.fatal = true) : exec (.tsFeed p) s = .next (s.answer .refusedFatal) := by
  rw [exec, execTsFeed, feedAs, s.unlessFatal_of_fatal hf]

theorem exec_tsFeed_of_pending (hf : s.fatal = false) (hp : s.pendingPid?.isSome = true) :
    exec (.tsFeed p) s = .next (s.answer .refusedPending) := by
  rw [exec, execTsFeed, feedAs, s.unlessFatal_of_live hf, if_pos hp]

/-! ### Past steps 1 and 2 -/

/-- What an accepted packet leaves is what steps 3 to 7 do under the class of the dispatch (R149). -/
theorem exec_tsFeed_fedTo (ha : s.Accepting) (hs : p.sync = 0x47) (ht : p.flags.tei = false) :
    let r := feedEntry (s.classOf p.pid) p (s.entry p.pid)
    ∃ t, exec (.tsFeed p) s = .next t ∧ FedTo s p (s.classOf p.pid) r.entry r.flags r.status r.payloadStart t :=
  ⟨_, feedAs_accepted ha hs ht, feedAccepted_fedTo _ p s⟩

/-! ### The continuity counter (R145) -/

/-- R145's formula in arithmetic: adding 15 to a 4-bit counter takes one off it modulo 16. -/
theorem discontinuityOf_iff (e : PidEntry) (cc : BitVec 4) :
    discontinuityOf e cc = true ↔ e.ccValid = true ∧ (cc.toNat + 15) % 16 ≠ e.lastCc.toNat := by
  rw [discontinuityOf, Bool.and_eq_true, bne_iff_ne, ne_eq, ← BitVec.toNat_inj, BitVec.toNat_add]
  rfl

/-- The reassembler raises no flag, or `BOUNDS`, or `OVERFLOW` (R171, R172). -/
theorem secFeed_flags_cases (c : SecClass) (p : Packet) (start : Nat) (disc : Bool) (a : Acc) :
    (secFeed c p start disc a).flags = 0 ∨ (secFeed c p start disc a).flags = ErrFlag.bounds.mask
      ∨ (secFeed c p start disc a).flags = ErrFlag.overflow.mask := by
  unfold secFeed
  split
  · rcases secStart_cases c p.val start a with ⟨_, h⟩ | ⟨_, _, h⟩ <;> rw [h]
    · exact .inr (.inl rfl)
    · exact .inl rfl
  · rcases secCont_cases c p.val start disc a with ⟨_, h⟩ | ⟨_, _, h⟩ | ⟨_, _, _, h⟩ | ⟨_, _, _, h⟩ <;> rw [h]
    · exact .inl rfl
    · exact .inl rfl
    · exact .inr (.inr rfl)
    · exact .inl rfl

theorem secFeed_flags_disc (c : SecClass) (p : Packet) (start : Nat) (disc : Bool) (a : Acc) :
    (secFeed c p start disc a).flags.getLsbD ErrFlag.disc.bit = false := by
  rcases secFeed_flags_cases c p start disc a with h | h | h <;> rw [h] <;> rfl

/-- Of steps 3 to 7 the counter's comparison alone raises `DISC`. -/
theorem feedEntry_flags_disc (cls : PidClass) (p : Packet) (e : PidEntry) :
    (feedEntry cls p e).flags.getLsbD ErrFlag.disc.bit = discontinuityOf e p.flags.cc := by
  have hdisc : (ErrFlag.disc.maskIf (discontinuityOf e p.flags.cc)).getLsbD ErrFlag.disc.bit
      = discontinuityOf e p.flags.cc := by simp
  have hor {w : Word16} (hw : w.getLsbD ErrFlag.disc.bit = false) :
      (ErrFlag.disc.maskIf (discontinuityOf e p.flags.cc) ||| w).getLsbD ErrFlag.disc.bit
        = discontinuityOf e p.flags.cc := by rw [BitVec.getLsbD_or, hdisc, hw, Bool.or_false]
  rcases feedEntry_cases cls p e with ⟨_, h⟩ | ⟨_, _, h⟩ | ⟨_, _, _, h⟩ | ⟨_, _, _, _, h⟩ | ⟨_, _, _, _, h⟩ |
    ⟨c, r, _, _, _, _, rfl, h⟩ <;> rw [h]
  · exact hdisc
  · exact hor rfl
  · exact hdisc
  · exact hdisc
  · exact hdisc
  · exact hor (secFeed_flags_disc ..)

/-! ### The paths without a payload for the reassembler (R146, R147, R148, R150) -/

section
variable (e : PidEntry)

theorem feedEntry_of_scrambled (hsc : p.flags.sc ≠ 0) :
    feedEntry cls p e = ⟨{ entrySeen e p.flags.cc with scramblingControl := p.flags.sc },
      ErrFlag.disc.maskIf (discontinuityOf e p.flags.cc), .droppedScrambled, discontinuityOf e p.flags.cc, none⟩ :=
  if_pos hsc

theorem feedEntry_of_startPastEnd (hsc : p.flags.sc = 0) (hout : 188 < payloadStartOf p) :
    feedEntry cls p e = ⟨{ entrySeen e p.flags.cc with acc := secAbort },
      ErrFlag.disc.maskIf (discontinuityOf e p.flags.cc) ||| ErrFlag.bounds.mask, .errBounds,
      discontinuityOf e p.flags.cc, none⟩ := by
  simp only [feedEntry, hsc, ne_eq, not_true_eq_false, if_false, if_pos hout]

theorem feedEntry_of_noPayload (hsc : p.flags.sc = 0) (hin : payloadStartOf p ≤ 188)
    (hafc : p.flags.afc.getLsbD 0 = false) :
    feedEntry cls p e = ⟨entrySeen e p.flags.cc, ErrFlag.disc.maskIf (discontinuityOf e p.flags.cc), .noPayload,
      discontinuityOf e p.flags.cc, some (payloadStartOf p)⟩ := by
  simp only [feedEntry, hsc, ne_eq, not_true_eq_false, if_false, if_neg (Nat.not_lt.2 hin), if_pos hafc]

theorem feedEntry_none_of_payload (hsc : p.flags.sc = 0) (hin : payloadStartOf p ≤ 188)
    (hafc : p.flags.afc.getLsbD 0 = true) :
    feedEntry .none p e = ⟨entrySeen e p.flags.cc, ErrFlag.disc.maskIf (discontinuityOf e p.flags.cc), .unrouted,
      discontinuityOf e p.flags.cc, some (payloadStartOf p)⟩ := by
  simp only [feedEntry, hsc, ne_eq, not_true_eq_false, if_false, if_neg (Nat.not_lt.2 hin), hafc, Bool.true_eq_false]

theorem feedEntry_ecm_of_payload (hsc : p.flags.sc = 0) (hin : payloadStartOf p ≤ 188)
    (hafc : p.flags.afc.getLsbD 0 = true) :
    feedEntry .ecm p e = ⟨entrySeen e p.flags.cc, ErrFlag.disc.maskIf (discontinuityOf e p.flags.cc),
      .ecmPassthrough, discontinuityOf e p.flags.cc, some (payloadStartOf p)⟩ := by
  simp only [feedEntry, hsc, ne_eq, not_true_eq_false, if_false, if_neg (Nat.not_lt.2 hin), hafc, Bool.true_eq_false]

end

end Sys2Proof.Machine

open Sys2Proof Sys2Proof.Machine

/-- Settles O37: step 0, where a PID that holds a completed section makes the block pending. -/
theorem tsFeedRefusals : Obligations.TsFeedRefusals :=
  fun _ _ => ⟨exec_tsFeed_of_fatal, fun hf ⟨_, hq⟩ => exec_tsFeed_of_pending hf (State.pendingPid_isSome_of_size hq)⟩

/-- Settles O38: steps 1 and 2, with the flags' masks written out. -/
theorem tsFeedFramingErrors : Obligations.TsFeedFramingErrors :=
  fun _ _ ha => ⟨exec_tsFeed_of_badSync ha, exec_tsFeed_of_tei ha⟩

/-- Settles O39: what every path of steps 3 to 7 has in common, by `feedEntry_fixed` and `feedEntry_flags_disc`. -/
theorem tsFeedContinuity : Obligations.TsFeedContinuity := by
  intro s p ha hs ht
  obtain ⟨t, hexec, hfed⟩ := exec_tsFeed_fedTo ha hs ht
  obtain ⟨hty, hcount, hecm, hpresent, hvalid, hcc, _⟩ := feedEntry_fixed (s.classOf p.pid) p (s.entry p.pid)
  rw [← hfed.entry] at hty hcount hecm hpresent hvalid hcc
  refine ⟨t, _, _, hexec, hpresent, hvalid, hcc, hty, hcount, hecm, hfed.reply, discontinuityOf_iff .., ?_⟩
  rw [State.flag, hfed.flags, BitVec.getLsbD_or, feedEntry_flags_disc]
  rfl

/-- Settles O40: the equation of each path, in the state that steps 3 to 7 leave. -/
theorem tsFeedPathsWithoutPayload : Obligations.TsFeedPathsWithoutPayload := by
  intro s p ha hs ht e seen disc start
  obtain ⟨t, hexec, hfed⟩ := exec_tsFeed_fedTo ha hs ht
  refine ⟨t, hexec, fun hsc => ?_, fun hsc hout => ?_, fun hsc hin hafc => ?_, fun hsc hin hafc hcls => ?_,
    fun hsc hin hafc hcls => ?_⟩
  · rwa [feedEntry_of_scrambled _ hsc] at hfed
  · rwa [feedEntry_of_startPastEnd _ hsc hout] at hfed
  · rwa [feedEntry_of_noPayload _ hsc hin hafc] at hfed
  · rwa [hcls, feedEntry_none_of_payload _ hsc hin hafc] at hfed
  · rwa [hcls, feedEntry_ecm_of_payload _ hsc hin hafc] at hfed
end

section
/-! PROOFS. Step 7 for the reassembled classes (spec/43_section_reassembler.md R171 to R175): what an accepted packet of such
a class leaves, where the target of `SEC.EVAL` comes from, and how far an append can go while it is known (R180). -/

namespace Sys2Proof.Machine

variable {s : State} {p : Packet} {c : SecClass} {a : Acc} {e : PidEntry}

/-! ### A packet of a reassembled class (R151) -/

theorem feedEntry_sec_of_payload (hp : CarriesPayload p) (e : PidEntry) :
    let r := secFeed c p (payloadStartOf p) (discontinuityOf e p.flags.cc) e.acc
    feedEntry (.sec c) p e = ⟨{ entrySeen e p.flags.cc with acc := r.acc },
      ErrFlag.disc.maskIf (discontinuityOf e p.flags.cc) ||| r.flags, r.status, discontinuityOf e p.flags.cc,
      some (payloadStartOf p)⟩ := by
  simp only [feedEntry, hp.clear, ne_eq, not_true_eq_false, if_false, if_neg (Nat.not_lt.2 hp.inside), hp.hasPayload,
    Bool.true_eq_false, entrySeen]

/-- No listed entry holds a completed section; the form of the table does not matter. -/
theorem State.pendingPid_eq_none_iff_mem : s.pendingPid? = none ↔ ∀ x ∈ s.pidtab, x.2.acc.size = 0 := by
  simp [State.pendingPid?]

theorem State.Accepting.setEntry (ha : s.Accepting) (hz : e.acc.size = 0) (pid : Pid) :
    (s.setEntry pid e).Accepting := by
  obtain ⟨hlive, hnone⟩ := ha
  refine ⟨hlive, State.pendingPid_eq_none_iff_mem.2 fun x hx => ?_⟩
  have hold : ∀ {y}, y ∈ s.pidtab.erase pid.toNat → y.2.acc.size = 0 := fun hy =>
    State.pendingPid_eq_none_iff_mem.1 hnone _ (PidTab.mem_erase.1 hy).1
  rw [State.setEntry_pidtab, PidTab.set] at hx
  split at hx
  · exact hold hx
  · rcases PidTab.mem_insert.1 hx with rfl | hx
    · exact hz
    · exact hold hx

/-- What an accepted packet of a reassembled class leaves is step 7's effect; where that completes no section, the block
accepts the next packet. -/
theorem exec_tsFeed_sec (ha : s.Accepting) (hp : CarriesPayload p) (hc : s.classOf p.pid = .sec c) :
    let e := s.entry p.pid
    let r := secFeed c p (payloadStartOf p) (discontinuityOf e p.flags.cc) e.acc
    ∃ t, exec (.tsFeed p) s = .next t
      ∧ FedTo s p (.sec c) { entrySeen e p.flags.cc with acc := r.acc }
          (ErrFlag.disc.maskIf (discontinuityOf e p.flags.cc) ||| r.flags) r.status (some (payloadStartOf p)) t
      ∧ (r.acc.size = 0 → t.Accepting) := by
  intro e r
  have hentry := feedEntry_sec_of_payload (c := c) hp e
  refine ⟨feedAccepted (.sec c) p s, hc ▸ feedAs_accepted ha hp.sync hp.tei, ?_, fun hz => ?_⟩
  · have hfed := feedAccepted_fedTo (.sec c) p s
    rwa [hentry] at hfed
  · have hz' : (feedEntry (.sec c) p e).entry.acc.size = 0 := by rwa [hentry]
    exact ha.setEntry hz' p.pid

/-! ### `SEC.START` and `SEC.CONT` -/

theorem secFeed_eq_secStart (h : p.flags.pusi = true) (start : Nat) (disc : Bool) :
    secFeed c p start disc a = secStart c p.val start a := if_pos h

theorem secFeed_eq_secCont (h : p.flags.pusi = false) (start : Nat) (disc : Bool) :
    secFeed c p start disc a = secCont c p.val start disc a := if_neg (by simp [h])

@[simp] theorem length_payloadOf (p : Packet) : (payloadOf p).length = 188 - payloadStartOf p := by
  rw [payloadOf, List.length_drop, p.property]

theorem ErrFlag.maskIf_false_or (f : ErrFlag) (w : Word16) : f.maskIf false ||| w = w := BitVec.zero_or

theorem or_secAccept_flags (c : SecClass) (a : Acc) (w : Word16) : w ||| (secAccept c a).flags = w := BitVec.or_zero

theorem Acc.bufferProgress_eq_zero_iff : a.bufferProgress = 0 ↔ a.buffer = [] := List.length_eq_zero_iff

/-! ### The length field (R68, R174) -/

/-- The mask keeps the low bits of the length field. -/
theorem toNat_and_lenMask (c : SecClass) (x : BitVec 12) : (x &&& lenMask c).toNat = x.toNat % ((lenMask c).toNat + 1) := by
  have low10 : x.toNat &&& 0x3FF = x.toNat % 0x400 := Nat.and_two_pow_sub_one_eq_mod x.toNat 10
  have low12 : x.toNat &&& 0xFFF = x.toNat % 0x1000 := Nat.and_two_pow_sub_one_eq_mod x.toNat 12
  rw [BitVec.toNat_and]
  cases c with
  | pat | cat | pmt => exact low10
  | sdt | epg => exact low12

/-- The length field is the low four bits of byte 1 above byte 2. -/
theorem toNat_lengthField (hi lo : Byte) :
    (((hi &&& 0x0F).setWidth 12 <<< 8) ||| lo.setWidth 12 : BitVec 12).toNat = hi.toNat % 16 * 256 + lo.toNat := by
  have hlow : hi.toNat &&& 15 = hi.toNat % 16 := Nat.and_two_pow_sub_one_eq_mod hi.toNat 4
  have hshift : ((hi &&& 0x0F).setWidth 12 <<< 8 : BitVec 12).toNat = 2 ^ 8 * (hi.toNat % 16) := by
    simp only [BitVec.toNat_shiftLeft, BitVec.toNat_setWidth, BitVec.toNat_and, Nat.shiftLeft_eq]
    rw [show (0x0F : Byte).toNat = 15 from rfl, hlow]
    omega
  have hlo : (lo.setWidth 12 : BitVec 12).toNat = lo.toNat := by
    rw [BitVec.toNat_setWidth]
    omega
  rw [BitVec.toNat_or, hshift, hlo, ← Nat.two_pow_add_eq_or_of_lt lo.isLt]
  omega

theorem sectionTotal_eq (c : SecClass) (buffer : List Byte) :
    sectionTotal c buffer
      = ((buffer.getD 1 0).toNat % 16 * 256 + (buffer.getD 2 0).toNat) % ((lenMask c).toNat + 1) + 3 := by
  rw [← toNat_lengthField, ← toNat_and_lenMask]
  rfl

/-! ### An append while the target is known (R180) -/

/-- A known target lies beyond what is buffered, and no target exceeds 0x1002 (R18, R20). -/
theorem Acc.InRange.append_le (ha : a.InRange) (ht : a.bufferTarget ≠ 0) (p : Packet) :
    a.bufferProgress + (payloadOf p).length ≤ 0x10B9 := by
  obtain ⟨_, hmax, hbelow⟩ := ha.target ht
  have hstart := four_le_payloadStartOf p
  rw [length_payloadOf]
  omega

theorem secEval_status_cases (c : SecClass) (a : Acc) : (secEval c a).2 = .fedComplete ∨ (secEval c a).2 = .fed := by
  rcases secEval_cases c a with ⟨_, _, h⟩ | ⟨_, h⟩ <;> rw [h]
  · exact .inl rfl
  · exact .inr rfl

/-- `SEC.CONT` answers `ERR_OVERFLOW` only past `BUF_CAP` (R172). -/
theorem secCont_ne_overflow (c : SecClass) (p : Packet) (disc : Bool)
    (hroom : a.bufferProgress + (payloadOf p).length ≤ bufCap) :
    (secCont c p.val (payloadStartOf p) disc a).status ≠ .errOverflow := by
  rcases secCont_cases c p.val (payloadStartOf p) disc a with ⟨_, h⟩ | ⟨_, _, h⟩ | ⟨_, _, hover, _⟩ | ⟨_, _, _, h⟩
  · simp [h]
  · simp [h]
  · exact absurd hroom (Nat.not_le.2 hover)
  · rw [h, secAccept]
    rcases secEval_status_cases c ⟨a.buffer ++ p.val.drop (payloadStartOf p), a.bufferTarget, a.wholeSection⟩ with
      hst | hst <;> simp [hst]

end Sys2Proof.Machine

open Sys2Proof Sys2Proof.Machine

/-- Settles O46: the two cases of `SEC.START`. -/
theorem tsFeedStartsSection : Obligations.TsFeedStartsSection := by
  intro s p c ha hp hpusi hc e seen disc start secStart
  obtain ⟨t, hexec, hfed, _⟩ := exec_tsFeed_sec ha hp hc
  have hinside : start ≤ 188 := hp.inside
  refine ⟨t, hexec, ?_⟩
  rw [secFeed_eq_secStart hpusi] at hfed
  rcases secStart_cases c p.val start e.acc with ⟨hout, h⟩ | ⟨hstart, hin, h⟩ <;> rw [h] at hfed
  · have hpast : start = 188 ∨ 188 < secStart := hout.imp_left hinside.antisymm
    rw [if_pos hpast]
    exact hfed
  · have hwithin : ¬ (start = 188 ∨ 188 < secStart) := not_or.2 ⟨hstart.ne, Nat.not_lt.2 hin⟩
    rw [if_neg hwithin]
    rwa [or_secAccept_flags] at hfed

/-- Settles O47: the four cases of `SEC.CONT`, in their order. -/
theorem tsFeedContinuesSection : Obligations.TsFeedContinuesSection := by
  intro s p c ha hp hpusi hc e seen start
  obtain ⟨t, hexec, hfed, _⟩ := exec_tsFeed_sec ha hp hc
  refine ⟨t, hexec, ?_⟩
  rw [secFeed_eq_secCont hpusi] at hfed
  rcases secCont_cases c p.val start (discontinuityOf e p.flags.cc) e.acc with ⟨hdisc, h⟩ | ⟨hdisc, hempty, h⟩ |
    ⟨hdisc, hsome, hover, h⟩ | ⟨hdisc, hsome, hroom, h⟩ <;> rw [h, hdisc] at hfed <;> rw [hdisc]
  · rw [if_pos rfl]
    exact hfed
  · rw [if_neg Bool.false_ne_true, if_pos (Acc.bufferProgress_eq_zero_iff.1 hempty)]
    rwa [ErrFlag.maskIf_false_or] at hfed
  · have hpast : 0x1100 < e.acc.buffer.length + (188 - start) := length_payloadOf p ▸ hover
    rw [if_neg Bool.false_ne_true, if_neg (mt Acc.bufferProgress_eq_zero_iff.2 hsome), if_pos hpast]
    rwa [ErrFlag.maskIf_false_or] at hfed
  · have hwithin : ¬ 0x1100 < e.acc.buffer.length + (188 - start) := length_payloadOf p ▸ Nat.not_lt.2 hroom
    rw [if_neg Bool.false_ne_true, if_neg (mt Acc.bufferProgress_eq_zero_iff.2 hsome), if_neg hwithin]
    rwa [ErrFlag.maskIf_false_or] at hfed

/-- Settles O48: the two cases of `SEC.EVAL`, with the length field in arithmetic. -/
theorem sectionEvaluation : Obligations.SectionEvaluation := by
  intro c a mask field target
  have hmask : mask = (lenMask c).toNat := by cases c <;> rfl
  have htarget : target = evalTarget c a := by
    rw [evalTarget, sectionTotal_eq, ← hmask]
    rfl
  rw [htarget]
  rcases secEval_cases c a with ⟨hknown, hreached, h⟩ | ⟨hbelow, h⟩
  · rw [if_pos ⟨hknown, hreached⟩, h]
    exact ⟨rfl, List.take_append_drop .., List.length_take_of_le hreached, rfl⟩
  · rw [if_neg fun hcut => Nat.not_le.2 (hbelow hcut.1) hcut.2]
    exact h

/-- Settles O52: the bound of `Acc.InRange.append_le` lies below `BUF_CAP`. -/
theorem knownTargetNeverOverflows : Obligations.KnownTargetNeverOverflows := by
  intro c a p disc ha ht _
  have hle := ha.append_le ht p
  exact ⟨hle, secCont_ne_overflow c p disc (hle.trans (by decide))⟩
end

section
/-! PROOFS. The states of a PID's accumulator (spec/43_section_reassembler.md R170, R177, R178; spec/10_state.md R21):
`SEC.TAKE` by its answers, the state that each stage leaves, and what leaves an accumulator alone. -/

namespace Sys2Proof.Machine

variable {s t : State} {p : Packet} {pid q : Pid} {i : Instr} {c : SecClass} {cls : PidClass} {a : Acc} {e : PidEntry}

/-! ### `SEC.TAKE` (R177, R178, R179) -/

/-- A take of a completed section, as the next state. -/
theorem exec_secTake_of_section (hf : s.fatal = false) (hz : (s.entry pid).acc.size ≠ 0) :
    let e := s.entry pid
    let ok := crcValid e.acc.wholeSection
    exec (.secTake (pid.setWidth 16)) s
      = .next (((s.setEntry pid { e with acc := accTaken (s.classOf pid).singleShot e.acc }).raise
          (ErrFlag.crc.maskIf (!ok))).reply .ok (.sectionBytes ⟨s.classOf pid, e.acc.wholeSection.length,
            e.acc.wholeSection, ok, ok || !(s.classOf pid).crcEnforced Config.epgCrcEnforce⟩)) := by
  simp only [exec, execSecTake, s.unlessFatal_of_live hf, pidOperand_setWidth, hz, if_false]

theorem accTaken_of_singleShot (h : cls.singleShot = true) (a : Acc) : accTaken cls.singleShot a = ⟨[], 0, []⟩ := by
  rw [h]
  rfl

theorem accTaken_of_multiShot (h : ¬ cls.singleShot = true) (a : Acc) :
    accTaken cls.singleShot a = ⟨a.buffer, a.bufferTarget, []⟩ := by
  rw [eq_false_of_ne_true h]
  rfl

theorem PidClass.singleShot_iff (cls : PidClass) :
    cls.singleShot = true ↔ cls = .sec .pat ∨ cls = .sec .cat ∨ cls = .sec .pmt := by
  rcases cls with _ | c | _
  · decide
  · cases c <;> decide
  · decide

/-- The CRC verdict is set aside for `EPG` alone (R179). -/
theorem PidClass.not_crcEnforced (enforce : Bool) (cls : PidClass) :
    (!cls.crcEnforced enforce) = (decide (cls = .sec .epg) && !enforce) := by
  rw [PidClass.crcEnforced, Bool.not_or, bne, Bool.not_not]
  rfl

/-! ### The state as a function of the accumulator (R21) -/

theorem Acc.size_eq_zero_iff : a.size = 0 ↔ a.wholeSection = [] := List.length_eq_zero_iff

theorem Acc.state_eq_complete_iff : a.state = .complete ↔ a.size ≠ 0 := by
  unfold Acc.state
  split
  · next h => exact iff_of_true rfl h
  · next h => split <;> exact iff_of_false nofun h

theorem Acc.state_of_size_eq_zero (h : a.size = 0) :
    a.state = if a.buffer = [] then .idle else .accumulating := by
  simp only [Acc.state, h, ne_eq, not_true_eq_false, if_false, Acc.bufferProgress_eq_zero_iff]

theorem Acc.state_eq_idle_iff (h : a.size = 0) : a.state = .idle ↔ a.buffer = [] := by
  rw [Acc.state_of_size_eq_zero h]
  split
  · next hb => exact iff_of_true rfl hb
  · next hb => exact iff_of_false nofun hb

theorem Acc.state_of_buffer_ne_nil (h : a.buffer ≠ []) : a.state = .accumulating ∨ a.state = .complete := by
  by_cases hz : a.size = 0
  · exact .inl (by rw [Acc.state_of_size_eq_zero hz, if_neg h])
  · exact .inr (Acc.state_eq_complete_iff.2 hz)

/-! ### What the stages leave -/

/-- `SEC.EVAL` of buffered bytes keeps them or completes a section of them (R174). -/
theorem secEval_state_of_ne_nil (c : SecClass) (h : a.buffer ≠ []) :
    (secEval c a).1.state = .accumulating ∨ (secEval c a).1.state = .complete := by
  rcases secEval_cases c a with ⟨hknown, hreached, heq⟩ | ⟨_, heq⟩ <;> rw [heq]
  · refine .inr (Acc.state_eq_complete_iff.2 ?_)
    rwa [Acc.size, List.length_take_of_le hreached]
  · exact Acc.state_of_buffer_ne_nil h

/-- `SEC.EVAL` of nothing completes nothing: no known target is reached. -/
theorem secEval_state_of_nil (c : SecClass) (hb : a.buffer = []) (hz : a.size = 0) :
    (secEval c a).1.state = .idle := by
  rcases secEval_cases c a with ⟨hknown, hreached, _⟩ | ⟨_, heq⟩
  · exact absurd (Nat.le_zero.1 (Acc.bufferProgress_eq_zero_iff.2 hb ▸ hreached)) hknown
  · rw [heq]
    exact (Acc.state_eq_idle_iff (a := { a with bufferTarget := _ }) hz).2 hb

/-- `SEC.START` (R170, R171): a section that would start at or past the packet's end leaves nothing. -/
theorem secStart_state (c : SecClass) (p : Packet) (start : Nat) (hz : a.size = 0) :
    let first := start + 1 + (p.byte start).toNat
    let after := (secStart c p.val start a).acc.state
    if 188 ≤ first then after = .idle else after = .accumulating ∨ after = .complete := by
  intro first after
  have hlen : (p.val.drop first).length = 188 - first := by rw [List.length_drop, p.property]
  have hcases : (188 ≤ start ∨ 188 < first) ∧ secStart c p.val start a = _
      ∨ start < 188 ∧ first ≤ 188 ∧ secStart c p.val start a = secAccept c ⟨p.val.drop first, 0, a.wholeSection⟩ :=
    secStart_cases c p.val start a
  rcases hcases with ⟨hout, h⟩ | ⟨_, hin, h⟩
  · rw [if_pos (by omega)]
    exact congrArg (·.acc.state) h
  · have hafter : after = (secEval c ⟨p.val.drop first, 0, a.wholeSection⟩).1.state := congrArg (·.acc.state) h
    rw [hafter]
    split
    · next hend =>
      have hnil : p.val.drop first = [] := List.length_eq_zero_iff.1 (hlen.trans (Nat.sub_eq_zero_of_le hend))
      exact secEval_state_of_nil c hnil hz
    · next hend =>
      have hsome : p.val.drop first ≠ [] := List.ne_nil_of_length_pos (by omega)
      exact secEval_state_of_ne_nil c hsome

/-- `SEC.CONT` (R170, R172, R173). -/
theorem secCont_state (c : SecClass) (p : Packet) (disc : Bool) (hz : a.size = 0) :
    let after := (secCont c p.val (payloadStartOf p) disc a).acc.state
    if disc = true ∨ a.state = .idle ∨ 0x1100 < a.bufferProgress + (payloadOf p).length then after = .idle
    else after = .accumulating ∨ after = .complete := by
  intro after
  have hidle : a.state = .idle ↔ a.bufferProgress = 0 :=
    (Acc.state_eq_idle_iff hz).trans Acc.bufferProgress_eq_zero_iff.symm
  simp only [hidle]
  rcases secCont_cases c p.val (payloadStartOf p) disc a with ⟨hdisc, h⟩ | ⟨hdisc, hempty, h⟩ |
    ⟨hdisc, hsome, hover, h⟩ | ⟨hdisc, hsome, hroom, h⟩
  · rw [if_pos (.inl hdisc)]
    exact congrArg (·.acc.state) h
  · rw [if_pos (.inr (.inl hempty))]
    exact (congrArg (·.acc.state) h).trans (hidle.2 hempty)
  · rw [if_pos (.inr (.inr hover))]
    exact congrArg (·.acc.state) h
  · have hwithin : ¬ 0x1100 < a.bufferProgress + (payloadOf p).length := Nat.not_lt.2 hroom
    have hbuffer : a.buffer ++ payloadOf p ≠ [] :=
      List.append_ne_nil_of_left_ne_nil (mt Acc.bufferProgress_eq_zero_iff.2 hsome) _
    have hafter : after = (secEval c ⟨a.buffer ++ payloadOf p, a.bufferTarget, a.wholeSection⟩).1.state :=
      congrArg (·.acc.state) h
    rw [if_neg (not_or.2 ⟨Bool.eq_false_iff.1 hdisc, not_or.2 ⟨hsome, hwithin⟩⟩), hafter]
    exact secEval_state_of_ne_nil c hbuffer

/-! ### What leaves an accumulator alone -/

/-- A packet that is dropped at steps 1 to 6, the bounds error aside, leaves its PID's accumulator (R170). -/
theorem exec_tsFeed_acc_of_dropped (h : exec (.tsFeed p) s = .next t)
    (hdrop : p.sync ≠ 0x47 ∨ p.flags.tei = true ∨ p.flags.sc ≠ 0
      ∨ payloadStartOf p ≤ 188 ∧ p.flags.afc.getLsbD 0 = false) : (t.entry p.pid).acc = (s.entry p.pid).acc := by
  rcases exec_tsFeed_cases h with ⟨_, rfl⟩ | ⟨_, _, rfl⟩ | ⟨_, _, rfl⟩ | ⟨_, _, _, rfl⟩ | ⟨_, hs, htei, rfl⟩
  · rfl
  · rfl
  · rfl
  · rfl
  · rw [(feedAccepted_fedTo ..).entry]
    rcases hdrop with hbad | hbad | hsc | ⟨hin, hafc⟩
    · exact absurd hs hbad
    · exact absurd (htei.symm.trans hbad) nofun
    · rw [feedEntry_of_scrambled _ hsc]
      rfl
    · by_cases hsc : p.flags.sc = 0
      · rw [feedEntry_of_noPayload _ hsc hin hafc]
        rfl
      · rw [feedEntry_of_scrambled _ hsc]
        rfl

/-- While a PID's section waits to be taken no packet is accepted, so its accumulator stays (R141, R170). -/
theorem exec_tsFeed_acc_of_complete (h : exec (.tsFeed p) s = .next t) (hq : (s.entry q).acc.state = .complete) :
    (t.entry q).acc = (s.entry q).acc := by
  rcases exec_tsFeed_cases h with ⟨_, rfl⟩ | ⟨_, _, rfl⟩ | ⟨_, _, rfl⟩ | ⟨_, _, _, rfl⟩ | ⟨ha, _⟩
  · rfl
  · rfl
  · rfl
  · rfl
  · exact absurd (ha.size_eq_zero q) (Acc.state_eq_complete_iff.1 hq)

/-- Only `TS.FEED`, its dispatch rows, `SEC.TAKE` and `RESET` write an accumulator (R170). -/
theorem InstrEffect.acc_eq (h : InstrEffect s i t) (hreset : i ≠ .reset) (hfeed : ∀ p, i ≠ .tsFeed p)
    (htake : ∀ w, i ≠ .secTake w) (hrow : i.rowPacket? = none) (q : Pid) : (t.entry q).acc = (s.entry q).acc := by
  have hwrite (r : Pid) (e : PidEntry) (he : e.acc = (s.entry r).acc) :
      ((s.setEntry r e).entry q).acc = (s.entry q).acc := by
    by_cases hqr : q = r
    · rw [hqr, State.setEntry_entry_self, he]
    · rw [State.setEntry_entry_other s e hqr]
  cases h with
  | clears => exact absurd rfl hreset
  | takes w => exact absurd rfl (htake w)
  | feeds p hi =>
    rcases hi with hi | hi
    · exact absurd hi (hfeed p)
    · cases hrow.symm.trans hi
  | setsType _ _ r => exact hwrite r _ rfl
  | setsLink _ _ _ r => exact hwrite r _ rfl
  | _ => rfl

end Sys2Proof.Machine

open Sys2Proof Sys2Proof.Machine

/-- Settles O49: refused, without a section, or the handing over of `exec_secTake_of_section`. -/
theorem secTakeHandsOver : Obligations.SecTakeHandsOver := by
  intro s p e c bytes ok
  refine ⟨fun hf => exec_of_fatal hf nofun nofun nofun, fun hf hnone => ?_, fun hf hsome => ?_⟩
  · exact exec_secTake_of_empty hf (Acc.size_eq_zero_iff.2 hnone)
  · refine ⟨_, exec_secTake_of_section hf (mt Acc.size_eq_zero_iff.1 hsome), ?_, ?_, ?_, ?_, ?_⟩
    · rw [State.reply_entry, State.raise_entry, State.setEntry_entry_self]
      split
      · next hc => exact accTaken_of_singleShot ((PidClass.singleShot_iff c).2 hc) _
      · next hc => exact accTaken_of_multiShot (mt (PidClass.singleShot_iff c).1 hc) _
    · rw [State.reply_entry, State.raise_entry, State.setEntry_entry_self]
    · exact ⟨fun _ => State.setEntry_entry_other s _, rfl, rfl, rfl, rfl⟩
    · show s.errflags ||| ErrFlag.crc.maskIf (!ok) = _
      cases ok with
      | true => exact BitVec.or_zero
      | false => rfl
    · rw [← PidClass.not_crcEnforced]
      rfl

/-- Settles O51: per event the stage that it runs; what runs none leaves the accumulator. -/
theorem accumulatorTransitions : Obligations.AccumulatorTransitions := by
  refine ⟨?feed, ?take, fun i s t q h hreset hfeed htake hrow => (exec_effect h).acc_eq hreset hfeed htake hrow q⟩
  case feed =>
    intro s t p h before after
    refine ⟨fun q hq => ?_, fun q => exec_tsFeed_acc_of_complete h, fun hdrop => ?_,
      fun ha hs htei hsc hout => ?_, fun ha hp ⟨c, hc⟩ => ?_⟩
    · exact congrArg PidEntry.acc ((exec_tsFeed_frame h).1.others q hq)
    · exact congrArg Acc.state (exec_tsFeed_acc_of_dropped h hdrop)
    · obtain ⟨u, hexec, hfed⟩ := exec_tsFeed_fedTo ha hs htei
      cases hexec.symm.trans h
      rw [feedEntry_of_startPastEnd _ hsc hout] at hfed
      exact congrArg (·.acc.state) hfed.entry
    · obtain ⟨u, hexec, hfed, _⟩ := exec_tsFeed_sec ha hp hc
      cases hexec.symm.trans h
      have hafter : after = (secFeed c p (payloadStartOf p) (discontinuityOf (s.entry p.pid) p.flags.cc)
          (s.entry p.pid).acc).acc.state := congrArg (·.acc.state) hfed.entry
      have hz := ha.size_eq_zero p.pid
      rw [hafter]
      refine ⟨fun hpusi => ?_, fun hpusi => ?_⟩
      · rw [secFeed_eq_secStart hpusi]
        exact secStart_state c p (payloadStartOf p) hz
      · rw [secFeed_eq_secCont hpusi]
        exact secCont_state c p (discontinuityOf (s.entry p.pid) p.flags.cc) hz
  case take =>
    intro s t p hf hcomplete h
    cases (exec_secTake_of_section hf (Acc.state_eq_complete_iff.1 hcomplete)).symm.trans h
    rw [State.reply_entry, State.raise_entry, State.setEntry_entry_self,
      Acc.state_of_size_eq_zero (size_accTaken ..)]
    by_cases hshot : (s.classOf p).singleShot = true
    · rw [accTaken_of_singleShot hshot, if_pos rfl, if_pos (.inl hshot)]
    · rw [accTaken_of_multiShot hshot]
      simp only [or_iff_right hshot]
end

section
/-! PROOFS. Split invariance (spec/43_section_reassembler.md R183): while a section's packets arrive, the accumulator of
their PID holds the bytes brought so far, with the target unknown or the section's length; the packet that brings the last
byte completes it, whatever the cuts were. -/

namespace Sys2Proof.Machine

variable {s t : State} {p q : Packet} {c : SecClass} {sect tail buffer whole : List Byte} {target : Nat}

/-! ### `SEC.EVAL` on the first bytes of a section (R174) -/

/-- The length field lies in the first three bytes. -/
theorem sectionTotal_of_firstBytes {l m : List Byte} (h : l <+: m) (hlen : 3 ≤ l.length) (c : SecClass) :
    sectionTotal c m = sectionTotal c l := by
  obtain ⟨rest, rfl⟩ := h
  rw [sectionTotal, sectionTotal, List.getD_append _ _ _ _ (by omega), List.getD_append _ _ _ _ (by omega)]

/-- The target that `SEC.EVAL` finds is the section's length, or it is unknown for want of bytes. -/
theorem evalTarget_of_firstBytes (hsect : 12 ≤ sect.length) (htotal : sectionTotal c sect = sect.length)
    (hbuffer : buffer <+: sect ++ tail) (htarget : target = 0 ∨ target = sect.length) :
    evalTarget c ⟨buffer, target, whole⟩ = sect.length
      ∨ evalTarget c ⟨buffer, target, whole⟩ = 0 ∧ buffer.length < 12 := by
  have hread (h : 12 ≤ buffer.length) : sectionTotal c buffer = sect.length := by
    rw [← htotal, ← sectionTotal_of_firstBytes hbuffer (by omega),
      sectionTotal_of_firstBytes ⟨tail, rfl⟩ (by omega)]
  unfold evalTarget
  split
  · next h => exact .inl (hread h.2)
  · next h =>
    rcases htarget with h0 | hn
    · exact .inr ⟨h0, Nat.not_le.1 fun hlong => h ⟨h0, hlong⟩⟩
    · exact .inl hn

/-- Short of the last byte `SEC.EVAL` keeps what is buffered. -/
theorem secEval_of_partial (hsect : 12 ≤ sect.length) (htotal : sectionTotal c sect = sect.length)
    (hbuffer : buffer <+: sect ++ tail) (htarget : target = 0 ∨ target = sect.length)
    (hshort : buffer.length < sect.length) :
    ∃ target', (target' = 0 ∨ target' = sect.length)
      ∧ secEval c ⟨buffer, target, whole⟩ = (⟨buffer, target', whole⟩, .fed) := by
  have heval := evalTarget_of_firstBytes (whole := whole) hsect htotal hbuffer htarget
  rcases secEval_cases c ⟨buffer, target, whole⟩ with ⟨hknown, hreached, _⟩ | ⟨_, h⟩
  · have hle : evalTarget c ⟨buffer, target, whole⟩ ≤ buffer.length := hreached
    omega
  · exact ⟨_, heval.symm.imp_left And.left, h⟩

/-- With the last byte `SEC.EVAL` cuts the section off, and the bytes behind it stay. -/
theorem secEval_of_whole (hsect : 12 ≤ sect.length) (htotal : sectionTotal c sect = sect.length)
    (htarget : target = 0 ∨ target = sect.length) :
    secEval c ⟨sect ++ tail, target, whole⟩ = (⟨tail, 0, sect⟩, .fedComplete) := by
  have hlen : sect.length ≤ (sect ++ tail).length := by simp
  have heval : evalTarget c ⟨sect ++ tail, target, whole⟩ = sect.length := by
    rcases evalTarget_of_firstBytes (whole := whole) hsect htotal ⟨[], List.append_nil (sect ++ tail)⟩ htarget with
      h | ⟨_, h⟩
    · exact h
    · omega
  rcases secEval_cases c ⟨sect ++ tail, target, whole⟩ with ⟨_, _, h⟩ | ⟨hbelow, _⟩
  · rw [h, heval, List.drop_left, List.take_left]
  · have hlt : (sect ++ tail).length < sect.length := heval ▸ hbelow (by omega)
    omega

/-! ### The packets of a section -/

/-- Packet `p`, fed next, has `SEC.EVAL` look at `buffer`, the first bytes of a section of `total` bytes; nothing is
pending. -/
structure BringsTo (s : State) (p : Packet) (c : SecClass) (total : Nat) (buffer : List Byte) : Prop where
  accepting : s.Accepting
  carries : CarriesPayload p
  cls : s.classOf p.pid = .sec c
  eval : ∃ target, (target = 0 ∨ target = total)
    ∧ secFeed c p (payloadStartOf p) (discontinuityOf (s.entry p.pid) p.flags.cc) (s.entry p.pid).acc
      = secAccept c ⟨buffer, target, []⟩

/-- The section waits to be taken, and the reply to the last packet says so (R175, R140). -/
def Delivered (t : State) (pid : Pid) (sect tail : List Byte) : Prop :=
  (t.entry pid).acc = ⟨tail, 0, sect⟩
    ∧ ∃ r, t.replies.head? = some ⟨.fedComplete, .feed r⟩ ∧ r.sectionReady = true

/-- The first packet: its payload behind a `pointer_field` 0 replaces what was buffered (R171). -/
theorem bringsTo_of_start (ha : s.Accepting) (hp : CarriesPayload p) (hc : s.classOf p.pid = .sec c)
    (hpusi : p.flags.pusi = true) (hpointer : (payloadOf p).head? = some 0) (total : Nat) :
    BringsTo s p c total (payloadOf p).tail := by
  refine ⟨ha, hp, hc, 0, .inl rfl, ?_⟩
  have hbyte : p.val.getD (payloadStartOf p) 0 = 0 := by
    rw [payloadOf, List.head?_drop] at hpointer
    rw [List.getD_eq_getElem?_getD, hpointer]
    rfl
  have hinside : payloadStartOf p < 188 := by
    have hpos := List.length_pos_of_ne_nil (l := payloadOf p) (by rintro h; simp [h] at hpointer)
    rw [length_payloadOf] at hpos
    omega
  have hempty := Acc.size_eq_zero_iff.1 (ha.size_eq_zero p.pid)
  rw [secFeed_eq_secStart hpusi]
  rcases secStart_cases c p.val (payloadStartOf p) (s.entry p.pid).acc with ⟨hout, _⟩ | ⟨_, _, h⟩
  · rw [hbyte] at hout
    have : (0 : Byte).toNat = 0 := rfl
    omega
  · rw [h, hbyte, hempty, payloadOf, List.tail_drop]
    rfl

/-- A packet that leaves the section short of its last byte: the next packet in sequence brings its payload to the same
bytes (R172). -/
theorem BringsTo.next (h : BringsTo s p c sect.length buffer) (hsect : 12 ≤ sect.length)
    (htotal : sectionTotal c sect = sect.length) (hbuffer : buffer <+: sect ++ tail) (hsome : buffer ≠ [])
    (hshort : buffer.length < sect.length) (hq : CarriesPayload q) (hpid : q.pid = p.pid)
    (hpusi : q.flags.pusi = false) (hcc : q.flags.cc = p.flags.cc + 1) :
    ∃ t, exec (.tsFeed p) s = .next t ∧ BringsTo t q c sect.length (buffer ++ payloadOf q) := by
  obtain ⟨ha, hp, hc, target, htarget, hfeed⟩ := h
  obtain ⟨target', htarget', heval⟩ := secEval_of_partial (whole := []) hsect htotal hbuffer htarget hshort
  obtain ⟨t, hexec, hfed, haccepts⟩ := exec_tsFeed_sec ha hp hc
  rw [hfeed, secAccept, heval] at hfed haccepts
  have hentry := hpid ▸ hfed.entry
  refine ⟨t, hexec, haccepts rfl, hq, ?_, target', htarget', ?_⟩
  · rw [State.classOf, hentry, hpid]
    exact hc
  · have hcontinuous : discontinuityOf (t.entry q.pid) q.flags.cc = false := by
      rw [hentry, hcc, discontinuityOf, BitVec.add_assoc]
      simp [entrySeen]
    have hbound := (sectionTotal_range c sect).2
    have hlen := length_payloadOf q
    have hstart := four_le_payloadStartOf q
    rw [hcontinuous, hentry, secFeed_eq_secCont hpusi]
    rcases secCont_cases c q.val (payloadStartOf q) false ⟨buffer, target', []⟩ with ⟨hdisc, _⟩ | ⟨_, hempty, _⟩ |
      ⟨_, _, hover, _⟩ | ⟨_, _, _, h⟩
    · cases hdisc
    · exact absurd (Acc.bufferProgress_eq_zero_iff.1 hempty) hsome
    · have hpast : 0x1100 < buffer.length + (payloadOf q).length := hover
      omega
    · exact h

/-- The packet that brings the last byte (R175). -/
theorem BringsTo.delivered (h : BringsTo s p c sect.length (sect ++ tail)) (hsect : 12 ≤ sect.length)
    (htotal : sectionTotal c sect = sect.length) : ∃ t, exec (.tsFeed p) s = .next t ∧ Delivered t p.pid sect tail := by
  obtain ⟨ha, hp, hc, target, htarget, hfeed⟩ := h
  obtain ⟨t, hexec, hfed, _⟩ := exec_tsFeed_sec ha hp hc
  rw [hfeed, secAccept, secEval_of_whole hsect htotal htarget] at hfed
  have hready : ((⟨tail, 0, sect⟩ : Machine.Acc).size != 0) = true := by
    have hpos : sect.length ≠ 0 := by omega
    exact bne_iff_ne.2 hpos
  exact ⟨t, hexec, congrArg PidEntry.acc hfed.entry, _, congrArg List.head? hfed.reply, hready⟩

theorem feedAll_cons_of_next (h : exec (.tsFeed p) s = .next t) (rest : List Packet) :
    feedAll (p :: rest) s = feedAll rest t := by
  rw [feedAll, h]

/-- By induction on the packets that follow `p`: each but the last leaves the section short of its last byte. -/
theorem BringsTo.feedAll (hsect : 12 ≤ sect.length) (htotal : sectionTotal c sect = sect.length) {rest : List Packet}
    (h : BringsTo s p c sect.length buffer) (hsome : buffer ≠ [])
    (hrest : ∀ q ∈ rest, q.pid = p.pid ∧ CarriesPayload q ∧ q.flags.pusi = false)
    (hchain : (p :: rest).IsChain fun p q => q.flags.cc = p.flags.cc + 1)
    (hall : buffer ++ (rest.map payloadOf).flatten = sect ++ tail)
    (hshort : rest ≠ [] → (buffer ++ (rest.dropLast.map payloadOf).flatten).length < sect.length) :
    ∃ t, Machine.feedAll (p :: rest) s = .next t ∧ Delivered t p.pid sect tail := by
  induction rest generalizing s p buffer with
  | nil =>
    obtain rfl : buffer = sect ++ tail := by simpa using hall
    obtain ⟨t, hexec, hdelivered⟩ := h.delivered hsect htotal
    exact ⟨t, feedAll_cons_of_next hexec [], hdelivered⟩
  | cons q rest ih =>
    obtain ⟨hcc, hchain⟩ := List.isChain_cons_cons.1 hchain
    obtain ⟨⟨hpid, hq, hpusi⟩, hrest⟩ := List.forall_mem_cons.1 hrest
    have hstarts : buffer <+: sect ++ tail := ⟨_, hall⟩
    have hbelow : buffer.length < sect.length := by
      have := hshort (List.cons_ne_nil q rest)
      rw [List.length_append] at this
      omega
    obtain ⟨t, hexec, hnext⟩ := h.next hsect htotal hstarts hsome hbelow hq hpid hpusi hcc
    rw [feedAll_cons_of_next hexec, ← hpid]
    refine ih hnext (List.append_ne_nil_of_left_ne_nil hsome _) (hpid ▸ hrest) hchain ?_ fun hne => ?_
    · simpa using hall
    · simpa [List.dropLast_cons_of_ne_nil hne] using hshort (List.cons_ne_nil q rest)

end Sys2Proof.Machine

open Sys2Proof Sys2Proof.Machine

/-- Settles O53: the first packet brings its bytes behind the pointer, and `BringsTo.feedAll` follows the others. -/
theorem splitSectionReassembles : Obligations.SplitSectionReassembles := by
  intro s c pid first rest sect tail ha hc hcarries hpusi hcont hchain hsect htotal hpointer hlen hall hshort
  obtain ⟨⟨rfl, hfirst⟩, hrest⟩ := List.forall_mem_cons.1 hcarries
  have hstart := bringsTo_of_start ha hfirst hc hpusi hpointer sect.length
  have hsome : (payloadOf first).tail ≠ [] := List.ne_nil_of_length_pos (by rw [List.length_tail]; omega)
  obtain ⟨t, hfeed, hacc, r, hreply, hready⟩ := hstart.feedAll hsect htotal hsome
    (fun q hq => ⟨(hrest q hq).1, (hrest q hq).2, hcont q hq⟩) hchain hall hshort
  exact ⟨t, r, hfeed, hacc, hreply, hready⟩
end

section
/-! PROOFS. The host and table operations (spec/44_host_ops.md R201 to R204): the equation of each, with the PID or the
type code in range and out of it, and the one entry that the two `PID.SET` operations write. -/

namespace Sys2Proof.Machine

variable {s : State} {p : Pid} {pid : Word16} {code : Byte} {ty : PidType}

/-! ### Operands (R207) -/

theorem pidOperand_of_gt (h : 0x1FFF < pid.toNat) : pidOperand pid = none := if_neg (by omega)

/-- Every code up to 12 is that of a type (R14). -/
theorem typeOperand_of_le (h : code.toNat ≤ 12) : ∃ ty, typeOperand code = some ty := by
  have hall : ∀ k < 13, (typeOperand (BitVec.ofNat 8 k)).isSome := by decide
  have hsome := hall code.toNat (by omega)
  rw [BitVec.ofNat_toNat, BitVec.setWidth_eq] at hsome
  exact Option.isSome_iff_exists.1 hsome

theorem typeCode_toNat_of_typeOperand (h : typeOperand code = some ty) : (typeCode ty).toNat = code.toNat := by
  have hle := typeCode_le ty
  rw [← typeCode_of_typeOperand h, BitVec.toNat_setWidth, Nat.mod_eq_of_lt (by omega)]

/-! ### The operations -/

/-- An operation that only answers is refused in the `FATAL` state and else gives its answer (R254). -/
theorem State.unlessFatal_answer (s : State) (st : Status) :
    s.unlessFatal (·.answer st) = .next (s.answer (if s.fatal then .refusedFatal else st)) := by
  cases hf : s.fatal with
  | true => exact s.unlessFatal_of_fatal hf
  | false => exact s.unlessFatal_of_live hf

theorem exec_pidSetType_of_badPid (hp : pidOperand pid = none) (code : Byte) (s : State) :
    exec (.pidSetType pid code) s = s.unlessFatal (·.answer .eOperand) := by
  simp only [exec, execPidSetType, hp]

theorem exec_pidSetType_of_badType (hty : typeOperand code = none) (pid : Word16) (s : State) :
    exec (.pidSetType pid code) s = s.unlessFatal (·.answer .eOperand) := by
  cases hp : pidOperand pid with
  | none => exact exec_pidSetType_of_badPid hp code s
  | some p => simp only [exec, execPidSetType, hp, hty]

theorem exec_pidSetType_of_pending (hf : s.fatal = false) (hty : typeOperand code = some ty)
    (hz : (s.entry p).acc.size ≠ 0) :
    exec (.pidSetType (p.setWidth 16) code) s = .next (s.answer .refusedPending) := by
  simp only [exec, execPidSetType, s.unlessFatal_of_live hf, pidOperand_setWidth, hty, if_pos hz]

theorem exec_pidSetType_of_free (hf : s.fatal = false) (hty : typeOperand code = some ty)
    (hz : (s.entry p).acc.size = 0) :
    exec (.pidSetType (p.setWidth 16) code) s
      = .next ((s.setEntry p { s.entry p with ty := ty }).answer .ok) := by
  simp only [exec, execPidSetType, s.unlessFatal_of_live hf, pidOperand_setWidth, hty, if_neg (not_not.2 hz)]

theorem exec_pidSetLink_of_badPid (hp : pidOperand pid = none) (count ecm : Word16) (s : State) :
    exec (.pidSetLink pid count ecm) s = s.unlessFatal (·.answer .eOperand) := by
  simp only [exec, execPidSetLink, hp]

theorem exec_pidSetLink_of_live (hf : s.fatal = false) (p : Pid) (count ecm : Word16) :
    exec (.pidSetLink (p.setWidth 16) count ecm) s
      = .next ((s.setEntry p { s.entry p with programCount := count, pidForEcm := ecm }).answer .ok) := by
  simp only [exec, execPidSetLink, s.unlessFatal_of_live hf, pidOperand_setWidth]

theorem exec_pidGet_of_badPid (hp : pidOperand pid = none) (s : State) :
    exec (.pidGet pid) s = .next (s.answer .eOperand) := by
  simp only [exec, execPidGet, hp]

theorem exec_pidGet_of_pid (p : Pid) (s : State) :
    exec (.pidGet (p.setWidth 16)) s = .next (s.reply .ok (.entry (s.pidReport p))) := by
  simp only [exec, execPidGet, pidOperand_setWidth]

/-! ### What they write and report -/

theorem State.sameButEntry_setEntry (s : State) (p : Pid) (e : PidEntry) (st : Status) :
    s.SameButEntry ((s.setEntry p e).answer st) p :=
  ⟨fun _ hq => s.setEntry_entry_other e hq, rfl, rfl, rfl, rfl⟩

theorem State.pendingPid_isSome_iff (h : s.pidtab.wf) :
    s.pendingPid?.isSome = true ↔ ∃ q, (s.entry q).acc.size ≠ 0 := by
  refine ⟨fun hsome => ?_, fun ⟨q, hq⟩ => State.pendingPid_isSome_of_size hq⟩
  obtain ⟨q, hq⟩ := Option.isSome_iff_exists.1 hsome
  exact ⟨q, State.size_of_pendingPid h hq⟩

end Sys2Proof.Machine

open Sys2Proof Sys2Proof.Machine

/-- Settles O13: the canonical table makes the pending PID one that holds a completed section. -/
theorem statGetReports : Obligations.StatGetReports := by
  intro s hwf
  refine ⟨_, rfl, rfl, rfl, rfl, rfl, State.pendingPid_isSome_iff hwf, fun hsome => ?_, fun hfree => ?_⟩
  · obtain ⟨q, hq⟩ := Option.isSome_iff_exists.1 hsome
    simpa only [hq, Option.getD_some] using State.size_of_pendingPid hwf hq
  · have hnone : s.pendingPid? = none := by simpa using hfree
    simp only [hnone, Option.getD_none]

/-- Settles O14: the three refusals in R201's order, then the write of one entry. -/
theorem pidSetTypeWritesType : Obligations.PidSetTypeWritesType := by
  intro s p code
  refine ⟨fun hf => exec_of_fatal hf nofun nofun nofun, fun hf hgt => ?_, fun hf hle hz => ?_, fun hf hle hz => ?_⟩
  · rw [exec_pidSetType_of_badType (typeOperand_of_gt hgt), s.unlessFatal_of_live hf]
  · obtain ⟨ty, hty⟩ := typeOperand_of_le hle
    exact exec_pidSetType_of_pending hf hty hz
  · obtain ⟨ty, hty⟩ := typeOperand_of_le hle
    have hentry := s.setEntry_entry_self p { s.entry p with ty := ty }
    refine ⟨_, exec_pidSetType_of_free hf hty hz, ?_, ?_, s.sameButEntry_setEntry .., rfl, rfl⟩
    · rw [State.answer_entry, hentry]
      exact typeCode_toNat_of_typeOperand hty
    · rw [State.answer_entry, hentry]

/-- Settles O15: outside the `FATAL` state one write of one entry. -/
theorem pidSetLinkWritesLinks : Obligations.PidSetLinkWritesLinks := by
  intro s p count ecm
  exact ⟨fun hf => exec_of_fatal hf nofun nofun nofun, fun hf =>
    ⟨_, exec_pidSetLink_of_live hf p count ecm, s.setEntry_entry_self p _, s.sameButEntry_setEntry .., rfl, rfl⟩⟩

/-- Settles O16: the reply is the report of the entry, and nothing else is written. -/
theorem pidGetReports : Obligations.PidGetReports := fun s p =>
  ⟨s.pidReport p, exec_pidGet_of_pid p s, rfl, rfl, rfl, rfl, rfl, rfl, rfl, rfl, rfl, rfl, rfl⟩
end

section
/-! PROOFS. Requests that are refused whatever the tables hold (spec/44_host_ops.md R207; log entries 3, 4 and 5): those
the decoder rejects, and those with an operand out of its range. -/

namespace Sys2Proof.Machine

variable {s : State} {r : Request} {rest : List Request} {e : DecodeError} {op : OpCode} {pid : Word16} {code : Byte}
  {bytes : List Byte}

/-! ### What the decoder rejects -/

theorem ofByte?_eq_none (h : ∀ op : OpCode, op.toByte ≠ code) : OpCode.ofByte? code = none := by
  cases hop : OpCode.ofByte? code with
  | none => rfl
  | some op => exact absurd (toByte_of_ofByte? hop) (h op)

theorem decode_unknownCode (types : Pid → PidType) (h : ∀ op : OpCode, op.toByte ≠ code) (bytes : List Byte) :
    decode types ⟨.command, code :: bytes⟩ = .rejected (.unknownCode code) := by
  simp only [decode, decodeCommand, ofByte?_eq_none h]

theorem decode_wrongLength (types : Pid → PidType) (h : WrongLength bytes.length op) :
    decode types ⟨.command, op.toByte :: bytes⟩ = .rejected (.badOperands op) := by
  simp only [decode, decodeCommand, ofByte?_toByte, operands?_of_wrongLength h]

theorem decode_packet_wrongLength (types : Pid → PidType) (h : bytes.length ≠ 188) :
    decode types ⟨.packet, bytes⟩ = .rejected (.badOperands .tsFeed) := by
  have hnone : packet? bytes = none := dif_neg h
  simp only [decode, decodePacket, hnone]

/-! ### How a rejected request is answered -/

theorem step_of_rejected (hq : s.requests = r :: rest) (hd : decode s.types r = .rejected e) :
    step s = .next ({ s with requests := rest }.answer (rejectStatus e s.fatal)) := by
  simp only [step, hq, hd, State.take, List.tail_cons, State.reject]

/-- The operations that `FATAL` does not refuse, by name (R254). -/
theorem rejectStatus_badOperands (op : OpCode) (fatal : Bool) : rejectStatus (.badOperands op) fatal
    = if fatal ∧ op ≠ OpCode.reset ∧ op ≠ OpCode.statGet ∧ op ≠ OpCode.pidGet then .refusedFatal else .eOperand := by
  refine if_congr ?_ rfl rfl
  rw [Bool.and_eq_true, Bool.not_eq_true', ← Bool.not_eq_true, worksWhenFatal_iff, not_or, not_or]

/-! ### Operands out of range -/

theorem exec_secTake_of_badPid (hp : pidOperand pid = none) (s : State) :
    exec (.secTake pid) s = s.unlessFatal (·.answer .eOperand) := by
  simp only [exec, execSecTake, hp]

theorem exec_hufDec_of_gt {data : List Byte} (h : Config.huf.inMax < data.length) (s : State) :
    exec (.hufDec data) s = s.unlessFatal (·.answer .eOperand) :=
  congrArg s.unlessFatal (funext fun _ => hufRunDecode_of_gt h)

end Sys2Proof.Machine

open Sys2Proof Sys2Proof.Machine

/-- Settles O10: four ways to be rejected by the decoder, and three operands out of range, behind the test of `FATAL`
where the operation makes one. -/
theorem illegalRequestsAreRefused : Obligations.IllegalRequestsAreRefused := by
  refine ⟨fun s code bytes rest hcode hq => ?_, fun s rest hq => ?_, fun s op bytes rest hlen hq => ?_,
    fun s bytes rest hlen hq => ?_, fun s pid a b ty hpid => ?_, fun s pid ty hty => ?_, fun s data hlen => ?_⟩
  · exact step_of_rejected hq (decode_unknownCode s.types hcode bytes)
  · exact step_of_rejected (e := .noCode) hq rfl
  · rw [step_of_rejected hq (decode_wrongLength s.types hlen), rejectStatus_badOperands]
  · rw [step_of_rejected hq (decode_packet_wrongLength s.types hlen), rejectStatus, worksWhenFatal, Bool.not_false,
      Bool.and_true]
  · have hp := pidOperand_of_gt hpid
    refine ⟨exec_pidGet_of_badPid hp s, ?_, ?_, ?_⟩
    · rw [exec_pidSetType_of_badPid hp, State.unlessFatal_answer]
    · rw [exec_pidSetLink_of_badPid hp, State.unlessFatal_answer]
    · rw [exec_secTake_of_badPid hp, State.unlessFatal_answer]
  · rw [exec_pidSetType_of_badType (typeOperand_of_gt hty), State.unlessFatal_answer]
  · rw [exec_hufDec_of_gt hlen, State.unlessFatal_answer]
end

section
/-! PROOFS. What only `RESET` clears (spec/44_host_ops.md R205, spec/10_state.md R24 to R26): every other effect keeps
`FATAL`, the seal, the flags, and what an entry remembers of its PID's traffic. -/

namespace Sys2Proof.Machine

variable {s t : State} {i : Instr}

/-- What `e` says of a PID that was seen still stands in `e'` (R13, R16, R17). -/
def PidEntry.RememberedIn (e e' : PidEntry) : Prop :=
  (e.present = true → e'.present = true) ∧ (e.ccValid = true → e'.ccValid = true)
    ∧ (e.scramblingControl ≠ 0 → e'.scramblingControl ≠ 0)

theorem PidEntry.rememberedIn_refl (e : PidEntry) : e.RememberedIn e := ⟨id, id, id⟩

/-- Steps 3 to 7 set `present` and `cc_valid`, and write the latch with a non-zero value only (R144, R145, R146). -/
theorem feedEntry_remembers (cls : PidClass) (p : Packet) (e : PidEntry) :
    e.RememberedIn (feedEntry cls p e).entry := by
  obtain ⟨_, _, _, hpresent, hvalid, _, _⟩ := feedEntry_fixed cls p e
  refine ⟨fun _ => hpresent, fun _ => hvalid, fun hlatch => ?_⟩
  rcases feedEntry_cases cls p e with ⟨hsc, h⟩ | ⟨_, _, h⟩ | ⟨_, _, _, h⟩ | ⟨_, _, _, _, h⟩ | ⟨_, _, _, _, h⟩ |
    ⟨_, _, _, _, _, _, _, h⟩ <;> rw [h]
  · exact hsc
  all_goals exact hlatch

theorem State.setEntry_remembers (s : State) (p : Pid) (e : PidEntry) {q : Pid} (h : (s.entry p).RememberedIn e) :
    (s.entry q).RememberedIn ((s.setEntry p e).entry q) := by
  by_cases hq : q = p
  · rw [hq, State.setEntry_entry_self]
    exact h
  · rw [State.setEntry_entry_other s e hq]
    exact PidEntry.rememberedIn_refl _

theorem InstrEffect.sealed_stays (h : InstrEffect s i t) (hi : i ≠ .reset) (hs : s.hufSealed = true) :
    t.hufSealed = true := by
  cases h with
  | clears => exact absurd rfl hi
  | decodes => rfl
  | _ => exact hs

/-- Flags are only ever or-ed in (R25). -/
theorem InstrEffect.errflags_grow (h : InstrEffect s i t) (hi : i ≠ .reset) : ∃ w, t.errflags = s.errflags ||| w := by
  cases h with
  | clears => exact absurd rfl hi
  | errs | takes | exhausts | decodes | feeds => exact ⟨_, rfl⟩
  | _ => exact ⟨0, BitVec.or_zero.symm⟩

theorem InstrEffect.entry_remembers (h : InstrEffect s i t) (hi : i ≠ .reset) (q : Pid) :
    (s.entry q).RememberedIn (t.entry q) := by
  cases h with
  | clears => exact absurd rfl hi
  | setsType _ _ p ty => exact s.setEntry_remembers p _ ⟨id, id, id⟩
  | setsLink _ _ _ p => exact s.setEntry_remembers p _ ⟨id, id, id⟩
  | takes _ p => exact s.setEntry_remembers p _ ⟨id, id, id⟩
  | feeds p => exact s.setEntry_remembers p.pid _ (feedEntry_remembers _ p _)
  | _ => exact PidEntry.rememberedIn_refl _

end Sys2Proof.Machine

open Sys2Proof Sys2Proof.Machine

/-- Settles O12: `RESET` by its meaning, and every other instruction by its effect. -/
theorem resetAloneClears : Obligations.ResetAloneClears := by
  refine ⟨fun s => rfl, fun i s t hi hx => ?_⟩
  have heffect := exec_effect hx
  refine ⟨heffect.fatal_stays hi, heffect.sealed_stays hi, fun k hk => ?_, heffect.entry_remembers hi⟩
  obtain ⟨w, hw⟩ := heffect.errflags_grow hi
  rw [hw, BitVec.getLsbD_or, hk, Bool.true_or]
end

section
/-! PROOFS. One operation, one status (spec/60_exceptions.md R240, R251; spec/20_memory.md R48; log entries 1 and 2):
nothing stops the block, and every effect of an instruction ends in a single reply. -/

namespace Sys2Proof.Machine

variable {s t : State} {i : Instr}

/-- `RESET`, `STAT.GET` and `PID.GET` answer in every state; every other instruction, a dispatch row included, stands
behind the test of `FATAL`, and both its branches give a next state (R254). -/
theorem exec_gives_next (i : Instr) (s : State) : ∃ t, exec i s = .next t := by
  cases i with
  | reset | statGet => exact ⟨_, rfl⟩
  | pidGet pid =>
    simp only [exec, execPidGet]
    split <;> exact ⟨_, rfl⟩
  | _ =>
    by_cases hf : s.fatal = true
    · exact ⟨_, if_pos hf⟩
    · exact ⟨_, if_neg hf⟩

/-- R251: "One operation reports one status". -/
theorem InstrEffect.replies_once (h : InstrEffect s i t) :
    ∃ r, t.replies = r :: s.replies ∧ t.requests = s.requests := by
  cases h with
  | clears => exact ⟨⟨.ok, .noFields⟩, rfl, rfl⟩
  | feeds p =>
    have hfed := feedAccepted_fedTo (s.classOf p.pid) p s
    exact ⟨_, hfed.reply, hfed.rest.requests⟩
  | _ => exact ⟨_, rfl, rfl⟩

/-- R240: waiting, performing an instruction and rejecting a request all end in a next state. -/
theorem step_gives_next (s : State) : ∃ t, step s = .next t := by
  cases hq : s.requests with
  | nil => exact ⟨s, stepWithoutRequestWaits s hq⟩
  | cons r rest =>
    cases hd : decode s.types r with
    | instr i =>
      rw [stepRunsDecodedInstruction s r rest i hq hd]
      exact exec_gives_next i _
    | rejected e => exact ⟨_, step_of_rejected hq hd⟩

end Sys2Proof.Machine

open Sys2Proof Sys2Proof.Machine

/-- Settles O9: no instruction or step stops, and the effect of an instruction ends in one reply. -/
theorem everyOperationRepliesOnce : Obligations.EveryOperationRepliesOnce := by
  refine ⟨fun i s => ?_, step_gives_next⟩
  obtain ⟨t, hx⟩ := exec_gives_next i s
  obtain ⟨r, hreplies, hrequests⟩ := (exec_effect hx).replies_once
  exact ⟨t, r, hx, hreplies, hrequests⟩
end
